-- ==== Sys2Proof/Word.lean ====
section
/-! DEFINITION. The one word type of the block: every datum is an unsigned 8-bit value (R18, R64). -/

namespace Sys2Proof

/-- A byte (R18). Every storage access, primitive and wire transfer moves exactly one (R64). -/
abbrev Byte := BitVec 8

end Sys2Proof
end

