-- ==== Sys2Proof/Config.lean ====
section
/-! DEFINITION. The parameters of `00_scope.md` R12 to R17 as plain data, what makes them legal, the reference
values, and the one free value of the model: the byte a storage slot holds before anything wrote it. -/

namespace Sys2Proof

/-- The parameters (R12 to R16). They are fixed before reset and no operation changes them (R46); State holds them,
so that every statement over states is a statement over every choice of parameters (log entry 1). -/
structure Config where
  /-- `N`, the capacity of each queue (R12). -/
  N : Nat
  /-- `L`, the most payload bytes of a frame (R13). -/
  L : Nat
  /-- `NUMBERING` (R14). -/
  numbering : Bool
  /-- `OP_WAIT` (R15). -/
  opWait : Byte
  /-- `OP_RESUME` (R15). -/
  opResume : Byte
  /-- `OP_ACK` (R15). -/
  opAck : Byte
  /-- `OP_RESYNC` (R15). -/
  opResync : Byte
  /-- `OP_ESCAPE`, the source's `ESCAPE_CHAR` (R15, R90). -/
  opEscape : Byte
  /-- `OP_END`, the terminator (R15). -/
  opEnd : Byte
  /-- `OVF_NONTERM_ADVANCES_SEQ` (R16), read only by R173. -/
  ovfNontermAdvancesSeq : Bool
deriving DecidableEq, Repr

/-- The six reserved opcode values (R15). -/
def Config.reserved (c : Config) : List Byte :=
  [c.opWait, c.opResume, c.opAck, c.opResync, c.opEscape, c.opEnd]

/-- The constraints of R12, R13 and R15: `N >= 1`, `2 <= L <= 255`, six pairwise distinct opcodes. -/
abbrev Config.wf (c : Config) : Prop :=
  1 ≤ c.N ∧ 2 ≤ c.L ∧ c.L ≤ 255 ∧ c.reserved.Nodup

/-- `SB`, the number of sequence bytes in a frame (R17). -/
def Config.sb (c : Config) : Nat := if c.numbering then 1 else 0

/-- `FLEN(len)`, the wire bytes of a frame with `len` payload bytes (R17). -/
def Config.flen (c : Config) (len : Nat) : Nat := 1 + c.sb + len + 1

/-- `FLEN_MAX` (R17). -/
def Config.flenMax (c : Config) : Nat := c.flen c.L

/-- `IW = max(1, ceil(log2 N))`, the width of an index register (R12). -/
def Config.indexWidth (c : Config) : Nat := max 1 (Nat.clog 2 c.N)

/-- `CW = ceil(log2 (N+1))`, the width of a count register (R12). -/
def Config.countWidth (c : Config) : Nat := Nat.clog 2 (c.N + 1)

/-- The reference values of R12, R13, R15 and R16, with `NUMBERING` false as `95_test_vectors.md` has it.
DESIGN CHOICE (log entry 1), unsafe: they are the spec's own examples, not the repository's values. -/
def Config.reference : Config where
  N := 10
  L := 4
  numbering := false
  opWait := 0xF0
  opResume := 0xF1
  opAck := 0xF2
  opResync := 0xF3
  opEscape := 0xFE
  opEnd := 0xFF
  ovfNontermAdvancesSeq := false

/-- The reference values with `NUMBERING` true (the other case of R14). -/
def Config.referenceNumbered : Config := { Config.reference with numbering := true }

/-- The four byte stores of R42. -/
inductive StoreId where
  | rxq | txq | hcf | ecf
deriving DecidableEq, Repr

/-- FREE VALUE: the byte a slot of a store holds before anything has written it (R24, R47, U14: `any value`). No body:
nothing can be proved of it (log entry 9, safe). -/
opaque Config.unwritten (store : StoreId) (slot : Nat) : Byte

end Sys2Proof
end

