-- ==== Sys2Proof/Syntax.lean ====
section
/-! DEFINITION. The operations of the block: one constructor of `Instr` per row of `opcode_table.json`, and the
encoded forms they have (a request on the command port, an opcode byte at the head of a frame). -/

namespace Sys2Proof

/-- The two ring buffers (R23). -/
inductive QueueId where
  | rxq | txq
deriving DecidableEq, Repr

/-- The two frame registers (R36): `HCF` of mainline, `ECF` of interrupt context. -/
inductive FrameId where
  | hcf | ecf
deriving DecidableEq, Repr

/-- The continuation labels of a suspended handler (R44, R215). -/
inductive Kont where
  /-- `K_OVF(b)`: the overflow path, with the byte that was dropped (R173). -/
  | ovf (b : Byte)
  /-- `K_RESUMED`: the completion, after the forced `RESUME` (R187). -/
  | resumed
deriving DecidableEq, Repr

/-- The operations, one constructor per row of `opcode_table.json`, in its order. -/
inductive Instr where
  -- wire-frame opcodes (R85)
  | wait
  | resume
  | ack
  | ackUnsolicited
  | resync
  | escapeChar
  | endMark
  | app (op : Byte)
  -- host operations (R100)
  | tInit
  | tStatus
  | tTransmit (b : Byte)
  | tReceive
  | tBulkTransmit (bytes : List Byte) (start length : Nat)
  | tBeginTransmit
  | cfInit
  | cfSetOpcode (op : Byte)
  | cfAppend (b : Byte)
  | cfEncodeAndEnqueue
  | cfDecodeFromReceive (maxLen : Byte)
  | hostUnassigned (sel : BitVec 5)
  -- internal operations (R101)
  | rbInit (q : QueueId)
  | rbPush (q : QueueId) (b : Byte)
  | rbPop (q : QueueId)
  | rbIsEmpty (q : QueueId)
  | rbIsFull (q : QueueId)
  | rbPeekHead (q : QueueId)
  | rbPeekTail (q : QueueId)
  | tKick
  | tHandoff (b : Byte)
  | tDriveTx
  | tDriveRx
  | cfFrameBytes (op : Byte) (payload : List Byte)
  | cfEncodeAndForce (op : Byte) (payload : List Byte) (k : Kont)
  | cfRdOpcode (f : FrameId)
  | cfRdSeq
  | cfRdPayload (f : FrameId) (maxLen : Nat)
  | cfDiscard
  | peFrame
  | peForce (first : Byte) (rest : List Byte) (k : Kont)
  -- event handlers and the spin (R101)
  | peRxc
  | peTxc
  | peDre
  | spin
  -- environment steps (R264, R266)
  | periphTxDone
  | periphDeliver (b : Byte)
deriving DecidableEq, Repr

/-- A request on the host command port (R50): `op_sel` is 5 bits; `op_arg` is a byte, or for `T.BULK_TRANSMIT` a byte
list with `start` and `length`. Every operand line carries something at every request; an operation reads the lines it
has (log entry 4). -/
structure HostReq where
  sel : BitVec 5
  arg : Byte
  bytes : List Byte
  start : Nat
  length : Nat
deriving DecidableEq, Repr

/-- What an operation is encoded as (R80, R100). Internal operations, events and environment steps have no code
(R101). -/
inductive Code where
  /-- A request on the command port. -/
  | request (r : HostReq)
  /-- Byte 0 of a frame on the link. -/
  | opcode (op : Byte)
deriving DecidableEq, Repr

/-- The rows of the opcode map (R85, with the two rows of R178 for `ACK`). -/
inductive FrameKind where
  | wait | resume | ack | ackUnsolicited | resync | escapeChar | endMark
  | app (op : Byte)
deriving DecidableEq, Repr

/-- The operation a row of the opcode map stands for. -/
def FrameKind.toInstr : FrameKind → Instr
  | .wait => .wait
  | .resume => .resume
  | .ack => .ack
  | .ackUnsolicited => .ackUnsolicited
  | .resync => .resync
  | .escapeChar => .escapeChar
  | .endMark => .endMark
  | .app op => .app op

end Sys2Proof
end

