-- ==== Sys2Proof/WellFormed.lean ====
section
/-! DEFINITION. Which operations are well formed under given parameters: the operand conditions the spec states. -/

namespace Sys2Proof

/-- The assigned `op_sel` codes (R100). -/
def assignedSelects : List (BitVec 5) :=
  [0x00, 0x01, 0x02, 0x03, 0x04, 0x05, 0x08, 0x09, 0x0A, 0x0B, 0x0C]

/-- The operand conditions of the spec: an application opcode is none of the six reserved values (R92); an unassigned
select is none of the assigned ones (R100); a frame value has at most `L` payload bytes (R154, R156, section head of
`42_command_frame.md`); a forced list is the bytes of a control frame, so at most `FLEN(2)` long (R44, R213; it is
non-empty by its shape). A bulk range outside its list is an operand of `T.BULK_TRANSMIT` with an effect of its own
(R135), so it is well formed. -/
def wellFormed (c : Config) : Instr → Bool
  | .app op => !c.reserved.contains op
  | .hostUnassigned sel => !assignedSelects.contains sel
  | .cfFrameBytes _ payload => payload.length ≤ c.L
  | .cfEncodeAndForce _ payload _ => payload.length ≤ c.L
  | .peForce _ rest _ => 1 + rest.length ≤ c.flen 2
  | .wait | .resume | .ack | .ackUnsolicited | .resync | .escapeChar | .endMark => true
  | .tInit | .tStatus | .tTransmit _ | .tReceive | .tBulkTransmit _ _ _ | .tBeginTransmit => true
  | .cfInit | .cfSetOpcode _ | .cfAppend _ | .cfEncodeAndEnqueue | .cfDecodeFromReceive _ => true
  | .rbInit _ | .rbPush _ _ | .rbPop _ | .rbIsEmpty _ | .rbIsFull _ | .rbPeekHead _ | .rbPeekTail _ => true
  | .tKick | .tHandoff _ | .tDriveTx | .tDriveRx => true
  | .cfRdOpcode _ | .cfRdSeq | .cfRdPayload _ _ | .cfDiscard | .peFrame => true
  | .peRxc | .peTxc | .peDre | .spin | .periphTxDone | .periphDeliver _ => true

end Sys2Proof
end

