-- ==== Sys2Proof/Decode.lean ====
section
/-! DEFINITION. The encodings of `30_encoding.md`: the opcode map (R85), the command-port codes (R100) and the wire
frame (R80 to R84), each as a decoder followed by its encoder. -/

namespace Sys2Proof

/-- The opcode map (R85), with the two rows of the dispatch table for `OP_ACK` told apart by `LS.WAITING_ACK` (R178).
Total: no opcode value is illegal (R93). -/
def classify (c : Config) (waitingAck : Bool) (op : Byte) : FrameKind :=
  if op = c.opEnd then .endMark
  else if op = c.opWait then .wait
  else if op = c.opResume then .resume
  else if op = c.opAck then (if waitingAck then .ack else .ackUnsolicited)
  else if op = c.opResync then .resync
  else if op = c.opEscape then .escapeChar
  else .app op

/-- The operation that byte 0 of a frame selects. -/
def decodeOpcode (c : Config) (waitingAck : Bool) (op : Byte) : Instr :=
  (classify c waitingAck op).toInstr

/-- The host operation a request on the command port selects (R100): every code not listed is unassigned. -/
def decodeRequest (r : HostReq) : Instr :=
  match r.sel.toNat with
  | 0x00 => .tInit
  | 0x01 => .tStatus
  | 0x02 => .tTransmit r.arg
  | 0x03 => .tReceive
  | 0x04 => .tBulkTransmit r.bytes r.start r.length
  | 0x05 => .tBeginTransmit
  | 0x08 => .cfInit
  | 0x09 => .cfSetOpcode r.arg
  | 0x0A => .cfAppend r.arg
  | 0x0B => .cfEncodeAndEnqueue
  | 0x0C => .cfDecodeFromReceive r.arg
  | _ => .hostUnassigned r.sel

/-- The decoder of both encoded forms. -/
def decode (c : Config) (waitingAck : Bool) : Code → Instr
  | .request r => decodeRequest r
  | .opcode op => decodeOpcode c waitingAck op

/-- A request with no operand: the operand lines carry zeros. -/
def HostReq.plain (sel : BitVec 5) : HostReq := { sel, arg := 0, bytes := [], start := 0, length := 0 }

/-- The request that selects a host operation (R100); none for the other operations. -/
def encodeRequest : Instr → Option HostReq
  | .tInit => some (.plain 0x00)
  | .tStatus => some (.plain 0x01)
  | .tTransmit b => some { HostReq.plain 0x02 with arg := b }
  | .tReceive => some (.plain 0x03)
  | .tBulkTransmit bytes start length => some { HostReq.plain 0x04 with bytes, start, length }
  | .tBeginTransmit => some (.plain 0x05)
  | .cfInit => some (.plain 0x08)
  | .cfSetOpcode op => some { HostReq.plain 0x09 with arg := op }
  | .cfAppend b => some { HostReq.plain 0x0A with arg := b }
  | .cfEncodeAndEnqueue => some (.plain 0x0B)
  | .cfDecodeFromReceive m => some { HostReq.plain 0x0C with arg := m }
  | .hostUnassigned sel => some (.plain sel)
  | _ => none

/-- The opcode byte of a wire-frame row (R85, R178); none for the other operations. -/
def encodeOpcode (c : Config) : Instr → Option Byte
  | .wait => some c.opWait
  | .resume => some c.opResume
  | .ack => some c.opAck
  | .ackUnsolicited => some c.opAck
  | .resync => some c.opResync
  | .escapeChar => some c.opEscape
  | .endMark => some c.opEnd
  | .app op => some op
  | _ => none

/-- The code of an operation: the opcode byte of a wire-frame row, the request of a host operation, and none for a row
whose encoding the table gives as `none` (R101). -/
def encode (c : Config) (i : Instr) : Option Code :=
  match encodeOpcode c i with
  | some op => some (.opcode op)
  | none => (encodeRequest i).map .request

/-- The bytes of a frame after its opcode: the stamp if `NUMBERING`, the payload, the terminator (R80, R81, R154). -/
def frameTail (c : Config) (stamp : Byte) (payload : List Byte) : List Byte :=
  (if c.numbering then [stamp] else []) ++ payload ++ [c.opEnd]

/-- The wire bytes of a frame value (R80, R81, R154). -/
def frameBytes (c : Config) (stamp op : Byte) (payload : List Byte) : List Byte :=
  op :: frameTail c stamp payload

/-- Why a byte list holds no frame, by name. -/
inductive DecodeError where
  /-- Nothing is buffered (first `NONE` case of R157). -/
  | nothingBuffered
  /-- The first byte is the terminator: the empty frame of R91 (second `NONE` case of R157). -/
  | emptyFrame
  /-- The bytes end before the stamp, with `NUMBERING` (R158). -/
  | noStamp
deriving DecidableEq, Repr

/-- The parts of one frame read from the front of a byte list. -/
structure FrameParts where
  opcode : Byte
  /-- The stamp, `0x00` without `NUMBERING` (R160). -/
  stamp : Byte
  /-- The payload bytes kept (R83). -/
  payload : List Byte
  /-- The payload bytes beyond the limit, read and discarded (R83). -/
  dropped : List Byte
  /-- What stands behind the frame. -/
  rest : List Byte
deriving DecidableEq, Repr

/-- The bytes in front of the first terminator (R82). -/
def beforeEnd (c : Config) (l : List Byte) : List Byte := l.takeWhile (fun b => b != c.opEnd)

/-- The bytes behind the first terminator (R82); nothing if there is none. -/
def afterEnd (c : Config) (l : List Byte) : List Byte := (l.dropWhile (fun b => b != c.opEnd)).drop 1

/-- Cut the bytes after the header at the first terminator, and the payload at `min(m, L)` bytes (R82, R83). -/
def frameBody (c : Config) (m : Nat) (opcode stamp : Byte) (l : List Byte) : FrameParts where
  opcode
  stamp
  payload := (beforeEnd c l).take (min m c.L)
  dropped := (beforeEnd c l).drop (min m c.L)
  rest := afterEnd c l

/-- The decode of one whole frame from a byte list (R157 to R160), total on any bytes and rejecting by name. -/
def decodeFrame (c : Config) (m : Nat) : List Byte → Except DecodeError FrameParts
  | [] => .error .nothingBuffered
  | op :: l =>
    if op = c.opEnd then .error .emptyFrame
    else if c.numbering then
      match l with
      | [] => .error .noStamp
      | s :: l' => .ok (frameBody c m op s l')
    else .ok (frameBody c m op 0x00 l)

/-- The instruction of a table word, bit 0 its least significant bit, under the reference parameters (R15). The table
numbers two spaces from 0: a word below `0x20` is an `op_sel` of the command port (R100), any other byte is byte 0 of a
frame (R85), with `LS.WAITING_ACK` as reset leaves it (log entry 16). -/
def decodeTableWord (nbits w : Nat) : Option Instr :=
  if nbits = 0 ∨ 8 < nbits ∨ 256 ≤ w then none
  else if w < 0x20 then some (decode Config.reference false (.request (.plain (BitVec.ofNat 5 w))))
  else some (decode Config.reference false (.opcode (BitVec.ofNat 8 w)))

end Sys2Proof
end

