-- ==== Sys2Proof/Machine/State.lean ====
section
/-! DEFINITION. The state of the block and of its environment as plain data (`10_state.md`), the reasons a step can
stop, and the state after reset (R47, R290). -/

namespace Sys2Proof.Machine

/-- A byte store: (index, byte) pairs with rising indices, an index that nothing has written being absent (R24). -/
abbrev Store := List Host.Cell

/-- The canonical form of a store: indices strictly rising. What an unlisted index holds is "nothing written", which no
entry equals. -/
abbrev Store.wf (m : Store) : Prop := m.Pairwise (fun x y => x.1 < y.1)

/-- A ring buffer (R20). -/
structure Ring where
  store : Store
  head : Nat
  tail : Nat
  count : Nat
deriving DecidableEq, Repr

/-- `LS`, the five independent flags of Link Status (R28 to R33). Bits 7:5 have no storage (R40). -/
structure LinkStatus where
  selfWaiting : Bool
  partnerWaiting : Bool
  requestSelfWait : Bool
  waitingAck : Bool
  transmitting : Bool
deriving DecidableEq, Repr

/-- A command-frame register (R36): the payload is its first `len` slots. -/
structure FrameReg where
  opcode : Byte
  payload : Store
  len : Nat
deriving DecidableEq, Repr

/-- `ctx`, the engine sequencer (R44): `FORCING(buf, k)` with `buf = first :: rest`, so never empty. -/
inductive Ctx where
  | idle
  | forcing (first : Byte) (rest : List Byte) (k : Kont)
deriving DecidableEq, Repr

/-- The peripheral's state elements (R45), with the byte in flight (R263; port `tx_data` of R50, log entry 12). -/
structure Periph where
  txBusy : Bool
  txcFlag : Bool
  rxFull : Bool
  rxData : Byte
  txData : Byte
deriving DecidableEq, Repr

/-- `OK` or `NONE`, the status of a read of the frame decode (R157, R158, R160). -/
inductive RdStatus where
  | ok | absent
deriving DecidableEq, Repr

/-- The result of a dispatched frame (R174, R178). -/
inductive FrameResult where
  | completed | discarded
deriving DecidableEq, Repr

/-- The value an operation returned (R100, R101; ports `op_res`, `op_valid` of R50). -/
inductive OpResult where
  /-- No result. -/
  | none
  /-- One bit: `RB.PUSH`, `RB.IS_EMPTY`, `RB.IS_FULL`. -/
  | bit (b : Bool)
  /-- `(valid, byte)`: `RB.POP`, the two peeks, `T.RECEIVE`. -/
  | byte (valid : Bool) (b : Byte)
  /-- The `STATUS` byte (R95). -/
  | flags (s : Byte)
  /-- A count or a remaining capacity. -/
  | count (n : Nat)
  /-- A byte list: `CF.FRAME_BYTES`. -/
  | bytes (l : List Byte)
  /-- `CF.RD_OPCODE`. -/
  | status (st : RdStatus)
  /-- `(status, stamp)`: `CF.RD_SEQ`, `CF.DECODE_FROM_RECEIVE`. -/
  | stamp (st : RdStatus) (s : Byte)
  /-- `(byte, stored)`: `T.DRIVE_RX`. -/
  | received (b : Byte) (stored : Bool)
  /-- A dispatch row. -/
  | frame (r : FrameResult)
deriving DecidableEq, Repr

/-- The named conditions of R240. `FORCE_LOCKUP` names an infinite run, not an event (R217), so it is no constructor:
see `Sys2Proof.Machine.ForceLockup`. -/
inductive Condition where
  | popEmpty (q : QueueId)
  | txqFull
  | rxqOverflow (b : Byte)
  | appendFull
  | payloadTruncated
  | seqMismatch (stamp expected : Byte)
  | unsolicitedAck
  | resyncMalformed
deriving DecidableEq, Repr

/-- The interrupt sources (R246). -/
inductive IrqSource where
  | rxc | txc | dre
deriving DecidableEq, Repr

/-- Who takes a step: the agents of R9, with the two steps of PERIPH apart, and the reset event of R290. -/
inductive Agent where
  /-- HOST: serve the request on the command port. -/
  | host
  /-- Serve the receive-complete request. -/
  | rxc
  /-- Serve the transmit-complete request. -/
  | txc
  /-- Serve the data-register-empty request. -/
  | dre
  /-- One iteration of the forced-transmit spin. -/
  | spin
  /-- `PERIPH: TX_DONE`. -/
  | txDone
  /-- `PERIPH: DELIVER` of the first byte of the inbound stream. -/
  | deliver
  /-- PEER appends a byte to the inbound stream (R270). -/
  | peer (b : Byte)
  /-- The reset event. -/
  | reset
deriving DecidableEq, Repr

/-- The whole state: the block's, the environment's that the spec names, and three lists of the model (`conds`,
`hostQ`, `sched`; log entries 2, 3, 8). -/
structure State where
  /-- The parameters (R46). -/
  cfg : Config
  /-- `RXQ` (R23). -/
  rxq : Ring
  /-- `TXQ` (R23). -/
  txq : Ring
  /-- `LS` (R28). -/
  ls : LinkStatus
  /-- `SEQ_IN` (R35). -/
  seqIn : Byte
  /-- `SEQ_OUT` (R35). -/
  seqOut : Byte
  /-- `DRE_IE` (R38). -/
  dreIe : Bool
  /-- `HCF` (R36). -/
  hcf : FrameReg
  /-- `ECF` (R36). -/
  ecf : FrameReg
  /-- `ctx` (R44). -/
  ctx : Ctx
  /-- The peripheral (R45). -/
  periph : Periph
  /-- `WIRE_OUT` (R45). -/
  wireOut : List Byte
  /-- `HANDLER_OUT`: pairs of opcode and payload list (R45, R184). -/
  handlerOut : List (Byte × List Byte)
  /-- The inbound stream (R270). -/
  linkIn : List Byte
  /-- The outbound stream (R264, R270). -/
  linkOut : List Byte
  /-- `op_ack` of the last host request (R50). -/
  opAck : Bool
  /-- The value the last operation returned (R50). -/
  ret : OpResult
  /-- The conditions signalled since reset, in order (R245, R260). -/
  conds : List Condition
  /-- The requests the HOST is going to issue; the first one is on the command port (R50, R259). -/
  hostQ : List HostReq
  /-- The agents that take the next steps, in order (R251, U18). -/
  sched : List Agent
deriving DecidableEq, Repr

/-- Why a step stops. The first two are the faults the spec asks of a model (U8). -/
inductive Fault where
  /-- A byte was handed to a busy peripheral: raised by `T.HANDOFF` when its precondition fails (R139, R263), which the
  misuse of `T.INIT` leads to (R293). Safe: the contract gives no effect there. -/
  | handoffBusy
  /-- `receive_byte` with nothing waiting: raised by `T.DRIVE_RX` when its precondition fails (R138, R267). Safe: the
  contract gives a stale or unspecified byte there, and U8 asks for a fault. -/
  | receiveNothing
  /-- A forced send was started while one is running: raised by `PE.FORCE` when its precondition `ctx == IDLE` fails
  (R213). Safe: no rule does so, and the spec gives no effect (log entry 11). -/
  | forceNested
deriving DecidableEq, Repr

/-- Why an operation is refused. -/
inductive Refusal where
  /-- No meaning yet for the operation of this mnemonic: raised only by an arm of `exec`. Safe. -/
  | notModelled (mnemonic : String)
deriving DecidableEq, Repr

/-- A ring buffer after `RB.INIT` over a store (R110): the store is not written. -/
def Ring.empty (store : Store) : Ring := { store, head := 0, tail := 0, count := 0 }

/-- A frame register after `CF.INIT` over its payload slots (R150): they are not written. -/
def FrameReg.empty (payload : Store) : FrameReg := { opcode := 0x00, payload, len := 0 }

/-- All five flags 0. -/
def LinkStatus.clear : LinkStatus :=
  { selfWaiting := false, partnerWaiting := false, requestSelfWait := false, waitingAck := false, transmitting := false }

/-- The state right after reset under given parameters: the table of R47, environment and traces included. Nothing is
listed in a store (U14, log entry 9); `P.rx_data`, the byte in flight, `op_ack` and the last result are DESIGN CHOICES
(log entries 12, 13, 30). -/
def State.resetWith (cfg : Config) : State where
  cfg
  rxq := Ring.empty []
  txq := Ring.empty []
  ls := LinkStatus.clear
  seqIn := 0x00
  seqOut := 0x00
  dreIe := false
  hcf := FrameReg.empty []
  ecf := FrameReg.empty []
  ctx := .idle
  periph := { txBusy := false, txcFlag := false, rxFull := false, rxData := 0x00, txData := 0x00 }
  wireOut := []
  handlerOut := []
  linkIn := []
  linkOut := []
  opAck := false
  ret := .none
  conds := []
  hostQ := []
  sched := []

/-- The state right after reset (R47, R290), with the reference parameters (log entry 1). -/
def State.reset : State := State.resetWith Config.reference

end Sys2Proof.Machine
end

