-- ==== Sys2Proof/Machine/Ops.lean ====
section
/-! DEFINITION. The named operations over stores, ring buffers, frame registers and the peripheral
(`20_memory.md`, `40_ring_buffer.md`, `60_exceptions.md`), the log of conditions, and handler entry, return and
suspension, which is what this block has in place of exceptions (R245, R252, R253, R255). -/

namespace Sys2Proof.Machine

/-! ### Stores -/

/-- What has been written at an index, if anything has. -/
def storeRead : Store → Nat → Option Byte
  | [], _ => none
  | (a, b) :: rest, i => if a = i then some b else storeRead rest i

/-- Write one byte, keeping the indices rising. -/
def storeWrite : Store → Nat → Byte → Store
  | [], i, v => [(i, v)]
  | (a, b) :: rest, i, v =>
    if i < a then (i, v) :: (a, b) :: rest
    else if i = a then (i, v) :: rest
    else (a, b) :: storeWrite rest i v

/-- `MemRead(q, i, 1)` (R18): the byte at an index; a free value where nothing was written (R24, U14). -/
def storeByte (id : StoreId) (m : Store) (i : Nat) : Byte :=
  (storeRead m i).getD (Config.unwritten id i)

/-- `inc8(v) = (v + 1) mod 256` (R18, R73). -/
def inc8 (v : Byte) : Byte := v + 1

/-! ### Access to the queues and frame registers -/

/-- The store of a queue. -/
def queueStore : QueueId → StoreId
  | .rxq => .rxq
  | .txq => .txq

/-- The store of a frame register's payload. -/
def frameStore : FrameId → StoreId
  | .hcf => .hcf
  | .ecf => .ecf

/-- The ring buffer of a queue. -/
def ring (q : QueueId) (s : State) : Ring :=
  match q with
  | .rxq => s.rxq
  | .txq => s.txq

/-- The state with one ring buffer replaced. -/
def setRing (q : QueueId) (r : Ring) (s : State) : State :=
  match q with
  | .rxq => { s with rxq := r }
  | .txq => { s with txq := r }

/-- A frame register. -/
def frame (f : FrameId) (s : State) : FrameReg :=
  match f with
  | .hcf => s.hcf
  | .ecf => s.ecf

/-- The state with one frame register replaced. -/
def setFrame (f : FrameId) (r : FrameReg) (s : State) : State :=
  match f with
  | .hcf => { s with hcf := r }
  | .ecf => { s with ecf := r }

/-- `signal <Condition>(info)` (R18, R245): it names the condition and changes nothing else. -/
def signal (c : Condition) (s : State) : State := { s with conds := s.conds ++ [c] }

/-- Note the value an operation returned. -/
def setRet (r : OpResult) (s : State) : State := { s with ret := r }

/-- Drive `op_ack`. -/
def setAck (b : Bool) (s : State) : State := { s with opAck := b }

/-- The outcome of an operation that ends in a state or a broken contract. -/
def finish : Except Fault State → Host.Outcome State Fault Refusal
  | .ok s => .next s
  | .error e => .fault e

/-! ### Ring buffers: the pure operations on one buffer of capacity `n` -/

/-- `cont(q)` (R26): the bytes held, oldest first. -/
def contents (id : StoreId) (n : Nat) (r : Ring) : List Byte :=
  (List.range r.count).map (fun i => storeByte id r.store ((r.head + i) % n))

/-- `cont(q)` of a queue of the state. -/
def cont (q : QueueId) (s : State) : List Byte := contents (queueStore q) s.cfg.N (ring q s)

/-- A buffer after an accepted push (R111). -/
def Ring.pushed (n : Nat) (b : Byte) (r : Ring) : Ring :=
  { store := storeWrite r.store r.tail b, head := r.head, tail := (r.tail + 1) % n, count := r.count + 1 }

/-- A buffer after an accepted pop (R112): the slot is not cleared. -/
def Ring.popped (n : Nat) (r : Ring) : Ring :=
  { r with head := (r.head + 1) % n, count := r.count - 1 }

/-- `RB.INIT(q)` (R110). -/
def rbInit (q : QueueId) (s : State) : State := setRing q (Ring.empty (ring q s).store) s

/-- `RB.IS_EMPTY(q)` (R113): it reads `count`. -/
def rbIsEmpty (q : QueueId) (s : State) : Bool := (ring q s).count == 0

/-- `RB.IS_FULL(q)` (R114). -/
def rbIsFull (q : QueueId) (s : State) : Bool := (ring q s).count == s.cfg.N

/-- `RB.PUSH(q, b) -> ok` (R111): no mutation on failure. -/
def rbPush (q : QueueId) (b : Byte) (s : State) : Bool × State :=
  if rbIsFull q s then (false, s) else (true, setRing q ((ring q s).pushed s.cfg.N b) s)

/-- `RB.PEEK_HEAD(q) -> (valid, b)` (R115). -/
def rbPeekHead (q : QueueId) (s : State) : Bool × Byte :=
  if rbIsEmpty q s then (false, 0x00) else (true, storeByte (queueStore q) (ring q s).store (ring q s).head)

/-- `RB.PEEK_TAIL(q) -> (valid, b)` (R116): the slot before `tail`. -/
def rbPeekTail (q : QueueId) (s : State) : Bool × Byte :=
  if rbIsEmpty q s then (false, 0x00)
  else (true, storeByte (queueStore q) (ring q s).store (((ring q s).tail + s.cfg.N - 1) % s.cfg.N))

/-- What `RB.POP` answers and leaves (R112). -/
structure Popped where
  valid : Bool
  byte : Byte
  state : State

/-- `RB.POP(q) -> (valid, b)` (R112): on an empty buffer it signals `POP_EMPTY` and changes nothing. -/
def rbPop (q : QueueId) (s : State) : Popped :=
  if rbIsEmpty q s then { valid := false, byte := 0x00, state := signal (.popEmpty q) s }
  else
    { valid := true
      byte := storeByte (queueStore q) (ring q s).store (ring q s).head
      state := setRing q ((ring q s).popped s.cfg.N) s }

/-- `free(q)` (R117). -/
def freeSpace (q : QueueId) (s : State) : Nat := s.cfg.N - (ring q s).count

/-- Single-byte pushes in ascending order (R64, R135). -/
def pushAll (q : QueueId) (l : List Byte) (s : State) : State :=
  l.foldl (fun t b => (rbPush q b t).2) s

/-! ### The peripheral's primitives -/

/-- `is_transmit_ready()` (R265). -/
def isTransmitReady (s : State) : Bool := !s.periph.txBusy

/-- `is_receive_ready()` (R268). -/
def isReceiveReady (s : State) : Bool := s.periph.rxFull

/-- `transmit_byte(b)` (R263), its precondition holding. -/
def transmitByte (b : Byte) (s : State) : State :=
  { s with periph := { s.periph with txBusy := true, txData := b }, wireOut := s.wireOut ++ [b] }

/-- `receive_byte()` (R267), its precondition holding: the byte is `P.rx_data`, and this is what the read leaves. -/
def receiveByte (s : State) : State := { s with periph := { s.periph with rxFull := false } }

/-- `PERIPH: TX_DONE` (R264): the byte in flight finishes and passes to the link. -/
def periphFinish (s : State) : State :=
  { s with
    periph := { s.periph with txBusy := false, txcFlag := true }
    linkOut := s.linkOut ++ [s.periph.txData] }

/-- `PERIPH: DELIVER(b)` (R266): the first byte of the inbound stream becomes the waiting byte. -/
def periphReceive (b : Byte) (s : State) : State :=
  { s with
    periph := { s.periph with rxFull := true, rxData := b }
    linkIn := s.linkIn.drop 1 }

/-- PEER appends a byte to the inbound stream (R270). -/
def peerSend (b : Byte) (s : State) : State := { s with linkIn := s.linkIn ++ [b] }

/-! ### Interrupt requests, handler entry and return, suspension -/

/-- The request of a source, gated by its enable and masked while a handler is suspended (R246 to R250). -/
def irqEnabled (src : IrqSource) (s : State) : Bool :=
  (s.ctx == .idle) &&
    match src with
    | .rxc => s.periph.rxFull
    | .txc => s.periph.txcFlag
    | .dre => s.dreIe && !s.periph.txBusy

/-- Entering a handler (R252): nothing is saved and no mode changes; taking the transmit-complete interrupt clears its
request (R248, from general knowledge in the spec's own words: log entry 18). -/
def handlerEntry (src : IrqSource) (s : State) : State :=
  match src with
  | .txc => { s with periph := { s.periph with txcFlag := false } }
  | .rxc | .dre => s

/-- Returning from a handler (R253): nothing to restore. -/
def handlerReturn (s : State) : State := s

/-- Serve a source: when its request is not there the handler is not entered and nothing changes (log entry 10). -/
def serveIrq (src : IrqSource) (handler : State → Except Fault State) (s : State) : Except Fault State :=
  if irqEnabled src s then (handler (handlerEntry src s)).map handlerReturn else .ok s

/-- `PE.FORCE(bs, k)` with `bs = first :: rest` (R213): the handler suspends. -/
def peForce (first : Byte) (rest : List Byte) (k : Kont) (s : State) : Except Fault State :=
  if s.ctx = .idle then .ok { s with ctx := .forcing first rest k } else .error .forceNested

/-! ### The command port -/

/-- A host operation (R50, R259): held while a handler is suspended, otherwise acknowledged and run. -/
def hostOp (run : State → Except Fault State) (s : State) : Host.Outcome State Fault Refusal :=
  if s.ctx = .idle then finish (run (setAck true s)) else .next (setAck false s)

/-- A request that is refused: no acknowledge, no state change (R100, R135, R240; log entry 5). -/
def hostRefuse (s : State) : Host.Outcome State Fault Refusal := .next (setAck false s)

/-! ### Reset -/

/-- The reset event (R290, R291): the table of R47 over the stores, the peripheral's data and the environment's plans as
they are (log entry 15). Both link streams become empty, as R290 assumes of the environment; in a two-node system these
are the node's own halves of them, and the bytes in the other node's halves survive (DESIGN CHOICE, log entry 32). -/
def resetEvent (s : State) : State :=
  { State.resetWith s.cfg with
    rxq := Ring.empty s.rxq.store
    txq := Ring.empty s.txq.store
    hcf := FrameReg.empty s.hcf.payload
    ecf := FrameReg.empty s.ecf.payload
    periph := { s.periph with txBusy := false, txcFlag := false, rxFull := false }
    hostQ := s.hostQ
    sched := s.sched }

end Sys2Proof.Machine
end

