-- ==== Sys2Proof/Machine/Operands.lean ====
section
/-! DEFINITION. The operand forms: the frame value a register holds (R36), the wire bytes built from it (R154), the
range of a bulk transmit (R135), and the four control frames (R190). -/

namespace Sys2Proof.Machine

/-- The payload of a frame register: its first `len` slots (R36). -/
def payloadOf (id : StoreId) (f : FrameReg) : List Byte :=
  (List.range f.len).map (storeByte id f.payload)

/-- `f.payload[0..f.len-1]` of a register of the state. -/
def framePayload (f : FrameId) (s : State) : List Byte := payloadOf (frameStore f) (frame f s)

/-- The frame value `(f.opcode, f.payload[0..f.len-1])` of a register. -/
def frameValue (f : FrameId) (s : State) : Byte × List Byte := ((frame f s).opcode, framePayload f s)

/-- The bytes of a frame after its opcode, stamped with the current `SEQ_OUT` (R84, R154). -/
def cfFrameTail (payload : List Byte) (s : State) : List Byte := frameTail s.cfg s.seqOut payload

/-- `CF.FRAME_BYTES(op, pl)` (R154): it changes nothing. -/
def cfFrameBytes (op : Byte) (payload : List Byte) (s : State) : List Byte := op :: cfFrameTail payload s

/-- Whether a bulk range lies inside its byte list (R135). -/
def bulkInRange (bytes : List Byte) (start length : Nat) : Bool := start + length ≤ bytes.length

/-- `k`, the bytes a bulk transmit accepts: the free space is measured before the kick (R135). -/
def bulkCount (length : Nat) (s : State) : Nat := min length (freeSpace .txq s)

/-- The bytes `bytes[start .. start+k-1]` (R135). -/
def bulkSlice (bytes : List Byte) (start k : Nat) : List Byte := (bytes.drop start).take k

/-- The counter pair of `RESYNC` and `RESUME`: outgoing first (R61, R190). -/
def counterPair (s : State) : List Byte := [s.seqOut, s.seqIn]

end Sys2Proof.Machine
end

