-- ==== Sys2Proof/Machine/Flags.lean ====
section
/-! DEFINITION. The flag registers: every single-flag write of `LS` and `DRE_IE`, and the byte views of `LS`, `IE`
and `STATUS` (R40, R94, R95). -/

namespace Sys2Proof.Machine

/-- One flag as a byte with that bit set. -/
def flagBit (b : Bool) (mask : Byte) : Byte := if b then mask else 0x00

/-- `LS` as its byte (R94): bits 7:5 read as 0. -/
def lsByte (l : LinkStatus) : Byte :=
  flagBit l.selfWaiting 0x01 ||| flagBit l.partnerWaiting 0x02 ||| flagBit l.requestSelfWait 0x04
    ||| flagBit l.waitingAck 0x08 ||| flagBit l.transmitting 0x10

/-- `IE`, CR3, as its byte (R40). -/
def ieByte (s : State) : Byte := flagBit s.dreIe 0x01

/-- The `STATUS` value of `T.STATUS()` (R95, R132): bits 7:6 read as 0. -/
def statusByte (s : State) : Byte :=
  flagBit (!isTransmitReady s) 0x01 ||| flagBit (!isReceiveReady s) 0x02
    ||| flagBit (rbIsEmpty .txq s) 0x04 ||| flagBit (rbIsFull .txq s) 0x08
    ||| flagBit (rbIsEmpty .rxq s) 0x10 ||| flagBit (rbIsFull .rxq s) 0x20

/-- `LS.SELF_WAITING <- b`. -/
def setSelfWaiting (b : Bool) (s : State) : State := { s with ls := { s.ls with selfWaiting := b } }

/-- `LS.PARTNER_WAITING <- b`. -/
def setPartnerWaiting (b : Bool) (s : State) : State := { s with ls := { s.ls with partnerWaiting := b } }

/-- `LS.REQUEST_SELF_WAIT <- b`. -/
def setRequestSelfWait (b : Bool) (s : State) : State := { s with ls := { s.ls with requestSelfWait := b } }

/-- `LS.WAITING_ACK <- b`. -/
def setWaitingAck (b : Bool) (s : State) : State := { s with ls := { s.ls with waitingAck := b } }

/-- `LS.TRANSMITTING <- b`. -/
def setTransmitting (b : Bool) (s : State) : State := { s with ls := { s.ls with transmitting := b } }

/-- `DRE_IE <- b`. -/
def setDreIe (b : Bool) (s : State) : State := { s with dreIe := b }

/-- `op_res` (R50): the 8-bit view of the last result. R50 names the results it carries and is silent on the rest, which
is the model's (DESIGN CHOICE, log entry 7): `0x00` after an operation with no result (`T.INIT`, `T.BEGIN_TRANSMIT`,
`CF.INIT`, `CF.SET_OPCODE`) and before the first one; a count of 256 or more cut to 8 bits; the stamp after
`CF.DECODE_FROM_RECEIVE`; and what the operations off the command port show. -/
def opRes (s : State) : Byte :=
  match s.ret with
  | .none => 0x00
  | .bit b => flagBit b 0x01
  | .byte _ b => b
  | .flags f => f
  | .count n => BitVec.ofNat 8 n
  | .bytes l => l.headD 0x00
  | .status _ => 0x00
  | .stamp _ b => b
  | .received b _ => b
  | .frame _ => 0x00

/-- `op_valid` (R50): 0 when `T.RECEIVE` found `RXQ` empty. After any other operation R50 is silent, and the model shows
the status where the result has one, else 1 (DESIGN CHOICE, log entry 7). -/
def opValid (s : State) : Bool :=
  match s.ret with
  | .byte v _ => v
  | .stamp st _ => st == .ok
  | .status st => st == .ok
  | .none | .bit _ | .flags _ | .count _ | .bytes _ | .received _ _ | .frame _ => true

end Sys2Proof.Machine
end

