-- ==== Sys2Proof/Machine/Transport.lean ====
section
/-! DEFINITION. The transport operations as shared operations (`41_transport.md`). -/

namespace Sys2Proof.Machine

/-- `T.HANDOFF(b)` (R139): the only place a byte leaves the block; a busy peripheral is a fault (R263, R293, U8). -/
def tHandoff (b : Byte) (s : State) : Except Fault State :=
  if isTransmitReady s then .ok (setTransmitting true (transmitByte b s)) else .error .handoffBusy

/-- Pop the oldest byte of `TXQ` and hand it off (R130, R137). -/
def popAndHandoff (s : State) : Except Fault State :=
  tHandoff (rbPop .txq s).byte (rbPop .txq s).state

/-- Whether a kick starts a byte: idle, not paused, something queued (R130). -/
def kickReady (s : State) : Bool :=
  !s.ls.transmitting && !s.ls.selfWaiting && !rbIsEmpty .txq s

/-- `T.KICK()` (R130): at most one byte. -/
def tKick (s : State) : Except Fault State := if kickReady s then popAndHandoff s else .ok s

/-- `T.INIT()` (R131): it leaves the other four flags, the counters and the frame registers. -/
def tInit (s : State) : State := setDreIe false (setTransmitting false (rbInit .txq (rbInit .rxq s)))

/-- `T.TRANSMIT(b) -> c` (R133). -/
def tTransmit (b : Byte) (s : State) : Except Fault (Nat × State) :=
  if rbIsFull .txq s then .ok (0, signal .txqFull s)
  else (tKick (rbPush .txq b s).2).map (fun t => (1, t))

/-- Signal `TXQ_FULL` when fewer bytes were accepted than asked for (R135). -/
def noteShort (k length : Nat) (s : State) : State := if k < length then signal .txqFull s else s

/-- `T.BULK_TRANSMIT(bytes, start, length) -> k` (R135), its range inside the list. -/
def tBulkTransmit (bytes : List Byte) (start length : Nat) (s : State) : Except Fault (Nat × State) :=
  let k := bulkCount length s
  (tKick (pushAll .txq (bulkSlice bytes start k) s)).map (fun t => (k, noteShort k length t))

/-- `T.BEGIN_TRANSMIT()` (R136). -/
def tBeginTransmit (s : State) : Except Fault State := tKick s

/-- `T.DRIVE_TX()` (R137): it does not test `LS.SELF_WAITING`. -/
def tDriveTx (s : State) : Except Fault State :=
  if rbIsEmpty .txq s then .ok (setTransmitting false s) else popAndHandoff s

/-- `T.DRIVE_RX() -> (b, stored)` (R138): the byte is read whether or not it can be stored; reading with nothing
waiting is a fault (R267, U8). -/
def tDriveRx (s : State) : Except Fault ((Byte × Bool) × State) :=
  if isReceiveReady s then
    let p := rbPush .rxq s.periph.rxData (receiveByte s)
    .ok ((s.periph.rxData, p.1), p.2)
  else .error .receiveNothing

end Sys2Proof.Machine
end

