-- ==== Sys2Proof/Machine/Frame.lean ====
section
/-! DEFINITION. The command-frame operations as shared operations (`42_command_frame.md`). -/

namespace Sys2Proof.Machine

/-- `CF.INIT(f)` (R150): the payload slots are not written. -/
def cfInit (f : FrameId) (s : State) : State := setFrame f (FrameReg.empty (frame f s).payload) s

/-- `CF.SET_OPCODE(f, op)` (R151): any byte (R96). -/
def cfSetOpcode (f : FrameId) (op : Byte) (s : State) : State :=
  setFrame f { frame f s with opcode := op } s

/-- A frame register with one more payload byte. -/
def FrameReg.appended (b : Byte) (f : FrameReg) : FrameReg :=
  { f with payload := storeWrite f.payload f.len b, len := f.len + 1 }

/-- `CF.APPEND(f, b) -> r` (R152): the remaining capacity after the append; any byte (R96). -/
def cfAppend (f : FrameId) (b : Byte) (s : State) : Nat × State :=
  if (frame f s).len = s.cfg.L then (0, signal .appendFull s)
  else (s.cfg.L - ((frame f s).len + 1), setFrame f ((frame f s).appended b) s)

/-- Advance `SEQ_OUT` (R35, R191). -/
def bumpSeqOut (s : State) : State := { s with seqOut := inc8 s.seqOut }

/-- `CF.ENCODE_AND_ENQUEUE` of a frame value (R155): not all-or-nothing; `SEQ_OUT` advances only when the whole frame
was accepted. -/
def cfEncodeAndEnqueue (op : Byte) (payload : List Byte) (s : State) : Except Fault (Nat × State) :=
  let bs := cfFrameBytes op payload s
  (tBulkTransmit bs 0 bs.length s).map
    (fun r => if r.1 = bs.length then (r.1, bumpSeqOut r.2) else r)

/-- `CF.ENCODE_AND_FORCE((op, pl), k)` (R156): the bytes are built before `SEQ_OUT` advances. -/
def cfEncodeAndForce (op : Byte) (payload : List Byte) (k : Kont) (s : State) : Except Fault State :=
  peForce op (cfFrameTail payload s) k (bumpSeqOut s)

/-- `CF.RD_OPCODE(f) -> st` (R157): both `NONE` cases leave the register. -/
def cfRdOpcode (f : FrameId) (s : State) : RdStatus × State :=
  if rbIsEmpty .rxq s then (.absent, s)
  else
    let p := rbPop .rxq s
    if p.byte = s.cfg.opEnd then (.absent, p.state) else (.ok, cfSetOpcode f p.byte p.state)

/-- What `CF.RD_SEQ` and `CF.DECODE_FROM_RECEIVE` answer and leave. -/
structure Stamped where
  status : RdStatus
  stamp : Byte
  state : State

/-- `CF.RD_SEQ() -> (st, s)` (R158): the byte is not compared with `OP_END`. -/
def cfRdSeq (s : State) : Stamped :=
  if rbIsEmpty .rxq s then { status := .absent, stamp := 0x00, state := s }
  else { status := .ok, stamp := (rbPop .rxq s).byte, state := (rbPop .rxq s).state }

/-- One payload byte of `CF.RD_PAYLOAD` (R159): kept below the limit, else discarded and signalled. -/
def takePayload (f : FrameId) (lim : Nat) (b : Byte) (s : State) : State :=
  if (frame f s).len < lim then setFrame f ((frame f s).appended b) s else signal .payloadTruncated s

/-- The loop of `CF.RD_PAYLOAD` (R159); the fuel is `RXQ.count`, which each pop lowers by one. -/
def rdPayloadLoop (f : FrameId) (lim : Nat) : Nat → State → State
  | 0, s => s
  | fuel + 1, s =>
    let p := rbPop .rxq s
    if p.byte = s.cfg.opEnd then p.state else rdPayloadLoop f lim fuel (takePayload f lim p.byte p.state)

/-- `CF.RD_PAYLOAD(f, m)` (R159): `m` is clamped to `L`. -/
def cfRdPayload (f : FrameId) (m : Nat) (s : State) : State :=
  rdPayloadLoop f (min m s.cfg.L) s.rxq.count (setFrame f { frame f s with len := 0 } s)

/-- The loop of `CF.DISCARD` (R161); the fuel is `RXQ.count`. -/
def discardLoop : Nat → State → State
  | 0, s => s
  | fuel + 1, s =>
    let p := rbPop .rxq s
    if p.byte = s.cfg.opEnd then p.state else discardLoop fuel p.state

/-- `CF.DISCARD()` (R161). -/
def cfDiscard (s : State) : State := discardLoop s.rxq.count s

/-- `CF.DECODE_FROM_RECEIVE(m) -> (st, s)` (R160): a pure decode into `HCF`, with no protocol action. -/
def cfDecodeFromReceive (m : Nat) (s : State) : Stamped :=
  let r := cfRdOpcode .hcf (cfInit .hcf s)
  match r.1 with
  | .absent => { status := .absent, stamp := 0x00, state := r.2 }
  | .ok =>
    if s.cfg.numbering then
      let q := cfRdSeq r.2
      match q.status with
      | .absent => { status := .absent, stamp := 0x00, state := q.state }
      | .ok => { status := .ok, stamp := q.stamp, state := cfRdPayload .hcf m q.state }
    else { status := .ok, stamp := 0x00, state := cfRdPayload .hcf m r.2 }

end Sys2Proof.Machine
end

