-- ==== Sys2Proof/Machine/EngineRx.lean ====
section
/-! DEFINITION. The receive side of the protocol engine (`43_engine_rx.md`): frame reception, the sequence check, the
dispatch and its handlers, completion, and the overflow path. -/

namespace Sys2Proof.Machine

/-- `SEND_RESYNC()` (R177): the payload is built before `SEQ_OUT` advances; the count accepted is not looked at. -/
def sendResync (s : State) : Except Fault State :=
  (cfEncodeAndEnqueue s.cfg.opResync (counterPair s) s).map Prod.snd

/-- The `WAIT` handler (R179). -/
def handleWait (s : State) : Except Fault (FrameResult × State) :=
  let s1 := if s.ls.selfWaiting then s else setRequestSelfWait true s
  (cfEncodeAndEnqueue s1.cfg.opAck [] s1).map (fun r => (.completed, cfDiscard r.2))

/-- The `RESUME` handler (R180): the flags are cleared before the kick. -/
def handleResume (s : State) : Except Fault (FrameResult × State) :=
  (tBeginTransmit (setRequestSelfWait false (setSelfWaiting false s))).map
    (fun t => (.completed, cfDiscard t))

/-- The `ACK` handler when an acknowledgement is awaited (R181). -/
def handleAck (s : State) : FrameResult × State := (.completed, cfDiscard (setWaitingAck false s))

/-- Adopt the peer's counters from the first two payload bytes of `ECF`, crossed (R182). -/
def adoptCounters (s : State) : State :=
  { s with
    seqIn := storeByte .ecf s.ecf.payload 0
    seqOut := storeByte .ecf s.ecf.payload 1 }

/-- The `RESYNC` handler (R182). -/
def handleResync (s : State) : FrameResult × State :=
  let s1 := cfRdPayload .ecf s.cfg.L s
  if s1.ecf.len < 2 then (.discarded, signal .resyncMalformed s1) else (.completed, adoptCounters s1)

/-- `emit HANDLER(ECF)` (R184). -/
def emitHandler (s : State) : State := { s with handlerOut := s.handlerOut ++ [frameValue .ecf s] }

/-- The application handler (R183): `ECF.opcode` was written by `CF.RD_OPCODE`. -/
def handleApp (s : State) : FrameResult × State := (.completed, emitHandler (cfRdPayload .ecf s.cfg.L s))

/-- The row of an unsolicited `ACK` (R178): named, then treated as an application frame. -/
def handleUnsolicited (s : State) : FrameResult × State := handleApp (signal .unsolicitedAck s)

/-- The dispatch (R178): the decoded opcode selects the handler. `OP_END` does not reach it (R175); an empty frame is
discarded (R91). -/
def dispatch (op : Byte) (s : State) : Except Fault (FrameResult × State) :=
  match classify s.cfg s.ls.waitingAck op with
  | .wait => handleWait s
  | .resume => handleResume s
  | .ack => .ok (handleAck s)
  | .ackUnsolicited => .ok (handleUnsolicited s)
  | .resync => .ok (handleResync s)
  | .escapeChar => .ok (handleApp s)
  | .app _ => .ok (handleApp s)
  | .endMark => .ok (.discarded, s)

/-- Advance `SEQ_IN` (R185, R191). -/
def bumpSeqIn (s : State) : State := { s with seqIn := inc8 s.seqIn }

/-- `SEND_RESUME()` (R186). -/
def sendResume (s : State) : Except Fault State := cfEncodeAndForce s.cfg.opResume (counterPair s) .resumed s

/-- `COMPLETE()` (R185). -/
def complete (s : State) : Except Fault State :=
  let s1 := bumpSeqIn s
  if s1.ls.partnerWaiting then sendResume s1 else .ok s1

/-- The end of frame reception: only a completed frame completes (R174, R185). -/
def settleFrame (r : FrameResult × State) : Except Fault State :=
  match r.1 with
  | .completed => complete r.2
  | .discarded => .ok r.2

/-- Dispatch and settle, the last two lines of `PE.FRAME` (R174). -/
def runFrame (op : Byte) (s : State) : Except Fault State := (dispatch op s).bind settleFrame

/-- The reply to a wrong stamp (R176): name it, queue `RESYNC`, drop the rest of the frame. -/
def rejectFrame (stamp : Byte) (s : State) : Except Fault State :=
  (sendResync (signal (.seqMismatch stamp s.seqIn) s)).map cfDiscard

/-- Whether a stamp is refused (R176): a `RESYNC` is exempt. -/
def stampRefused (stamp op : Byte) (s : State) : Bool := stamp != s.seqIn && op != s.cfg.opResync

/-- `PE.FRAME()` (R174 to R176, R178, R185): one received frame from `RXQ`. -/
def peFrame (s : State) : Except Fault State :=
  let r := cfRdOpcode .ecf s
  match r.1 with
  | .absent => .ok r.2
  | .ok =>
    let op := r.2.ecf.opcode
    if s.cfg.numbering then
      let q := cfRdSeq r.2
      match q.status with
      | .absent => .ok q.state
      | .ok => if stampRefused q.stamp op q.state then rejectFrame q.stamp q.state else runFrame op q.state
    else runFrame op r.2

/-- `RXC_STORED(b)` (R171): the test is on the value alone. -/
def rxcStored (b : Byte) (s : State) : Except Fault State := if b = s.cfg.opEnd then peFrame s else .ok s

/-- `RXC_OVERFLOW(b)` (R172): every overflowing byte forces a `WAIT`. -/
def rxcOverflow (b : Byte) (s : State) : Except Fault State :=
  let s1 := setWaitingAck true (setPartnerWaiting true (signal (.rxqOverflow b) s))
  cfEncodeAndForce s1.cfg.opWait [] (.ovf b) s1

/-- The body of `PE.RXC` (R170): exactly one byte. -/
def rxcHandler (s : State) : Except Fault State :=
  (tDriveRx s).bind (fun r => if r.1.2 then rxcStored r.1.1 r.2 else rxcOverflow r.1.1 r.2)

/-- Continuation `K_OVF(b)` (R173). -/
def kontOvf (b : Byte) (s : State) : Except Fault State :=
  if b = s.cfg.opEnd then peFrame s
  else if s.cfg.ovfNontermAdvancesSeq then .ok (bumpSeqIn s)
  else .ok s

/-- Continuation `K_RESUMED` (R187): the kick, then the clear. -/
def kontResumed (s : State) : Except Fault State := (tBeginTransmit s).map (setPartnerWaiting false)

end Sys2Proof.Machine
end

