-- ==== Sys2Proof/Machine/EngineTx.lean ====
section
/-! DEFINITION. The transmit side of the protocol engine (`44_engine_tx.md`): the two transmit handlers and the forced
path with its continuations. -/

namespace Sys2Proof.Machine

/-- Whether the next byte the pump will pull is a terminator (R210): the test is on the value alone. -/
def headIsEnd (s : State) : Bool := (rbPeekHead .txq s).1 && (rbPeekHead .txq s).2 == s.cfg.opEnd

/-- The body of `PE.TXC` after its request was cleared (R210). -/
def txcHandler (s : State) : State :=
  if s.ls.requestSelfWait then
    setDreIe true (if headIsEnd s then setSelfWaiting true (setRequestSelfWait false s) else s)
  else if s.ls.selfWaiting then
    (if isTransmitReady s then setTransmitting false s else s)
  else setDreIe true s

/-- The body of `PE.DRE` (R211). -/
def dreHandler (s : State) : Except Fault State := (tDriveTx s).map (setDreIe false)

/-- Resume the suspended handler where its label says (R215). -/
def runKont (k : Kont) (s : State) : Except Fault State :=
  match k with
  | .ovf b => kontOvf b s
  | .resumed => kontResumed s

/-- After a forced byte was handed off (R214): more bytes, or the continuation in the same transaction. -/
def spinAdvance (rest : List Byte) (k : Kont) (s : State) : Except Fault State :=
  match rest with
  | [] => runKont k { s with ctx := .idle }
  | b :: rest' => .ok { s with ctx := .forcing b rest' k }

/-- `SPIN` (R214): enabled while a handler is suspended; a busy peripheral leaves everything as it is. -/
def spinStep (s : State) : Except Fault State :=
  match s.ctx with
  | .idle => .ok s
  | .forcing b rest k =>
    if isTransmitReady s then (tHandoff b s).bind (spinAdvance rest k) else .ok s

end Sys2Proof.Machine
end

