-- ==== Sys2Proof/Machine/Events.lean ====
section
/-! DEFINITION. The meanings of the event handlers, of the spin, and of the two steps of the peripheral (R170, R210,
R211, R214, R264, R266). A step that is not enabled changes nothing (log entry 10). -/

namespace Sys2Proof.Machine

/-- `PE.RXC` (R170), entered under R247. -/
def execPeRxc (s : State) : Host.Outcome State Fault Refusal := finish (serveIrq .rxc rxcHandler s)

/-- `PE.TXC` (R210), entered under R248. -/
def execPeTxc (s : State) : Host.Outcome State Fault Refusal :=
  finish (serveIrq .txc (fun t => .ok (txcHandler t)) s)

/-- `PE.DRE` (R211), entered under R249. -/
def execPeDre (s : State) : Host.Outcome State Fault Refusal := finish (serveIrq .dre dreHandler s)

/-- `SPIN` (R214). -/
def execSpin (s : State) : Host.Outcome State Fault Refusal := finish (spinStep s)

/-- `PERIPH: TX_DONE` (R264): enabled when a byte is in flight. -/
def execPeriphTxDone (s : State) : Host.Outcome State Fault Refusal :=
  if s.periph.txBusy then .next (periphFinish s) else .next s

/-- `PERIPH: DELIVER(b)` (R266): enabled when nothing waits and the inbound stream begins with `b`. -/
def execPeriphDeliver (b : Byte) (s : State) : Host.Outcome State Fault Refusal :=
  if !s.periph.rxFull && s.linkIn.head? == some b then .next (periphReceive b s) else .next s

end Sys2Proof.Machine
end

