-- ==== Sys2Proof/Machine/HostTransport.lean ====
section
/-! DEFINITION. The meanings of the transport's host operations (R131 to R136) and of an unassigned select (R100). -/

namespace Sys2Proof.Machine

/-- Note a count that was returned. -/
def noteCount (r : Nat × State) : State := setRet (.count r.1) r.2

/-- `T.INIT()` (R131). -/
def execTInit (s : State) : Host.Outcome State Fault Refusal :=
  hostOp (fun t => .ok (setRet .none (tInit t))) s

/-- `T.STATUS()` (R132): it changes no state. -/
def execTStatus (s : State) : Host.Outcome State Fault Refusal :=
  hostOp (fun t => .ok (setRet (.flags (statusByte t)) t)) s

/-- `T.TRANSMIT(b)` (R133). -/
def execTTransmit (b : Byte) (s : State) : Host.Outcome State Fault Refusal :=
  hostOp (fun t => (tTransmit b t).map noteCount) s

/-- `T.RECEIVE()` (R134): as `RB.POP(RXQ)`. -/
def execTReceive (s : State) : Host.Outcome State Fault Refusal :=
  hostOp (fun t => .ok (setRet (.byte (rbPop .rxq t).valid (rbPop .rxq t).byte) (rbPop .rxq t).state)) s

/-- `T.BULK_TRANSMIT(bytes, start, length)` (R135): a range outside the list is refused. -/
def execTBulkTransmit (bytes : List Byte) (start length : Nat) (s : State) : Host.Outcome State Fault Refusal :=
  if bulkInRange bytes start length then hostOp (fun t => (tBulkTransmit bytes start length t).map noteCount) s
  else hostRefuse s

/-- `T.BEGIN_TRANSMIT()` (R136). -/
def execTBeginTransmit (s : State) : Host.Outcome State Fault Refusal :=
  hostOp (fun t => (tBeginTransmit t).map (setRet .none)) s

/-- A request with an unassigned `op_sel` (R100, U12): refused, no acknowledge, no state change. -/
def execHostUnassigned (_sel : BitVec 5) (s : State) : Host.Outcome State Fault Refusal := hostRefuse s

end Sys2Proof.Machine
end

