-- ==== Sys2Proof/Machine/HostFrame.lean ====
section
/-! DEFINITION. The meanings of the command-frame host operations (R150 to R152, R155, R160), on `HCF`. -/

namespace Sys2Proof.Machine

/-- `CF.INIT()` (R150). -/
def execCfInit (s : State) : Host.Outcome State Fault Refusal :=
  hostOp (fun t => .ok (setRet .none (cfInit .hcf t))) s

/-- `CF.SET_OPCODE(op)` (R151). -/
def execCfSetOpcode (op : Byte) (s : State) : Host.Outcome State Fault Refusal :=
  hostOp (fun t => .ok (setRet .none (cfSetOpcode .hcf op t))) s

/-- `CF.APPEND(b)` (R152). -/
def execCfAppend (b : Byte) (s : State) : Host.Outcome State Fault Refusal :=
  hostOp (fun t => .ok (noteCount (cfAppend .hcf b t))) s

/-- `CF.ENCODE_AND_ENQUEUE()` (R155): the register is not changed. -/
def execCfEncodeAndEnqueue (s : State) : Host.Outcome State Fault Refusal :=
  hostOp (fun t => (cfEncodeAndEnqueue t.hcf.opcode (framePayload .hcf t) t).map noteCount) s

/-- `CF.DECODE_FROM_RECEIVE(m)` (R160). -/
def execCfDecodeFromReceive (m : Byte) (s : State) : Host.Outcome State Fault Refusal :=
  hostOp
    (fun t =>
      let r := cfDecodeFromReceive m.toNat t
      .ok (setRet (.stamp r.status r.stamp) r.state))
    s

end Sys2Proof.Machine
end

