-- ==== Sys2Proof/Machine/Internal.lean ====
section
/-! DEFINITION. The meanings of the transport, frame and engine operations that other rules invoke (R101), each as an
operation of its own; what it returns is noted in `ret` (log entry 20). -/

namespace Sys2Proof.Machine

/-- `T.KICK()` (R130). -/
def execTKick (s : State) : Host.Outcome State Fault Refusal := finish ((tKick s).map (setRet .none))

/-- `T.HANDOFF(b)` (R139). -/
def execTHandoff (b : Byte) (s : State) : Host.Outcome State Fault Refusal := finish ((tHandoff b s).map (setRet .none))

/-- `T.DRIVE_TX()` (R137). -/
def execTDriveTx (s : State) : Host.Outcome State Fault Refusal := finish ((tDriveTx s).map (setRet .none))

/-- `T.DRIVE_RX() -> (b, stored)` (R138). -/
def execTDriveRx (s : State) : Host.Outcome State Fault Refusal :=
  finish ((tDriveRx s).map (fun r => setRet (.received r.1.1 r.1.2) r.2))

/-- `CF.FRAME_BYTES(op, pl) -> bs` (R154): it reads `SEQ_OUT` and changes nothing. -/
def execCfFrameBytes (op : Byte) (payload : List Byte) (s : State) : Host.Outcome State Fault Refusal :=
  .next (setRet (.bytes (cfFrameBytes op payload s)) s)

/-- `CF.ENCODE_AND_FORCE((op, pl), k)` (R156). -/
def execCfEncodeAndForce (op : Byte) (payload : List Byte) (k : Kont) (s : State) :
    Host.Outcome State Fault Refusal :=
  finish ((cfEncodeAndForce op payload k s).map (setRet .none))

/-- `CF.RD_OPCODE(f) -> st` (R157). -/
def execCfRdOpcode (f : FrameId) (s : State) : Host.Outcome State Fault Refusal :=
  .next (setRet (.status (cfRdOpcode f s).1) (cfRdOpcode f s).2)

/-- `CF.RD_SEQ() -> (st, s)` (R158). -/
def execCfRdSeq (s : State) : Host.Outcome State Fault Refusal :=
  .next (setRet (.stamp (cfRdSeq s).status (cfRdSeq s).stamp) (cfRdSeq s).state)

/-- `CF.RD_PAYLOAD(f, m)` (R159). -/
def execCfRdPayload (f : FrameId) (m : Nat) (s : State) : Host.Outcome State Fault Refusal :=
  .next (setRet .none (cfRdPayload f m s))

/-- `CF.DISCARD()` (R161). -/
def execCfDiscard (s : State) : Host.Outcome State Fault Refusal := .next (setRet .none (cfDiscard s))

/-- `PE.FRAME()` (R174). -/
def execPeFrame (s : State) : Host.Outcome State Fault Refusal := finish ((peFrame s).map (setRet .none))

/-- `PE.FORCE(bs, k)` (R213). -/
def execPeForce (first : Byte) (rest : List Byte) (k : Kont) (s : State) : Host.Outcome State Fault Refusal :=
  finish ((peForce first rest k s).map (setRet .none))

end Sys2Proof.Machine
end

