-- ==== Sys2Proof/Machine/RingOps.lean ====
section
/-! DEFINITION. The meanings of the ring-buffer operations as operations of their own (R110 to R116). They are invoked
by other rules only (R101), so they are not gated by `ctx` (log entry 20). -/

namespace Sys2Proof.Machine

/-- `RB.INIT(q)` (R110). -/
def execRbInit (q : QueueId) (s : State) : Host.Outcome State Fault Refusal := .next (setRet .none (rbInit q s))

/-- `RB.PUSH(q, b) -> ok` (R111). -/
def execRbPush (q : QueueId) (b : Byte) (s : State) : Host.Outcome State Fault Refusal :=
  .next (setRet (.bit (rbPush q b s).1) (rbPush q b s).2)

/-- `RB.POP(q) -> (valid, b)` (R112). -/
def execRbPop (q : QueueId) (s : State) : Host.Outcome State Fault Refusal :=
  .next (setRet (.byte (rbPop q s).valid (rbPop q s).byte) (rbPop q s).state)

/-- `RB.IS_EMPTY(q) -> e` (R113). -/
def execRbIsEmpty (q : QueueId) (s : State) : Host.Outcome State Fault Refusal :=
  .next (setRet (.bit (rbIsEmpty q s)) s)

/-- `RB.IS_FULL(q) -> u` (R114). -/
def execRbIsFull (q : QueueId) (s : State) : Host.Outcome State Fault Refusal :=
  .next (setRet (.bit (rbIsFull q s)) s)

/-- `RB.PEEK_HEAD(q) -> (valid, b)` (R115). -/
def execRbPeekHead (q : QueueId) (s : State) : Host.Outcome State Fault Refusal :=
  .next (setRet (.byte (rbPeekHead q s).1 (rbPeekHead q s).2) s)

/-- `RB.PEEK_TAIL(q) -> (valid, b)` (R116). -/
def execRbPeekTail (q : QueueId) (s : State) : Host.Outcome State Fault Refusal :=
  .next (setRet (.byte (rbPeekTail q s).1 (rbPeekTail q s).2) s)

end Sys2Proof.Machine
end

