-- ==== Sys2Proof/Machine/WireFrames.lean ====
section
/-! DEFINITION. The meanings of the wire-frame rows (R85): what the receiver does once `PE.FRAME` has read the opcode
byte and accepted the stamp (R174 to R176). The remaining bytes of the frame are in `RXQ`; the completion of R185
follows in `PE.FRAME` (log entry 19). -/

namespace Sys2Proof.Machine

/-- Note what a dispatch row returned. -/
def noteFrame (r : FrameResult × State) : State := setRet (.frame r.1) r.2

/-- `WAIT` (R179). -/
def execWait (s : State) : Host.Outcome State Fault Refusal := finish ((handleWait s).map noteFrame)

/-- `RESUME` (R180). -/
def execResume (s : State) : Host.Outcome State Fault Refusal := finish ((handleResume s).map noteFrame)

/-- `ACK` with `LS.WAITING_ACK == 1` (R181). -/
def execAck (s : State) : Host.Outcome State Fault Refusal := .next (noteFrame (handleAck s))

/-- `ACK` with `LS.WAITING_ACK == 0` (R178, R183): forwarded with its opcode unchanged. That the row itself writes
`ECF.opcode`, which `CF.RD_OPCODE` wrote before it in `PE.FRAME`, is the model's choice (log entry 19). -/
def execAckUnsolicited (s : State) : Host.Outcome State Fault Refusal :=
  .next (noteFrame (handleUnsolicited (cfSetOpcode .ecf s.cfg.opAck s)))

/-- `RESYNC` (R182). -/
def execResync (s : State) : Host.Outcome State Fault Refusal := .next (noteFrame (handleResync s))

/-- `ESCAPE_CHAR` (R90, R183): forwarded like any application frame. That the row itself writes `ECF.opcode` is the
model's choice (log entry 19). -/
def execEscapeChar (s : State) : Host.Outcome State Fault Refusal :=
  .next (noteFrame (handleApp (cfSetOpcode .ecf s.cfg.opEscape s)))

/-- `END` as byte 0 (R91, R175): the empty frame is discarded, its terminator being consumed by the read of the
opcode. -/
def execEndMark (s : State) : Host.Outcome State Fault Refusal := .next (setRet (.frame .discarded) s)

/-- An application opcode (R92, R183): the opcode byte is `op`. That the row itself writes `ECF.opcode` is the model's choice
(log entry 19). -/
def execApp (op : Byte) (s : State) : Host.Outcome State Fault Refusal :=
  .next (noteFrame (handleApp (cfSetOpcode .ecf op s)))

end Sys2Proof.Machine
end

