-- ==== Sys2Proof/Machine/Dispatch.lean ====
section
/-! DEFINITION. The dispatch: one arm per constructor of `Instr`, in the order of `opcode_table.json`. -/

namespace Sys2Proof.Machine

/-- The meaning of an operation. -/
def exec (i : Instr) (s : State) : Host.Outcome State Fault Refusal :=
  match i with
  | .wait => Sys2Proof.Machine.execWait s
  | .resume => Sys2Proof.Machine.execResume s
  | .ack => Sys2Proof.Machine.execAck s
  | .ackUnsolicited => Sys2Proof.Machine.execAckUnsolicited s
  | .resync => Sys2Proof.Machine.execResync s
  | .escapeChar => Sys2Proof.Machine.execEscapeChar s
  | .endMark => Sys2Proof.Machine.execEndMark s
  | .app op => Sys2Proof.Machine.execApp op s
  | .tInit => Sys2Proof.Machine.execTInit s
  | .tStatus => Sys2Proof.Machine.execTStatus s
  | .tTransmit b => Sys2Proof.Machine.execTTransmit b s
  | .tReceive => Sys2Proof.Machine.execTReceive s
  | .tBulkTransmit bytes start length => Sys2Proof.Machine.execTBulkTransmit bytes start length s
  | .tBeginTransmit => Sys2Proof.Machine.execTBeginTransmit s
  | .cfInit => Sys2Proof.Machine.execCfInit s
  | .cfSetOpcode op => Sys2Proof.Machine.execCfSetOpcode op s
  | .cfAppend b => Sys2Proof.Machine.execCfAppend b s
  | .cfEncodeAndEnqueue => Sys2Proof.Machine.execCfEncodeAndEnqueue s
  | .cfDecodeFromReceive m => Sys2Proof.Machine.execCfDecodeFromReceive m s
  | .hostUnassigned sel => Sys2Proof.Machine.execHostUnassigned sel s
  | .rbInit q => Sys2Proof.Machine.execRbInit q s
  | .rbPush q b => Sys2Proof.Machine.execRbPush q b s
  | .rbPop q => Sys2Proof.Machine.execRbPop q s
  | .rbIsEmpty q => Sys2Proof.Machine.execRbIsEmpty q s
  | .rbIsFull q => Sys2Proof.Machine.execRbIsFull q s
  | .rbPeekHead q => Sys2Proof.Machine.execRbPeekHead q s
  | .rbPeekTail q => Sys2Proof.Machine.execRbPeekTail q s
  | .tKick => Sys2Proof.Machine.execTKick s
  | .tHandoff b => Sys2Proof.Machine.execTHandoff b s
  | .tDriveTx => Sys2Proof.Machine.execTDriveTx s
  | .tDriveRx => Sys2Proof.Machine.execTDriveRx s
  | .cfFrameBytes op pl => Sys2Proof.Machine.execCfFrameBytes op pl s
  | .cfEncodeAndForce op pl k => Sys2Proof.Machine.execCfEncodeAndForce op pl k s
  | .cfRdOpcode f => Sys2Proof.Machine.execCfRdOpcode f s
  | .cfRdSeq => Sys2Proof.Machine.execCfRdSeq s
  | .cfRdPayload f m => Sys2Proof.Machine.execCfRdPayload f m s
  | .cfDiscard => Sys2Proof.Machine.execCfDiscard s
  | .peFrame => Sys2Proof.Machine.execPeFrame s
  | .peForce b bs k => Sys2Proof.Machine.execPeForce b bs k s
  | .peRxc => Sys2Proof.Machine.execPeRxc s
  | .peTxc => Sys2Proof.Machine.execPeTxc s
  | .peDre => Sys2Proof.Machine.execPeDre s
  | .spin => Sys2Proof.Machine.execSpin s
  | .periphTxDone => Sys2Proof.Machine.execPeriphTxDone s
  | .periphDeliver b => Sys2Proof.Machine.execPeriphDeliver b s

end Sys2Proof.Machine
end

