-- ==== Sys2Proof/Machine/Fetch.lean ====
section
/-! DEFINITION. Where the next operation comes from: the scheduled agent, the request on the command port, the byte at
the front of the inbound stream; and how the host places a table word there. -/

namespace Sys2Proof.Machine

/-- HOST's turn: the request on the command port is decoded and run. It leaves the port unless the block holds it
(R259, log entries 3, 5, 6). -/
def serveHost (s : State) : Host.Outcome State Fault Refusal :=
  match s.hostQ with
  | [] => .next s
  | r :: rest => exec (decode s.cfg s.ls.waitingAck (.request r)) (if s.ctx = .idle then { s with hostQ := rest } else s)

/-- PERIPH's turn to deliver: the first byte of the inbound stream, if there is one (R266, R270). -/
def serveDeliver (s : State) : Host.Outcome State Fault Refusal :=
  match s.linkIn with
  | [] => .next s
  | b :: _ => exec (.periphDeliver b) s

/-- One step of an agent (R9). -/
def runAgent (a : Agent) (s : State) : Host.Outcome State Fault Refusal :=
  match a with
  | .host => serveHost s
  | .rxc => exec .peRxc s
  | .txc => exec .peTxc s
  | .dre => exec .peDre s
  | .spin => exec .spin s
  | .txDone => exec .periphTxDone s
  | .deliver => serveDeliver s
  | .peer b => .next (peerSend b s)
  | .reset => .next (resetEvent s)

/-- The next transaction (R68): the first scheduled agent takes its step; with no agent scheduled the block waits for
its environment (R273). -/
def nextTransaction (s : State) : Host.Outcome State Fault Refusal :=
  match s.sched with
  | [] => .next s
  | a :: rest => runAgent a { s with sched := rest }

/-- A queue that holds exactly the given bytes, pushed after `RB.INIT` (R110, R111). -/
def loadQueue (q : QueueId) (l : List Byte) (s : State) : State := pushAll q l (rbInit q s)

/-- The bytes of a frame in front of its terminator when only its opcode byte is given: the stamp that the check
accepts, then zeros, as many as the payload and the queue hold. A lone terminator has none. -/
def framePrefix (op : Byte) (s : State) : List Byte :=
  if op = s.cfg.opEnd then []
  else (op :: (if s.cfg.numbering then [s.seqIn] else []) ++ List.replicate s.cfg.L 0x00).take (s.cfg.N - 1)

/-- A request on the command port, and HOST's turn. -/
def placeRequest (r : HostReq) (s : State) : State :=
  { s with ctx := .idle, hostQ := r :: s.hostQ, sched := .host :: s.sched }

/-- A frame in `RXQ` but for its terminator, the terminator waiting in the peripheral, and the turn of `PE.RXC`. -/
def placeFrame (op : Byte) (s : State) : State :=
  { loadQueue .rxq (framePrefix op s) s with
    ctx := .idle
    periph := { s.periph with rxFull := true, rxData := s.cfg.opEnd }
    sched := .rxc :: s.sched }

/-- Place a table word where the next step finds it (log entries 16, 17). -/
def placeWord (w : Nat) (s : State) : State :=
  if w < 0x20 then placeRequest (.plain (BitVec.ofNat 5 w)) s else placeFrame (BitVec.ofNat 8 w) s

end Sys2Proof.Machine
end

