-- ==== Sys2Proof/Machine/Step.lean ====
section
/-! DEFINITION. One step of the machine, and the host's placing of an instruction. -/

namespace Sys2Proof.Machine

/-- One step: the next transaction (R11, R68). -/
def step (s : State) : Host.Outcome State Fault Refusal := nextTransaction s

/-- The state with a table word placed where `step` fetches its next operation (log entry 17). The table's words are at
most one byte long; nothing depends on how many of its bits the table numbers. -/
def State.withFetchWord (s : State) (_nbits w : Nat) : State := placeWord w s

end Sys2Proof.Machine
end

