-- ==== Sys2Proof/Machine/TwoNode.lean ====
section
/-! DEFINITION. The two-node system (R271): two instances, each the other's peer, with no shared state but the bytes of
the link. -/

namespace Sys2Proof.Machine

/-- The two instances (R271). -/
structure Pair where
  a : State
  b : State
deriving DecidableEq, Repr

/-- One of the two instances. -/
inductive Side where
  | a | b
deriving DecidableEq, Repr

/-- What can happen in the system: a step of one node (its peripheral included), or the link carries the first byte of
a node's outbound stream to the end of the other node's inbound stream (R74, R270). -/
inductive PairMove where
  | node (side : Side)
  | carry (sender : Side)
deriving DecidableEq, Repr

/-- A node's outbound stream after the link has taken its first byte. -/
def linkTaken (s : State) : State := { s with linkOut := s.linkOut.drop 1 }

/-- The receiver of a byte that the link takes from a sender, if there is one. -/
def linkGiven (sender receiver : State) : State :=
  match sender.linkOut with
  | [] => receiver
  | x :: _ => peerSend x receiver

/-- The bytes of one of the link's two streams that are on their way (R271): what the receiver's half of it holds, then
what the sender's half holds. -/
def streamBytes (sender receiver : State) : List Byte := receiver.linkIn ++ sender.linkOut

/-- The node of a side. -/
def Pair.node (side : Side) (p : Pair) : State :=
  match side with
  | .a => p.a
  | .b => p.b

/-- The node of a side after a step, put back into the pair. -/
def Pair.withNode (side : Side) (p : Pair) (t : State) : Pair :=
  match side with
  | .a => { p with a := t }
  | .b => { p with b := t }

/-- A step of one node of a pair. The peer of R270 is here the other node, so no byte comes from PEER: a turn of PEER in
a node's schedule passes (R271; DESIGN CHOICE, log entry 24). -/
def nodeStep (s : State) : Host.Outcome State Fault Refusal :=
  match s.sched with
  | .peer _ :: rest => .next { s with sched := rest }
  | _ => step s

/-- One move of the system (R271): the steps of the two nodes interleave in any order. The reset of one node empties its
own halves of the two streams and leaves the other node's halves as they are (DESIGN CHOICE, log entry 32). -/
def pairStep (m : PairMove) (p : Pair) : Host.Outcome Pair Fault Refusal :=
  match m with
  | .node side =>
    match nodeStep (p.node side) with
    | .next t => .next (p.withNode side t)
    | .fault e => .fault e
    | .refused r => .refused r
  | .carry .a => .next { a := linkTaken p.a, b := linkGiven p.a p.b }
  | .carry .b => .next { a := linkGiven p.b p.a, b := linkTaken p.b }

/-- What a move can do to the bytes on their way from one node to the other (R264, R266, R271): nothing; the sender's
finished byte joins them; or the first of them is delivered to the receiver. -/
def StreamMoved (sender receiver sender' receiver' : State) : Prop :=
  streamBytes sender' receiver' = streamBytes sender receiver ∨
    (sender.periph.txBusy = true ∧ sender'.periph.txBusy = false
      ∧ streamBytes sender' receiver' = streamBytes sender receiver ++ [sender.periph.txData]) ∨
    (receiver.periph.rxFull = false ∧ receiver'.periph.rxFull = true
      ∧ streamBytes sender receiver = receiver'.periph.rxData :: streamBytes sender' receiver')

end Sys2Proof.Machine
end

