-- ==== Sys2Proof/Safety.lean ====
section
/-! DEFINITION. What a good state is (the invariants R21, R22, R34, R36, R44, R140), what a good run is, and the terms
in which claims about whole runs are stated. -/

namespace Sys2Proof.Machine

/-- A ring buffer of capacity `n` is in order (R20, R21): a canonical store within its slots, pointers in range, the
congruence of R21, and every live slot written (R24). -/
abbrev RingOk (n : Nat) (r : Ring) : Prop :=
  Store.wf r.store ∧ (∀ c ∈ r.store, c.1 < n) ∧ r.head < n ∧ r.tail < n ∧ r.count ≤ n
    ∧ (r.tail + n - r.head) % n = r.count % n
    ∧ ∀ i, i < r.count → (storeRead r.store ((r.head + i) % n)).isSome

/-- A frame register with `l` payload slots is in order (R36): every payload byte of the frame was written. -/
abbrev FrameOk (l : Nat) (f : FrameReg) : Prop :=
  Store.wf f.payload ∧ (∀ c ∈ f.payload, c.1 < l) ∧ f.len ≤ l
    ∧ ∀ i, i < f.len → (storeRead f.payload i).isSome

/-- `|buf|` never exceeds `FLEN(2)`, the longest control frame (R44). -/
def ctxLength : Ctx → Nat
  | .idle => 0
  | .forcing _ rest _ => 1 + rest.length

/-- The invariant of the block at every transaction boundary. -/
structure Inv (s : State) : Prop where
  /-- Legal parameters (R12, R13, R15). -/
  cfg : s.cfg.wf
  /-- `RXQ` is in order (R21). -/
  rxq : RingOk s.cfg.N s.rxq
  /-- `TXQ` is in order (R21). -/
  txq : RingOk s.cfg.N s.txq
  /-- `HCF` is in order (R36). -/
  hcf : FrameOk s.cfg.L s.hcf
  /-- `ECF` is in order (R36). -/
  ecf : FrameOk s.cfg.L s.ecf
  /-- `REQUEST_SELF_WAIT` and `SELF_WAITING` are never both 1 (R34). -/
  exclusive : (s.ls.requestSelfWait && s.ls.selfWaiting) = false
  /-- The list being forced is no longer than a control frame (R44). -/
  short : ctxLength s.ctx ≤ s.cfg.flen 2
  /-- A handler is suspended only between the overflow and the forced `RESUME`, so the peer is held (R30, R187). -/
  held : s.ctx ≠ .idle → s.ls.partnerWaiting = true

/-- R140: `LS.TRANSMITTING == 0` implies `P.tx_busy == 0`. `T.INIT` with a byte in flight breaks it (R293). -/
def IdleReady (s : State) : Prop := s.ls.transmitting = false → s.periph.txBusy = false

/-- The misuse of R293 and U16: the next transaction is `T.INIT` while a byte is in flight. -/
def InitInFlight (s : State) : Prop :=
  s.periph.txBusy = true ∧ s.ctx = .idle ∧ s.sched.head? = some .host
    ∧ ∃ r, s.hostQ.head? = some r ∧ decodeRequest r = .tInit

/-- `FORCE_LOCKUP` (R217, R240): a run in which the handler stays suspended for ever because the peripheral, from some
step on, never becomes ready again: no `TX_DONE` finishes the byte in flight. A suspended handler that is only given no
turn, with the peripheral ready, is none. -/
def ForceLockup (run : Nat → State) : Prop :=
  (∀ n, step (run n) = .next (run (n + 1))) ∧ (∀ n, (run n).ctx ≠ .idle)
    ∧ ∃ m, ∀ n, m ≤ n → isTransmitReady (run n) = false

/-! ### The terms in which effects are stated -/

/-- What a kick does when the bytes `c` stand in `TXQ` (R130), in terms of the contents: idle, not paused and `c` not
empty, its first byte goes out; otherwise nothing moves. -/
def KickedWith (c : List Byte) (s t : State) : Prop :=
  if !s.ls.transmitting && !s.ls.selfWaiting && !c.isEmpty then
    cont .txq t = c.tail ∧ t.wireOut = s.wireOut ++ c.take 1 ∧ t.ls = { s.ls with transmitting := true }
      ∧ t.periph = { s.periph with txBusy := true, txData := c.headD 0x00 }
  else cont .txq t = c ∧ t.wireOut = s.wireOut ∧ t.ls = s.ls ∧ t.periph = s.periph

/-- Every slot of a queue but the `k` slots from its tail on reads as before (R60, R111). -/
def SlotsKept (q : QueueId) (k : Nat) (s t : State) : Prop :=
  ∀ i, (∀ j, j < k → i ≠ ((ring q s).tail + j) % s.cfg.N) →
    storeRead (ring q t).store i = storeRead (ring q s).store i

/-- The payload that `CF.RD_PAYLOAD(f, m)` collects from `RXQ` (R83, R159). -/
def payloadIn (m : Nat) (s : State) : List Byte := (beforeEnd s.cfg (cont .rxq s)).take (min m s.cfg.L)

/-- How many bytes it discards. -/
def excessIn (m : Nat) (s : State) : Nat := (beforeEnd s.cfg (cont .rxq s)).length - min m s.cfg.L

/-- `RXQ` was read up to and including its first terminator, or to the end (R159, R161); no slot was written. -/
def FrameConsumed (s t : State) : Prop :=
  cont .rxq t = afterEnd s.cfg (cont .rxq s) ∧ t.rxq.store = s.rxq.store

/-- A frame register took its payload from `RXQ` (R159): the bytes below the limit, its opcode as it was, the slots
behind them as they were. -/
def PayloadTaken (f : FrameId) (m : Nat) (s t : State) : Prop :=
  framePayload f t = payloadIn m s ∧ (frame f t).len = (payloadIn m s).length
    ∧ (frame f t).opcode = (frame f s).opcode
    ∧ ∀ i, (payloadIn m s).length ≤ i → storeRead (frame f t).payload i = storeRead (frame f s).payload i

/-- The header of the frame at the front of `RXQ` was read and accepted (R174 to R176): its opcode is `op` and `s1` is
the state in which it is dispatched. -/
def HeaderAccepted (s : State) (op : Byte) (s1 : State) : Prop :=
  let r := cfRdOpcode .ecf s
  r.1 = .ok ∧ op = r.2.ecf.opcode
    ∧ if s.cfg.numbering then
        (cfRdSeq r.2).status = .ok ∧ stampRefused (cfRdSeq r.2).stamp op (cfRdSeq r.2).state = false
          ∧ s1 = (cfRdSeq r.2).state
      else s1 = r.2

/-! ### Runs -/

/-- A state with another schedule. -/
def withSched (l : List Agent) (s : State) : State := { s with sched := l }

/-- The pump's turn for one byte (R212). -/
def pumpTurn : List Agent := [.txDone, .txc, .dre]

/-- `n` turns of the pump. -/
def pumpTurns : Nat → List Agent
  | 0 => []
  | n + 1 => pumpTurn ++ pumpTurns n

/-- A call of the FIFO law (R119). -/
inductive RingCall where
  | push (b : Byte)
  | pop
deriving DecidableEq, Repr

/-- The operation of a call on a queue. -/
def callInstr (q : QueueId) : RingCall → Instr
  | .push b => .rbPush q b
  | .pop => .rbPop q

/-- The bytes a call put in, by what the operation returned. -/
def bytesIn : RingCall → OpResult → List Byte
  | .push b, .bit true => [b]
  | _, _ => []

/-- The bytes a call took out, by what the operation returned. -/
def bytesOut : RingCall → OpResult → List Byte
  | .pop, .byte true b => [b]
  | _, _ => []

/-- What a sequence of calls put in and took out, and the state it leaves. -/
structure RingHistory where
  pushed : List Byte
  popped : List Byte
  state : State

/-- Run a sequence of calls on a queue through `exec`; none if one of them stops. -/
def ringHistory (q : QueueId) : List RingCall → State → Option RingHistory
  | [], s => some { pushed := [], popped := [], state := s }
  | c :: l, s =>
    match exec (callInstr q c) s with
    | .next t =>
      (ringHistory q l t).map
        (fun h => { h with pushed := bytesIn c t.ret ++ h.pushed, popped := bytesOut c t.ret ++ h.popped })
    | .fault _ => none
    | .refused _ => none

end Sys2Proof.Machine
end

