-- ==== Sys2Proof/Certificates/Slice0/Obligations.lean ====
section
/-! DEFINITION. The statements for the provers. Contents of a queue are `cont` (R26), what a kick does is `KickedWith`
(R130), and a frame is given by an equation for the whole next state in which every field not named keeps its value. -/

open Sys2Proof Sys2Proof.Machine

/-! ### Encodings -/

/-- R85, R92, R100, R178: decoding the code of a well-formed operation gives it back, every operand included. The two
rows that share `OP_ACK` are told apart by `LS.WAITING_ACK`. -/
def Obligations.DecodingAnEncodingGivesItBack : Prop :=
  ∀ (c : Config) (waitingAck : Bool) (i : Instr) (code : Code),
    c.wf → wellFormed c i = true → encode c i = some code →
    (i = .ack → waitingAck = true) → (i = .ackUnsolicited → waitingAck = false) →
    decode c waitingAck code = i

/-- R85, R93, R100: every code decodes, to a well-formed operation; an opcode byte is the code of what it decodes to, and
a select code is the select of what it decodes to. -/
def Obligations.EveryCodeHasOneWellFormedMeaning : Prop :=
  ∀ (c : Config) (waitingAck : Bool), c.wf →
    (∀ code, wellFormed c (decode c waitingAck code) = true) ∧
    (∀ op, encode c (decode c waitingAck (.opcode op)) = some (.opcode op)) ∧
    (∀ r, ∃ r', encode c (decode c waitingAck (.request r)) = some (.request r') ∧ r'.sel = r.sel)

/-- R97, R100: some words of the spec's own encodings, under the reference values. That `decodeTableWord` reads a word
below `0x20` as an `op_sel` with operand lines of zeros, and not as an application opcode (R85, R92), is the model's
choice (log entry 16). -/
def Obligations.SampleWordsDecodeAsTheTableSays : Prop :=
  decodeTableWord 8 0x00 = some .tInit ∧ decodeTableWord 8 0x05 = some .tBeginTransmit
    ∧ decodeTableWord 8 0x0C = some (.cfDecodeFromReceive 0x00)
    ∧ decodeTableWord 8 0x06 = some (.hostUnassigned 0x06)
    ∧ decodeTableWord 8 0xF0 = some .wait ∧ decodeTableWord 8 0xF1 = some .resume
    ∧ decodeTableWord 8 0xF3 = some .resync ∧ decodeTableWord 8 0xFF = some .endMark
    ∧ decodeTableWord 8 0x41 = some (.app 0x41)
    ∧ decodeFrame Config.reference 4 [0x07, 0x01, 0x02, 0xFF]
        = .ok { opcode := 0x07, stamp := 0x00, payload := [0x01, 0x02], dropped := [], rest := [] }
    ∧ decodeFrame Config.referenceNumbered 4 [0xF3, 0x09, 0x09, 0x04, 0xFF]
        = .ok { opcode := 0xF3, stamp := 0x09, payload := [0x09, 0x04], dropped := [], rest := [] }

/-! ### The step -/

/-- R11, R68, R247 to R249, R259, R264, R266, R270, R273: a step runs the decoded request of the command port, or the
operation of the agent whose turn it is, at that state with the turn taken. The schedule and the list of requests are the
model's (log entries 2, 3). -/
def Obligations.StepRunsTheScheduledTransaction : Prop :=
  ∀ (s : State) (rest : List Agent),
    (s.sched = [] → step s = .next s) ∧
    (s.sched = .host :: rest → s.hostQ = [] → step s = .next { s with sched := rest }) ∧
    (∀ r rs, s.sched = .host :: rest → s.hostQ = r :: rs →
      step s = if s.ctx = .idle then exec (decodeRequest r) { s with sched := rest, hostQ := rs }
        else .next { s with sched := rest, opAck := false }) ∧
    (s.sched = .rxc :: rest → step s = exec .peRxc { s with sched := rest }) ∧
    (s.sched = .txc :: rest → step s = exec .peTxc { s with sched := rest }) ∧
    (s.sched = .dre :: rest → step s = exec .peDre { s with sched := rest }) ∧
    (s.sched = .spin :: rest → step s = exec .spin { s with sched := rest }) ∧
    (s.sched = .txDone :: rest → step s = exec .periphTxDone { s with sched := rest }) ∧
    (∀ b l, s.sched = .deliver :: rest → s.linkIn = b :: l →
      step s = exec (.periphDeliver b) { s with sched := rest }) ∧
    (s.sched = .deliver :: rest → s.linkIn = [] → step s = .next { s with sched := rest }) ∧
    (∀ b, s.sched = .peer b :: rest → step s = .next { s with sched := rest, linkIn := s.linkIn ++ [b] })

/-- R174, R178, R185: a received frame whose header is accepted runs the operation its opcode byte decodes to, and, when
that returned COMPLETED, the completion. -/
def Obligations.FrameReceptionRunsTheDecodedRow : Prop :=
  ∀ (s s1 : State) (op : Byte), HeaderAccepted s op s1 →
    (∀ t, exec (decodeOpcode s1.cfg s1.ls.waitingAck op) s1 = .next t →
      (t.ret = .frame .completed → exec .peFrame s = finish ((complete t).map (setRet .none))) ∧
      (t.ret = .frame .discarded → exec .peFrame s = .next (setRet .none t)) ∧
      (t.ret = .frame .completed ∨ t.ret = .frame .discarded)) ∧
    (∀ e, exec (decodeOpcode s1.cfg s1.ls.waitingAck op) s1 = .fault e → exec .peFrame s = .fault e)

/-! ### Ring buffers -/

/-- R110: `RB.INIT` empties the buffer, writes no slot and nothing else. -/
def Obligations.RingInitEmptiesTheBuffer : Prop :=
  ∀ (q : QueueId) (s : State),
    exec (.rbInit q) s
      = .next (setRet .none (setRing q { store := (ring q s).store, head := 0, tail := 0, count := 0 } s))

/-- R111, R119, R120: a push below capacity appends the byte, at the slot of `tail` alone; a push on a full buffer
answers 0 and changes nothing. -/
def Obligations.PushAppendsOrChangesNothing : Prop :=
  ∀ (q : QueueId) (b : Byte) (s : State), RingOk s.cfg.N (ring q s) →
    ((ring q s).count < s.cfg.N →
      ∃ r, exec (.rbPush q b) s = .next (setRet (.bit true) (setRing q r s))
        ∧ contents (queueStore q) s.cfg.N r = cont q s ++ [b]
        ∧ r.head = (ring q s).head ∧ r.tail = ((ring q s).tail + 1) % s.cfg.N ∧ r.count = (ring q s).count + 1
        ∧ ∀ i, storeRead r.store i = if i = (ring q s).tail then some b else storeRead (ring q s).store i) ∧
    ((ring q s).count = s.cfg.N → exec (.rbPush q b) s = .next { s with ret := .bit false })

/-- R112, R119: a pop of a non-empty buffer returns and removes the oldest byte and writes no slot; a pop of an empty
buffer answers `(0, 0x00)`, signals `POP_EMPTY` and changes nothing else. -/
def Obligations.PopTakesTheOldestByte : Prop :=
  ∀ (q : QueueId) (s : State), RingOk s.cfg.N (ring q s) →
    (∀ x l, cont q s = x :: l →
      ∃ r, exec (.rbPop q) s = .next (setRet (.byte true x) (setRing q r s))
        ∧ contents (queueStore q) s.cfg.N r = l
        ∧ r.head = ((ring q s).head + 1) % s.cfg.N ∧ r.tail = (ring q s).tail ∧ r.count + 1 = (ring q s).count
        ∧ r.store = (ring q s).store) ∧
    (cont q s = [] → exec (.rbPop q) s = .next { s with ret := .byte false 0x00, conds := s.conds ++ [.popEmpty q] })

/-- R113 to R116, R22: the two tests read the count, the two peeks return the oldest and the newest byte, `(0, 0x00)` on
an empty buffer, and none of the four changes anything. -/
def Obligations.RingTestsAndPeeksReadOnly : Prop :=
  ∀ (q : QueueId) (s : State), RingOk s.cfg.N (ring q s) →
    exec (.rbIsEmpty q) s = .next { s with ret := .bit (cont q s).isEmpty } ∧
    exec (.rbIsFull q) s = .next { s with ret := .bit ((cont q s).length == s.cfg.N) } ∧
    exec (.rbPeekHead q) s = .next { s with ret := .byte (!(cont q s).isEmpty) ((cont q s).headD 0x00) } ∧
    exec (.rbPeekTail q) s = .next { s with ret := .byte (!(cont q s).isEmpty) ((cont q s).getLastD 0x00) }

/-- R20, R21, R24: every ring-buffer operation keeps both buffers in order. -/
def Obligations.RingOperationsKeepTheBuffersInOrder : Prop :=
  ∀ (q : QueueId) (i : Instr) (s t : State),
    (i = .rbInit q ∨ (∃ b, i = .rbPush q b) ∨ i = .rbPop q ∨ i = .rbIsEmpty q ∨ i = .rbIsFull q ∨ i = .rbPeekHead q
      ∨ i = .rbPeekTail q) →
    RingOk s.cfg.N s.rxq → RingOk s.cfg.N s.txq → exec i s = .next t →
    t.cfg = s.cfg ∧ RingOk t.cfg.N t.rxq ∧ RingOk t.cfg.N t.txq

/-- R119, R121: over any sequence of pushes and pops the bytes come out in the order they went in, and the count is what
went in less what came out. -/
def Obligations.QueueIsFirstInFirstOut : Prop :=
  ∀ (q : QueueId) (calls : List RingCall) (s : State), RingOk s.cfg.N (ring q s) →
    ∃ h, ringHistory q calls s = some h
      ∧ h.popped ++ cont q h.state = cont q s ++ h.pushed
      ∧ (ring q h.state).count + h.popped.length = (ring q s).count + h.pushed.length
      ∧ RingOk h.state.cfg.N (ring q h.state)

/-! ### Transport -/

/-- R139, R263, U8: a hand-off to a ready peripheral puts the byte on the wire and sets `LS.TRANSMITTING`; to a busy one
it faults. -/
def Obligations.HandoffSendsTheByteOrFaults : Prop :=
  ∀ (b : Byte) (s : State),
    (s.periph.txBusy = false →
      exec (.tHandoff b) s
        = .next { s with
            periph := { s.periph with txBusy := true, txData := b }
            wireOut := s.wireOut ++ [b]
            ls := { s.ls with transmitting := true }
            ret := .none }) ∧
    (s.periph.txBusy = true → exec (.tHandoff b) s = .fault .handoffBusy)

/-- R130: a kick starts exactly one byte when the side is idle, not paused and has something queued; otherwise it changes
nothing. -/
def Obligations.KickStartsAtMostOneByte : Prop :=
  ∀ s : State, RingOk s.cfg.N s.txq → IdleReady s →
    ∃ t, exec .tKick s = .next t ∧ KickedWith (cont .txq s) s t ∧ t.txq.store = s.txq.store
      ∧ t = { s with txq := t.txq, wireOut := t.wireOut, ls := t.ls, periph := t.periph, ret := .none }

/-- R131: `T.INIT` empties both queues, clears `LS.TRANSMITTING` and `DRE_IE`, and nothing else. -/
def Obligations.TransportInitEmptiesBothQueues : Prop :=
  ∀ s : State, s.ctx = .idle →
    exec .tInit s
      = .next { s with
          rxq := { store := s.rxq.store, head := 0, tail := 0, count := 0 }
          txq := { store := s.txq.store, head := 0, tail := 0, count := 0 }
          ls := { s.ls with transmitting := false }
          dreIe := false
          opAck := true
          ret := .none }

/-- R95, R132: `T.STATUS` returns the six flags at their bits, bits 7 and 6 being 0, and changes nothing. -/
def Obligations.StatusReportsTheSixFlags : Prop :=
  ∀ s : State, s.ctx = .idle →
    ∃ v : Byte, exec .tStatus s = .next { s with opAck := true, ret := .flags v }
      ∧ v.getLsbD 0 = s.periph.txBusy ∧ v.getLsbD 1 = !s.periph.rxFull
      ∧ v.getLsbD 2 = (s.txq.count == 0) ∧ v.getLsbD 3 = (s.txq.count == s.cfg.N)
      ∧ v.getLsbD 4 = (s.rxq.count == 0) ∧ v.getLsbD 5 = (s.rxq.count == s.cfg.N)
      ∧ v.getLsbD 6 = false ∧ v.getLsbD 7 = false

/-- R133: `T.TRANSMIT` queues the byte and kicks, or answers 0 with `TXQ_FULL` on a full queue. -/
def Obligations.TransmitQueuesTheByteAndKicks : Prop :=
  ∀ (b : Byte) (s : State), RingOk s.cfg.N s.txq → IdleReady s → s.ctx = .idle →
    (s.txq.count < s.cfg.N →
      ∃ t, exec (.tTransmit b) s = .next t ∧ KickedWith (cont .txq s ++ [b]) s t ∧ SlotsKept .txq 1 s t
        ∧ t = { s with txq := t.txq, wireOut := t.wireOut, ls := t.ls, periph := t.periph, opAck := true,
                       ret := .count 1 }) ∧
    (s.txq.count = s.cfg.N →
      exec (.tTransmit b) s = .next { s with opAck := true, ret := .count 0, conds := s.conds ++ [.txqFull] })

/-- R134: `T.RECEIVE` pops `RXQ` and touches nothing else. -/
def Obligations.ReceiveTakesTheOldestByte : Prop :=
  ∀ s : State, RingOk s.cfg.N s.rxq → s.ctx = .idle →
    (∀ x l, cont .rxq s = x :: l →
      ∃ t, exec .tReceive s = .next t ∧ cont .rxq t = l ∧ t.rxq.store = s.rxq.store
        ∧ t = { s with rxq := t.rxq, opAck := true, ret := .byte true x }) ∧
    (cont .rxq s = [] →
      exec .tReceive s
        = .next { s with opAck := true, ret := .byte false 0x00, conds := s.conds ++ [.popEmpty .rxq] })

/-- R135: `T.BULK_TRANSMIT` queues the first `min(length, free)` bytes of its range, kicks once, and signals `TXQ_FULL`
when that is fewer than asked for. -/
def Obligations.BulkTransmitQueuesWhatFits : Prop :=
  ∀ (bytes : List Byte) (start length : Nat) (s : State), RingOk s.cfg.N s.txq → IdleReady s → s.ctx = .idle →
    start + length ≤ bytes.length →
    let k := min length (s.cfg.N - s.txq.count)
    ∃ t, exec (.tBulkTransmit bytes start length) s = .next t
      ∧ KickedWith (cont .txq s ++ (bytes.drop start).take k) s t ∧ SlotsKept .txq k s t
      ∧ t = { s with txq := t.txq, wireOut := t.wireOut, ls := t.ls, periph := t.periph, opAck := true,
                     ret := .count k, conds := s.conds ++ (if k < length then [.txqFull] else []) }

/-- R100, R135, R240: a request with an unassigned select, or with a bulk range outside its list, is not acknowledged
and changes nothing. That the run goes on after it is the model's reading (log entry 5). -/
def Obligations.RefusedRequestsChangeNothing : Prop :=
  ∀ s : State,
    (∀ sel, exec (.hostUnassigned sel) s = .next { s with opAck := false }) ∧
    (∀ bytes start length, bytes.length < start + length →
      exec (.tBulkTransmit bytes start length) s = .next { s with opAck := false })

/-- R136: `T.BEGIN_TRANSMIT` is a kick. -/
def Obligations.BeginTransmitKicks : Prop :=
  ∀ s : State, RingOk s.cfg.N s.txq → IdleReady s → s.ctx = .idle →
    ∃ t, exec .tBeginTransmit s = .next t ∧ KickedWith (cont .txq s) s t ∧ t.txq.store = s.txq.store
      ∧ t = { s with txq := t.txq, wireOut := t.wireOut, ls := t.ls, periph := t.periph, opAck := true, ret := .none }

/-- R137: `T.DRIVE_TX` hands off the oldest byte whatever the pause flags say, or marks the transport idle. -/
def Obligations.DriveTxPullsOneByteOrGoesIdle : Prop :=
  ∀ s : State, RingOk s.cfg.N s.txq →
    (∀ x l, cont .txq s = x :: l → s.periph.txBusy = false →
      ∃ t, exec .tDriveTx s = .next t ∧ cont .txq t = l ∧ t.txq.store = s.txq.store
        ∧ t = { s with
            txq := t.txq
            wireOut := s.wireOut ++ [x]
            ls := { s.ls with transmitting := true }
            periph := { s.periph with txBusy := true, txData := x }
            ret := .none }) ∧
    (cont .txq s = [] →
      exec .tDriveTx s = .next { s with ls := { s.ls with transmitting := false }, ret := .none })

/-- R138, R267, U8: `T.DRIVE_RX` reads the waiting byte and stores it if `RXQ` has room; with nothing waiting it
faults. -/
def Obligations.DriveRxReadsTheWaitingByte : Prop :=
  ∀ s : State, RingOk s.cfg.N s.rxq →
    (s.periph.rxFull = true → s.rxq.count < s.cfg.N →
      ∃ t, exec .tDriveRx s = .next t ∧ cont .rxq t = cont .rxq s ++ [s.periph.rxData] ∧ SlotsKept .rxq 1 s t
        ∧ t = { s with
            rxq := t.rxq
            periph := { s.periph with rxFull := false }
            ret := .received s.periph.rxData true }) ∧
    (s.periph.rxFull = true → s.rxq.count = s.cfg.N →
      exec .tDriveRx s
        = .next { s with periph := { s.periph with rxFull := false }, ret := .received s.periph.rxData false }) ∧
    (s.periph.rxFull = false → exec .tDriveRx s = .fault .receiveNothing)

/-! ### Command frames -/

/-- R150 to R152: the three operations that build `HCF`. -/
def Obligations.FrameRegisterIsBuiltByteByByte : Prop :=
  ∀ s : State, s.ctx = .idle →
    exec .cfInit s = .next { s with hcf := { s.hcf with opcode := 0x00, len := 0 }, opAck := true, ret := .none } ∧
    (∀ op, exec (.cfSetOpcode op) s
      = .next { s with hcf := { s.hcf with opcode := op }, opAck := true, ret := .none }) ∧
    (∀ b, s.hcf.len < s.cfg.L →
      ∃ t, exec (.cfAppend b) s = .next t ∧ framePayload .hcf t = framePayload .hcf s ++ [b]
        ∧ t.hcf.len = s.hcf.len + 1 ∧ t.hcf.opcode = s.hcf.opcode
        ∧ (∀ i, i ≠ s.hcf.len → storeRead t.hcf.payload i = storeRead s.hcf.payload i)
        ∧ t = { s with hcf := t.hcf, opAck := true, ret := .count (s.cfg.L - t.hcf.len) }) ∧
    (∀ b, s.hcf.len = s.cfg.L →
      exec (.cfAppend b) s = .next { s with opAck := true, ret := .count 0, conds := s.conds ++ [.appendFull] })

/-- R17, R80, R81, R154: the wire bytes of a frame value: opcode, the stamp if `NUMBERING`, payload, terminator, `FLEN`
bytes in all; nothing changes. -/
def Obligations.FrameBytesHaveTheWireLayout : Prop :=
  ∀ (op : Byte) (pl : List Byte) (s : State),
    ∃ bs : List Byte, exec (.cfFrameBytes op pl) s = .next { s with ret := .bytes bs }
      ∧ bs = [op] ++ (if s.cfg.numbering then [s.seqOut] else []) ++ pl ++ [s.cfg.opEnd]
      ∧ bs.length = s.cfg.flen pl.length

/-- R155: `CF.ENCODE_AND_ENQUEUE` queues as much of the frame as fits; `SEQ_OUT` advances exactly when all of it did; the
frame register keeps its value. -/
def Obligations.EncodeAndEnqueueSendsWhatFits : Prop :=
  ∀ s : State, RingOk s.cfg.N s.txq → IdleReady s → s.ctx = .idle →
    let bs := frameBytes s.cfg s.seqOut s.hcf.opcode (framePayload .hcf s)
    let k := min bs.length (s.cfg.N - s.txq.count)
    ∃ t, exec .cfEncodeAndEnqueue s = .next t
      ∧ KickedWith (cont .txq s ++ bs.take k) s t ∧ SlotsKept .txq k s t
      ∧ t = { s with txq := t.txq, wireOut := t.wireOut, ls := t.ls, periph := t.periph, opAck := true,
                     seqOut := if k = bs.length then s.seqOut + 1 else s.seqOut,
                     ret := .count k, conds := s.conds ++ (if k < bs.length then [.txqFull] else []) }

/-- R156, R213: a forced send suspends the handler with the bytes to force, `SEQ_OUT` advancing at once for a frame; while
one is running another cannot start. -/
def Obligations.ForcedSendSuspendsTheHandler : Prop :=
  ∀ (s : State) (k : Kont),
    (s.ctx = .idle →
      (∀ b rest, exec (.peForce b rest k) s = .next { s with ctx := .forcing b rest k, ret := .none }) ∧
      (∀ op pl, exec (.cfEncodeAndForce op pl k) s
        = .next { s with
            ctx := .forcing op ((if s.cfg.numbering then [s.seqOut] else []) ++ pl ++ [s.cfg.opEnd]) k
            seqOut := s.seqOut + 1
            ret := .none })) ∧
    (s.ctx ≠ .idle →
      (∀ b rest, exec (.peForce b rest k) s = .fault .forceNested) ∧
      (∀ op pl, exec (.cfEncodeAndForce op pl k) s = .fault .forceNested))

/-- R157, R158: the reads of the opcode and of the stamp, their `NONE` cases included. -/
def Obligations.OpcodeAndStampAreReadFromTheQueue : Prop :=
  ∀ (f : FrameId) (s : State), RingOk s.cfg.N s.rxq →
    (cont .rxq s = [] →
      exec (.cfRdOpcode f) s = .next { s with ret := .status .absent } ∧
      exec .cfRdSeq s = .next { s with ret := .stamp .absent 0x00 }) ∧
    (∀ x l, cont .rxq s = x :: l →
      (∃ t, exec (.cfRdOpcode f) s = .next t ∧ cont .rxq t = l ∧ t.rxq.store = s.rxq.store
        ∧ t = (if x = s.cfg.opEnd then { s with rxq := t.rxq, ret := .status .absent }
               else setRet (.status .ok) (setRing .rxq t.rxq (setFrame f { frame f s with opcode := x } s)))) ∧
      (∃ t, exec .cfRdSeq s = .next t ∧ cont .rxq t = l ∧ t.rxq.store = s.rxq.store
        ∧ t = { s with rxq := t.rxq, ret := .stamp .ok x }))

/-- R159, R161: the payload loop keeps `min(m, L)` bytes and signals each byte beyond; both loops consume through the
first terminator, or everything if there is none. -/
def Obligations.PayloadIsCollectedAndTheRestDropped : Prop :=
  ∀ (f : FrameId) (m : Nat) (s : State), RingOk s.cfg.N s.rxq →
    (∃ t, exec (.cfRdPayload f m) s = .next t ∧ FrameConsumed s t ∧ PayloadTaken f m s t
      ∧ t = setFrame f (frame f t) { s with
          rxq := t.rxq
          conds := s.conds ++ List.replicate (excessIn m s) .payloadTruncated
          ret := .none }) ∧
    (∃ t, exec .cfDiscard s = .next t ∧ FrameConsumed s t ∧ t = { s with rxq := t.rxq, ret := .none })

/-- R160: `CF.DECODE_FROM_RECEIVE` is the whole-frame decode of the bytes in `RXQ` into `HCF`, and does nothing else. -/
def Obligations.DecodeFromReceiveIsTheFrameDecode : Prop :=
  ∀ (m : Byte) (s : State), RingOk s.cfg.N s.rxq → s.ctx = .idle →
    ∃ t, exec (.cfDecodeFromReceive m) s = .next t ∧ t.rxq.store = s.rxq.store
      ∧ (match decodeFrame s.cfg m.toNat (cont .rxq s) with
         | .ok p =>
           t.ret = .stamp .ok p.stamp ∧ t.hcf.opcode = p.opcode ∧ framePayload .hcf t = p.payload
             ∧ t.hcf.len = p.payload.length ∧ cont .rxq t = p.rest
             ∧ t.conds = s.conds ++ List.replicate p.dropped.length .payloadTruncated
         | .error e =>
           t.ret = .stamp .absent 0x00 ∧ t.hcf.len = 0 ∧ t.conds = s.conds
             ∧ match e with
               | .nothingBuffered => t.hcf.opcode = 0x00 ∧ cont .rxq t = []
               | .emptyFrame => t.hcf.opcode = 0x00 ∧ cont .rxq t = (cont .rxq s).tail
               | .noStamp => cont .rxq s = [t.hcf.opcode] ∧ cont .rxq t = [])
      ∧ t = { s with rxq := t.rxq, hcf := t.hcf, conds := t.conds, opAck := true, ret := t.ret }

/-- R162: a frame that holds no byte equal to the terminator but its last is decoded back as it was encoded. -/
def Obligations.EncodedFrameDecodesBack : Prop :=
  ∀ (op : Byte) (pl : List Byte) (s : State), RingOk s.cfg.N s.rxq → s.ctx = .idle →
    s.cfg.wf → pl.length ≤ s.cfg.L → op ≠ s.cfg.opEnd → s.cfg.opEnd ∉ pl →
    (s.cfg.numbering = true → s.seqOut ≠ s.cfg.opEnd) →
    cont .rxq s = frameBytes s.cfg s.seqOut op pl →
    ∃ t, exec (.cfDecodeFromReceive (BitVec.ofNat 8 s.cfg.L)) s = .next t
      ∧ t.ret = .stamp .ok (if s.cfg.numbering then s.seqOut else 0x00)
      ∧ frameValue .hcf t = (op, pl) ∧ t.hcf.len = pl.length ∧ cont .rxq t = []

/-! ### The rows of the opcode map -/

/-- R179: the `WAIT` row asks for a pause unless the side is paused, queues what fits of an `ACK`, and drops the rest of
the frame. -/
def Obligations.WaitRowRequestsAPauseAndAcknowledges : Prop :=
  ∀ s : State, RingOk s.cfg.N s.rxq → RingOk s.cfg.N s.txq → IdleReady s →
    let s' := { s with ls := { s.ls with requestSelfWait := s.ls.requestSelfWait || !s.ls.selfWaiting } }
    let bs := frameBytes s.cfg s.seqOut s.cfg.opAck []
    let k := min bs.length (s.cfg.N - s.txq.count)
    ∃ t, exec .wait s = .next t
      ∧ KickedWith (cont .txq s ++ bs.take k) s' t ∧ SlotsKept .txq k s t ∧ FrameConsumed s t
      ∧ t = { s with txq := t.txq, rxq := t.rxq, wireOut := t.wireOut, ls := t.ls, periph := t.periph,
                     seqOut := if k = bs.length then s.seqOut + 1 else s.seqOut,
                     conds := s.conds ++ (if k < bs.length then [.txqFull] else []),
                     ret := .frame .completed }

/-- R180: the `RESUME` row clears the pause and the pending request, then kicks, and drops the rest of the frame. -/
def Obligations.ResumeRowClearsThePauseAndKicks : Prop :=
  ∀ s : State, RingOk s.cfg.N s.rxq → RingOk s.cfg.N s.txq → IdleReady s →
    let s' := { s with ls := { s.ls with selfWaiting := false, requestSelfWait := false } }
    ∃ t, exec .resume s = .next t
      ∧ KickedWith (cont .txq s) s' t ∧ t.txq.store = s.txq.store ∧ FrameConsumed s t
      ∧ t = { s with txq := t.txq, rxq := t.rxq, wireOut := t.wireOut, ls := t.ls, periph := t.periph,
                     ret := .frame .completed }

/-- R181: the awaited `ACK` clears `LS.WAITING_ACK` and drops the rest of the frame. -/
def Obligations.AckRowClearsWaitingAck : Prop :=
  ∀ s : State, RingOk s.cfg.N s.rxq →
    ∃ t, exec .ack s = .next t ∧ FrameConsumed s t
      ∧ t = { s with rxq := t.rxq, ls := { s.ls with waitingAck := false }, ret := .frame .completed }

/-- R182: the `RESYNC` row takes the peer's counters, crossed, from the first two payload bytes; with fewer it is
malformed and the counters stay. -/
def Obligations.ResyncRowAdoptsTheCounters : Prop :=
  ∀ s : State, RingOk s.cfg.N s.rxq → s.cfg.wf →
    ∃ t, exec .resync s = .next t ∧ FrameConsumed s t ∧ PayloadTaken .ecf s.cfg.L s t
      ∧ (match payloadIn s.cfg.L s with
         | x :: y :: _ =>
           t = { s with
             rxq := t.rxq
             ecf := t.ecf
             seqIn := x
             seqOut := y
             conds := s.conds ++ List.replicate (excessIn s.cfg.L s) .payloadTruncated
             ret := .frame .completed }
         | _ =>
           t = { s with
             rxq := t.rxq
             ecf := t.ecf
             conds := s.conds ++ [.resyncMalformed]
             ret := .frame .discarded })

/-- R90, R183, R184: an application frame, one with the reserved opcode `OP_ESCAPE`, and an unsolicited `ACK` are given
to the message handler with their opcode and payload. That each row itself sets `ECF.opcode`, whatever it held, is the
model's choice (log entry 19): R183 has the payload decoded into the `ECF` whose opcode `CF.RD_OPCODE` wrote before it. -/
def Obligations.ApplicationRowsReachTheHandler : Prop :=
  ∀ (i : Instr) (op : Byte) (named : List Condition) (s : State), RingOk s.cfg.N s.rxq →
    ((i = .app op ∧ named = []) ∨ (i = .escapeChar ∧ op = s.cfg.opEscape ∧ named = [])
      ∨ (i = .ackUnsolicited ∧ op = s.cfg.opAck ∧ named = [.unsolicitedAck])) →
    ∃ t, exec i s = .next t ∧ FrameConsumed s t
      ∧ PayloadTaken .ecf s.cfg.L { s with ecf := { s.ecf with opcode := op } } t
      ∧ t = { s with
          rxq := t.rxq
          ecf := t.ecf
          handlerOut := s.handlerOut ++ [(op, payloadIn s.cfg.L s)]
          conds := s.conds ++ named ++ List.replicate (excessIn s.cfg.L s) .payloadTruncated
          ret := .frame .completed }

/-! ### Frame reception -/

/-- R91, R174 to R176: an empty queue, an empty frame and a frame cut before its stamp are dropped: nothing is
dispatched, no counter moves, no reply is sent. That the row `END`, which the dispatch never reaches, returns DISCARDED is
the model's choice (log entry 19). -/
def Obligations.FrameWithoutOpcodeOrStampIsDropped : Prop :=
  ∀ s : State, RingOk s.cfg.N s.rxq →
    exec .endMark s = .next { s with ret := .frame .discarded } ∧
    (cont .rxq s = [] → exec .peFrame s = .next { s with ret := .none }) ∧
    (∀ l, cont .rxq s = s.cfg.opEnd :: l →
      ∃ t, exec .peFrame s = .next t ∧ cont .rxq t = l ∧ t = { s with rxq := t.rxq, ret := .none }) ∧
    (∀ op, cont .rxq s = [op] → op ≠ s.cfg.opEnd → s.cfg.numbering = true →
      ∃ t, exec .peFrame s = .next t ∧ cont .rxq t = []
        ∧ t = { s with rxq := t.rxq, ecf := { s.ecf with opcode := op }, ret := .none })

/-- R176, R177: a wrong stamp on a frame that is not a `RESYNC` draws one `RESYNC` with this side's counters on the
queued path; the frame is dropped, nothing reaches the handler and `SEQ_IN` stays. -/
def Obligations.WrongStampDrawsOneResync : Prop :=
  ∀ (s : State) (op stamp : Byte) (body : List Byte),
    RingOk s.cfg.N s.rxq → RingOk s.cfg.N s.txq → IdleReady s → s.cfg.numbering = true →
    cont .rxq s = op :: stamp :: body → op ≠ s.cfg.opEnd → op ≠ s.cfg.opResync → stamp ≠ s.seqIn →
    let bs := frameBytes s.cfg s.seqOut s.cfg.opResync [s.seqOut, s.seqIn]
    let k := min bs.length (s.cfg.N - s.txq.count)
    ∃ t, exec .peFrame s = .next t
      ∧ KickedWith (cont .txq s ++ bs.take k) s t ∧ SlotsKept .txq k s t
      ∧ cont .rxq t = afterEnd s.cfg body ∧ t.rxq.store = s.rxq.store
      ∧ t = { s with txq := t.txq, rxq := t.rxq, wireOut := t.wireOut, ls := t.ls, periph := t.periph,
                     ecf := { s.ecf with opcode := op },
                     seqOut := if k = bs.length then s.seqOut + 1 else s.seqOut,
                     conds := s.conds ++ [.seqMismatch stamp s.seqIn] ++ (if k < bs.length then [.txqFull] else []),
                     ret := .none }

/-- R174, R183, R185, R186: an application frame with the right stamp reaches the handler and completes: `SEQ_IN`
advances, and if the peer is held the handler suspends in a forced `RESUME` carrying both counters. -/
def Obligations.AcceptedApplicationFrameCompletes : Prop :=
  ∀ (s : State) (op : Byte) (body : List Byte), RingOk s.cfg.N s.rxq → s.ctx = .idle →
    wellFormed s.cfg (.app op) = true →
    cont .rxq s = op :: (if s.cfg.numbering then [s.seqIn] else []) ++ body →
    let pl := (beforeEnd s.cfg body).take s.cfg.L
    ∃ t, exec .peFrame s = .next t
      ∧ cont .rxq t = afterEnd s.cfg body ∧ t.rxq.store = s.rxq.store
      ∧ frameValue .ecf t = (op, pl) ∧ t.ecf.len = pl.length
      ∧ (∀ i, pl.length ≤ i → storeRead t.ecf.payload i = storeRead s.ecf.payload i)
      ∧ t = { s with
          rxq := t.rxq
          ecf := t.ecf
          handlerOut := s.handlerOut ++ [(op, pl)]
          conds := s.conds ++ List.replicate ((beforeEnd s.cfg body).length - s.cfg.L) .payloadTruncated
          seqIn := s.seqIn + 1
          seqOut := if s.ls.partnerWaiting then s.seqOut + 1 else s.seqOut
          ctx := if s.ls.partnerWaiting then
              .forcing s.cfg.opResume (frameTail s.cfg s.seqOut [s.seqOut, s.seqIn + 1]) .resumed
            else .idle
          ret := .none }

/-! ### The receive-complete handler -/

/-- R170, R171: a byte that finds room is stored; if it is the terminator, frame reception follows in the same
transaction. -/
def Obligations.ReceivedByteIsStored : Prop :=
  ∀ s : State, RingOk s.cfg.N s.rxq → s.ctx = .idle → s.periph.rxFull = true → s.rxq.count < s.cfg.N →
    ∃ t, cont .rxq t = cont .rxq s ++ [s.periph.rxData] ∧ SlotsKept .rxq 1 s t
      ∧ t = { s with rxq := t.rxq, periph := { s.periph with rxFull := false } }
      ∧ (s.periph.rxData ≠ s.cfg.opEnd → exec .peRxc s = .next t)
      ∧ (s.periph.rxData = s.cfg.opEnd →
          (∀ u, exec .peFrame t = .next u → exec .peRxc s = .next { u with ret := s.ret })
          ∧ ∀ e, exec .peFrame t = .fault e → exec .peRxc s = .fault e)

/-- R172: a byte that finds `RXQ` full is read and dropped; `PARTNER_WAITING` and `WAITING_ACK` are set and the handler
suspends in a forced `WAIT`. -/
def Obligations.OverflowForcesAWait : Prop :=
  ∀ s : State, s.ctx = .idle → s.periph.rxFull = true → s.rxq.count = s.cfg.N →
    exec .peRxc s
      = .next { s with
          periph := { s.periph with rxFull := false }
          ls := { s.ls with partnerWaiting := true, waitingAck := true }
          seqOut := s.seqOut + 1
          ctx := .forcing s.cfg.opWait ((if s.cfg.numbering then [s.seqOut] else []) ++ [s.cfg.opEnd])
            (.ovf s.periph.rxData)
          conds := s.conds ++ [.rxqOverflow s.periph.rxData] }

/-- R193: after side B has refused a frame of side A and A has received B's `RESYNC`, each side expects what the other
will stamp. No counter of B may equal the terminator (R308), and B's queue has room for the reply. -/
def Obligations.ResyncMakesTheTwoSidesAgree : Prop :=
  ∀ (a b : State) (op stamp : Byte) (body : List Byte),
    b.cfg.wf → b.cfg.numbering = true → a.cfg.numbering = true → a.cfg.L = b.cfg.L →
    a.cfg.opResync = b.cfg.opResync → a.cfg.opEnd = b.cfg.opEnd → a.cfg.reserved.Nodup →
    RingOk b.cfg.N b.rxq → RingOk b.cfg.N b.txq → IdleReady b → b.txq.count + 5 ≤ b.cfg.N →
    cont .rxq b = op :: stamp :: body → op ≠ b.cfg.opEnd → op ≠ b.cfg.opResync → stamp ≠ b.seqIn →
    b.seqOut ≠ b.cfg.opEnd → b.seqIn ≠ b.cfg.opEnd →
    ∃ b', exec .peFrame b = .next b' ∧ b'.seqIn = b.seqIn ∧
      ∃ f, b'.wireOut ++ cont .txq b' = b.wireOut ++ cont .txq b ++ f ∧
        (RingOk a.cfg.N a.rxq → a.ctx = .idle → cont .rxq a = f →
          ∃ a', exec .peFrame a = .next a' ∧ a'.seqIn = b'.seqOut
            ∧ (a.ls.partnerWaiting = false → a'.seqOut = b'.seqIn))

/-! ### The transmit handlers, the spin and the peripheral -/

/-- R210, R248: the transmit-complete handler clears its request and takes the branch of the two pause flags. -/
def Obligations.TransmitCompleteTakesThePauseBranch : Prop :=
  ∀ s : State, RingOk s.cfg.N s.txq → s.ctx = .idle → s.periph.txcFlag = true →
    exec .peTxc s
      = .next { s with
          periph := { s.periph with txcFlag := false }
          dreIe := if s.ls.selfWaiting && !s.ls.requestSelfWait then s.dreIe else true
          ls :=
            if s.ls.requestSelfWait then
              (if (cont .txq s).head? = some s.cfg.opEnd then
                { s.ls with requestSelfWait := false, selfWaiting := true }
              else s.ls)
            else if s.ls.selfWaiting && !s.periph.txBusy then { s.ls with transmitting := false }
            else s.ls }

/-- R211: the data-register-empty handler pulls one byte, or marks the transport idle, and disarms itself. -/
def Obligations.DataEmptyPullsOneByteAndDisarms : Prop :=
  ∀ s : State, RingOk s.cfg.N s.txq → s.ctx = .idle → s.dreIe = true → s.periph.txBusy = false →
    (∀ x l, cont .txq s = x :: l →
      ∃ t, exec .peDre s = .next t ∧ cont .txq t = l ∧ t.txq.store = s.txq.store
        ∧ t = { s with
            txq := t.txq
            wireOut := s.wireOut ++ [x]
            ls := { s.ls with transmitting := true }
            periph := { s.periph with txBusy := true, txData := x }
            dreIe := false }) ∧
    (cont .txq s = [] →
      exec .peDre s = .next { s with ls := { s.ls with transmitting := false }, dreIe := false })

/-- R173, R187, R214, R215: a spin hands off one byte when the peripheral is ready; after the last one the continuation
runs in the same transaction. -/
def Obligations.SpinHandsOffAndResumesTheHandler : Prop :=
  ∀ (s : State) (b : Byte) (rest : List Byte) (k : Kont), s.ctx = .forcing b rest k →
    let sent := { s with
      ctx := .idle
      wireOut := s.wireOut ++ [b]
      ls := { s.ls with transmitting := true }
      periph := { s.periph with txBusy := true, txData := b } }
    (s.periph.txBusy = true → exec .spin s = .next s) ∧
    (∀ b' rest', s.periph.txBusy = false → rest = b' :: rest' →
      exec .spin s = .next { sent with ctx := .forcing b' rest' k }) ∧
    (s.periph.txBusy = false → rest = [] → k = .resumed →
      exec .spin s = .next { sent with ls := { sent.ls with partnerWaiting := false } }) ∧
    (∀ d, s.periph.txBusy = false → rest = [] → k = .ovf d → d ≠ s.cfg.opEnd →
      exec .spin s = .next { sent with seqIn := if s.cfg.ovfNontermAdvancesSeq then s.seqIn + 1 else s.seqIn }) ∧
    (∀ d, s.periph.txBusy = false → rest = [] → k = .ovf d → d = s.cfg.opEnd →
      (∀ u, exec .peFrame sent = .next u → exec .spin s = .next { u with ret := s.ret })
      ∧ ∀ e, exec .peFrame sent = .fault e → exec .spin s = .fault e)

/-- R264, R266: the two steps of the peripheral, when enabled. -/
def Obligations.PeripheralStepsFinishAndDeliver : Prop :=
  ∀ s : State,
    (s.periph.txBusy = true →
      exec .periphTxDone s
        = .next { s with
            periph := { s.periph with txBusy := false, txcFlag := true }
            linkOut := s.linkOut ++ [s.periph.txData] }) ∧
    (∀ b l, s.periph.rxFull = false → s.linkIn = b :: l →
      exec (.periphDeliver b) s
        = .next { s with periph := { s.periph with rxFull := true, rxData := b }, linkIn := l })

/-- R212: with no pause, the pump puts all of `TXQ` on the wire in order, one byte per turn, and then marks the transport
idle. The order of the turns is given by the model's schedule (log entry 2). -/
def Obligations.PumpDrainsTheTransmitQueue : Prop :=
  ∀ s : State, RingOk s.cfg.N s.txq → s.ctx = .idle → s.periph.txBusy = true →
    s.ls.requestSelfWait = false → s.ls.selfWaiting = false →
    ∃ t, Host.Core.run Sys2Proof.core (3 * (s.txq.count + 1)) (withSched (pumpTurns (s.txq.count + 1)) s) = .next t
      ∧ t.wireOut = s.wireOut ++ cont .txq s ∧ t.linkOut = s.linkOut ++ s.periph.txData :: cont .txq s
      ∧ cont .txq t = [] ∧ t.ls = { s.ls with transmitting := false } ∧ t.dreIe = false
      ∧ t.periph.txBusy = false ∧ t.periph.txcFlag = false ∧ t.rxq = s.rxq ∧ t.seqOut = s.seqOut

/-- R217: while the peripheral finishes no byte (and no reset comes) a suspended handler stays suspended, whatever else
is scheduled: nothing is sent, served or delivered to the handler. -/
def Obligations.ForcedSendLocksUpWithoutTxDone : Prop :=
  ∀ (n : Nat) (s : State), s.ctx ≠ .idle → s.periph.txBusy = true → .txDone ∉ s.sched → .reset ∉ s.sched →
    ∃ t, Host.Core.run Sys2Proof.core n s = .next t
      ∧ t.ctx = s.ctx ∧ t.wireOut = s.wireOut ∧ t.handlerOut = s.handlerOut ∧ t.rxq = s.rxq ∧ t.txq = s.txq
      ∧ t.ls = s.ls ∧ t.seqIn = s.seqIn ∧ t.seqOut = s.seqOut ∧ t.hostQ = s.hostQ ∧ t.periph.txBusy = true

/-! ### Rules of the whole machine -/

/-- R44, R259: while a handler is suspended no host operation is acknowledged and none has any effect. -/
def Obligations.HostIsHeldOffWhileSuspended : Prop :=
  ∀ (i : Instr) (r : HostReq) (s : State), encodeRequest i = some r → s.ctx ≠ .idle →
    exec i s = .next { s with opAck := false }

/-- R44, R247 to R250, R254, R264, R266: a handler is not entered without its request nor while one is suspended, and a
step of the peripheral or of the spin that is not enabled changes nothing (that it is then a step at all is the model's
choice, log entry 10). -/
def Obligations.StepsThatAreNotEnabledChangeNothing : Prop :=
  ∀ s : State,
    (s.ctx ≠ .idle ∨ s.periph.rxFull = false → exec .peRxc s = .next s) ∧
    (s.ctx ≠ .idle ∨ s.periph.txcFlag = false → exec .peTxc s = .next s) ∧
    (s.ctx ≠ .idle ∨ s.dreIe = false ∨ s.periph.txBusy = true → exec .peDre s = .next s) ∧
    (s.ctx = .idle → exec .spin s = .next s) ∧
    (s.periph.txBusy = false → exec .periphTxDone s = .next s) ∧
    (∀ b, s.periph.rxFull = true ∨ s.linkIn.head? ≠ some b → exec (.periphDeliver b) s = .next s)

/-- R41, R139, R191: who sets and who clears each flag, and who writes each counter. A handler is named with the
operations that run inside it; what sets `LS.TRANSMITTING` is a hand-off, told by the byte it puts on the wire. -/
def Obligations.FlagsAndCountersHaveTheWritersOfTheTables : Prop :=
  ∀ (i : Instr) (s t : State), exec i s = .next t →
    (s.ls.selfWaiting = false → t.ls.selfWaiting = true → i = .peTxc) ∧
    (s.ls.selfWaiting = true → t.ls.selfWaiting = false → i ∈ [.resume, .peFrame, .peRxc, .spin]) ∧
    (s.ls.partnerWaiting = false → t.ls.partnerWaiting = true → i = .peRxc) ∧
    (s.ls.partnerWaiting = true → t.ls.partnerWaiting = false → i = .spin) ∧
    (s.ls.requestSelfWait = false → t.ls.requestSelfWait = true → i ∈ [.wait, .peFrame, .peRxc, .spin]) ∧
    (s.ls.requestSelfWait = true → t.ls.requestSelfWait = false → i ∈ [.peTxc, .resume, .peFrame, .peRxc, .spin]) ∧
    (s.ls.waitingAck = false → t.ls.waitingAck = true → i = .peRxc) ∧
    (s.ls.waitingAck = true → t.ls.waitingAck = false → i ∈ [.ack, .peFrame, .peRxc, .spin]) ∧
    (s.ls.transmitting = false → t.ls.transmitting = true →
      ∃ b, t.wireOut = s.wireOut ++ [b] ∧ s.periph.txBusy = false ∧ t.periph.txBusy = true ∧ t.periph.txData = b) ∧
    (s.ls.transmitting = true → t.ls.transmitting = false → i ∈ [.tDriveTx, .peDre, .peTxc, .tInit]) ∧
    (s.dreIe = false → t.dreIe = true → i = .peTxc) ∧
    (s.dreIe = true → t.dreIe = false → i ∈ [.peDre, .tInit]) ∧
    (s.seqIn ≠ t.seqIn → i ∈ [.resync, .peFrame, .peRxc, .spin]) ∧
    (s.seqOut ≠ t.seqOut →
      i ∈ [.cfEncodeAndEnqueue, .wait, .resync, .peFrame, .peRxc, .spin] ∨ ∃ op pl k, i = .cfEncodeAndForce op pl k)

/-- R36, R256: no host operation changes `ECF`, and nothing that runs in interrupt context changes `HCF`. -/
def Obligations.EachContextOwnsItsFrameRegister : Prop :=
  ∀ (i : Instr) (s t : State), exec i s = .next t →
    ((∃ r, encodeRequest i = some r) → t.ecf = s.ecf) ∧
    ((∃ c op, encodeOpcode c i = some op) ∨ i ∈ [.peFrame, .peRxc, .peTxc, .peDre, .spin] → t.hcf = s.hcf)

/-- R29, R130, R136: while this side is paused no host operation puts a byte on the wire. -/
def Obligations.PausedSideStartsNoByte : Prop :=
  ∀ (i : Instr) (r : HostReq) (s t : State), encodeRequest i = some r → s.ls.selfWaiting = true →
    exec i s = .next t → t.wireOut = s.wireOut ∧ t.periph = s.periph

/-- R64, R139, R263: a step that is not a reset puts at most one byte on the wire, and only if none was in flight; the
byte is then in flight. -/
def Obligations.EachStepSendsAtMostOneByte : Prop :=
  ∀ s t : State, step s = .next t → s.sched.head? ≠ some .reset →
    t.wireOut = s.wireOut ∨
      ∃ b, t.wireOut = s.wireOut ++ [b] ∧ s.periph.txBusy = false ∧ t.periph.txBusy = true ∧ t.periph.txData = b

/-- R74, R270, R271: the link of a two-node system carries bytes in order and loses none, and changes nothing else. -/
def Obligations.LinkCarriesBytesInOrder : Prop :=
  ∀ p : Pair,
    (∃ a b, pairStep (.carry .a) p = .next { a := { p.a with linkOut := a }, b := { p.b with linkIn := b } }
      ∧ b ++ a = p.b.linkIn ++ p.a.linkOut ∧ a.length = p.a.linkOut.length - 1) ∧
    (∃ a b, pairStep (.carry .b) p = .next { a := { p.a with linkIn := a }, b := { p.b with linkOut := b } }
      ∧ a ++ b = p.a.linkIn ++ p.b.linkOut ∧ b.length = p.b.linkOut.length - 1)

/-- R47, R290, R291: the reset event leaves the values the spec gives, whatever the state; no slot of a store is
written and the parameters stay. -/
def Obligations.ResetEventGivesTheTable : Prop :=
  ∀ (s : State) (rest : List Agent), s.sched = .reset :: rest →
    ∃ t, step s = .next t ∧ t.cfg = s.cfg
      ∧ t.rxq = { store := s.rxq.store, head := 0, tail := 0, count := 0 }
      ∧ t.txq = { store := s.txq.store, head := 0, tail := 0, count := 0 }
      ∧ lsByte t.ls = 0x00 ∧ t.seqIn = 0x00 ∧ t.seqOut = 0x00 ∧ ieByte t = 0x00
      ∧ t.hcf = { opcode := 0x00, payload := s.hcf.payload, len := 0 }
      ∧ t.ecf = { opcode := 0x00, payload := s.ecf.payload, len := 0 }
      ∧ t.ctx = .idle ∧ t.periph.txBusy = false ∧ t.periph.txcFlag = false ∧ t.periph.rxFull = false
      ∧ t.wireOut = [] ∧ t.handlerOut = [] ∧ t.linkIn = [] ∧ t.linkOut = []

/-- R21, R34, R36, R44, R140: the state after reset is in order, for every legal choice of parameters. -/
def Obligations.ResetStateIsInOrder : Prop :=
  Inv State.reset ∧ IdleReady State.reset ∧ ∀ c : Config, c.wf → Inv (State.resetWith c) ∧ IdleReady (State.resetWith c)

/-- R21, R34, R36, R44: every step of every agent keeps the block in order. -/
def Obligations.EveryStepKeepsTheBlockInOrder : Prop :=
  ∀ s t : State, Inv s → step s = .next t → Inv t

/-- R140, R293: every step but a `T.INIT` with a byte in flight keeps "not transmitting implies not busy". -/
def Obligations.EveryStepKeepsIdleMeaningReady : Prop :=
  ∀ s t : State, IdleReady s → ¬ InitInFlight s → step s = .next t → IdleReady t

/-- R139, R140, R213, R263, R267: from a state in order no step breaks a contract: each answers a next state. -/
def Obligations.NoStepFaultsFromAStateInOrder : Prop :=
  ∀ s : State, Inv s → IdleReady s → ∃ t, step s = .next t

/-- R270, R271: in a two-node system each of the two streams gains only the byte that its sending node finishes, and loses
only the byte that its receiving node takes; nothing else puts a byte on it (that a turn of PEER passes there is the
model's form of this: log entry 24). The reset of one node leaves on each stream what the other node's half of it holds,
which is the model's choice (log entry 32). -/
def Obligations.PairStreamsCarryOnlyTheNodesBytes : Prop :=
  (∀ (m : PairMove) (p q : Pair), pairStep m p = .next q →
    (∀ side, m = .node side → (p.node side).sched.head? ≠ some .reset) →
    StreamMoved p.a p.b q.a q.b ∧ StreamMoved p.b p.a q.b q.a) ∧
  (∀ p : Pair,
    (p.a.sched.head? = some .reset → ∃ q, pairStep (.node .a) p = .next q ∧ q.b = p.b
      ∧ streamBytes q.a q.b = p.b.linkIn ∧ streamBytes q.b q.a = p.b.linkOut) ∧
    (p.b.sched.head? = some .reset → ∃ q, pairStep (.node .b) p = .next q ∧ q.a = p.a
      ∧ streamBytes q.b q.a = p.a.linkIn ∧ streamBytes q.a q.b = p.a.linkOut))
end

