-- ==== Sys2Proof/Laws/State.lean ====
section
/-! SUPPORT. One lemma per field per named update of the state, so that no later proof unfolds an update. -/

namespace Sys2Proof.Machine

variable (s : State)

/-! ### `setRing` -/

@[simp] theorem setRing_cfg (q : QueueId) (r : Ring) : (setRing q r s).cfg = s.cfg := by cases q <;> rfl
@[simp] theorem setRing_ls (q : QueueId) (r : Ring) : (setRing q r s).ls = s.ls := by cases q <;> rfl
@[simp] theorem setRing_seqIn (q : QueueId) (r : Ring) : (setRing q r s).seqIn = s.seqIn := by cases q <;> rfl
@[simp] theorem setRing_seqOut (q : QueueId) (r : Ring) : (setRing q r s).seqOut = s.seqOut := by cases q <;> rfl
@[simp] theorem setRing_dreIe (q : QueueId) (r : Ring) : (setRing q r s).dreIe = s.dreIe := by cases q <;> rfl
@[simp] theorem setRing_hcf (q : QueueId) (r : Ring) : (setRing q r s).hcf = s.hcf := by cases q <;> rfl
@[simp] theorem setRing_ecf (q : QueueId) (r : Ring) : (setRing q r s).ecf = s.ecf := by cases q <;> rfl
@[simp] theorem setRing_ctx (q : QueueId) (r : Ring) : (setRing q r s).ctx = s.ctx := by cases q <;> rfl
@[simp] theorem setRing_periph (q : QueueId) (r : Ring) : (setRing q r s).periph = s.periph := by cases q <;> rfl
@[simp] theorem setRing_wireOut (q : QueueId) (r : Ring) : (setRing q r s).wireOut = s.wireOut := by cases q <;> rfl
@[simp] theorem setRing_handlerOut (q : QueueId) (r : Ring) : (setRing q r s).handlerOut = s.handlerOut := by cases q <;> rfl
@[simp] theorem setRing_linkIn (q : QueueId) (r : Ring) : (setRing q r s).linkIn = s.linkIn := by cases q <;> rfl
@[simp] theorem setRing_linkOut (q : QueueId) (r : Ring) : (setRing q r s).linkOut = s.linkOut := by cases q <;> rfl
@[simp] theorem setRing_opAck (q : QueueId) (r : Ring) : (setRing q r s).opAck = s.opAck := by cases q <;> rfl
@[simp] theorem setRing_ret (q : QueueId) (r : Ring) : (setRing q r s).ret = s.ret := by cases q <;> rfl
@[simp] theorem setRing_conds (q : QueueId) (r : Ring) : (setRing q r s).conds = s.conds := by cases q <;> rfl
@[simp] theorem setRing_hostQ (q : QueueId) (r : Ring) : (setRing q r s).hostQ = s.hostQ := by cases q <;> rfl
@[simp] theorem setRing_sched (q : QueueId) (r : Ring) : (setRing q r s).sched = s.sched := by cases q <;> rfl
@[simp] theorem setRing_frame (q : QueueId) (r : Ring) (p : FrameId) : frame p (setRing q r s) = frame p s := by cases p <;> cases q <;> rfl

/-! ### `setFrame` -/

@[simp] theorem setFrame_cfg (f : FrameId) (r : FrameReg) : (setFrame f r s).cfg = s.cfg := by cases f <;> rfl
@[simp] theorem setFrame_rxq (f : FrameId) (r : FrameReg) : (setFrame f r s).rxq = s.rxq := by cases f <;> rfl
@[simp] theorem setFrame_txq (f : FrameId) (r : FrameReg) : (setFrame f r s).txq = s.txq := by cases f <;> rfl
@[simp] theorem setFrame_ls (f : FrameId) (r : FrameReg) : (setFrame f r s).ls = s.ls := by cases f <;> rfl
@[simp] theorem setFrame_seqIn (f : FrameId) (r : FrameReg) : (setFrame f r s).seqIn = s.seqIn := by cases f <;> rfl
@[simp] theorem setFrame_seqOut (f : FrameId) (r : FrameReg) : (setFrame f r s).seqOut = s.seqOut := by cases f <;> rfl
@[simp] theorem setFrame_dreIe (f : FrameId) (r : FrameReg) : (setFrame f r s).dreIe = s.dreIe := by cases f <;> rfl
@[simp] theorem setFrame_ctx (f : FrameId) (r : FrameReg) : (setFrame f r s).ctx = s.ctx := by cases f <;> rfl
@[simp] theorem setFrame_periph (f : FrameId) (r : FrameReg) : (setFrame f r s).periph = s.periph := by cases f <;> rfl
@[simp] theorem setFrame_wireOut (f : FrameId) (r : FrameReg) : (setFrame f r s).wireOut = s.wireOut := by cases f <;> rfl
@[simp] theorem setFrame_handlerOut (f : FrameId) (r : FrameReg) : (setFrame f r s).handlerOut = s.handlerOut := by cases f <;> rfl
@[simp] theorem setFrame_linkIn (f : FrameId) (r : FrameReg) : (setFrame f r s).linkIn = s.linkIn := by cases f <;> rfl
@[simp] theorem setFrame_linkOut (f : FrameId) (r : FrameReg) : (setFrame f r s).linkOut = s.linkOut := by cases f <;> rfl
@[simp] theorem setFrame_opAck (f : FrameId) (r : FrameReg) : (setFrame f r s).opAck = s.opAck := by cases f <;> rfl
@[simp] theorem setFrame_ret (f : FrameId) (r : FrameReg) : (setFrame f r s).ret = s.ret := by cases f <;> rfl
@[simp] theorem setFrame_conds (f : FrameId) (r : FrameReg) : (setFrame f r s).conds = s.conds := by cases f <;> rfl
@[simp] theorem setFrame_hostQ (f : FrameId) (r : FrameReg) : (setFrame f r s).hostQ = s.hostQ := by cases f <;> rfl
@[simp] theorem setFrame_sched (f : FrameId) (r : FrameReg) : (setFrame f r s).sched = s.sched := by cases f <;> rfl
@[simp] theorem setFrame_ring (f : FrameId) (r : FrameReg) (p : QueueId) : ring p (setFrame f r s) = ring p s := by cases p <;> cases f <;> rfl

/-! ### `signal` -/

@[simp] theorem signal_cfg (c : Condition) : (signal c s).cfg = s.cfg := rfl
@[simp] theorem signal_rxq (c : Condition) : (signal c s).rxq = s.rxq := rfl
@[simp] theorem signal_txq (c : Condition) : (signal c s).txq = s.txq := rfl
@[simp] theorem signal_ls (c : Condition) : (signal c s).ls = s.ls := rfl
@[simp] theorem signal_seqIn (c : Condition) : (signal c s).seqIn = s.seqIn := rfl
@[simp] theorem signal_seqOut (c : Condition) : (signal c s).seqOut = s.seqOut := rfl
@[simp] theorem signal_dreIe (c : Condition) : (signal c s).dreIe = s.dreIe := rfl
@[simp] theorem signal_hcf (c : Condition) : (signal c s).hcf = s.hcf := rfl
@[simp] theorem signal_ecf (c : Condition) : (signal c s).ecf = s.ecf := rfl
@[simp] theorem signal_ctx (c : Condition) : (signal c s).ctx = s.ctx := rfl
@[simp] theorem signal_periph (c : Condition) : (signal c s).periph = s.periph := rfl
@[simp] theorem signal_wireOut (c : Condition) : (signal c s).wireOut = s.wireOut := rfl
@[simp] theorem signal_handlerOut (c : Condition) : (signal c s).handlerOut = s.handlerOut := rfl
@[simp] theorem signal_linkIn (c : Condition) : (signal c s).linkIn = s.linkIn := rfl
@[simp] theorem signal_linkOut (c : Condition) : (signal c s).linkOut = s.linkOut := rfl
@[simp] theorem signal_opAck (c : Condition) : (signal c s).opAck = s.opAck := rfl
@[simp] theorem signal_ret (c : Condition) : (signal c s).ret = s.ret := rfl
@[simp] theorem signal_conds (c : Condition) : (signal c s).conds = s.conds ++ [c] := rfl
@[simp] theorem signal_hostQ (c : Condition) : (signal c s).hostQ = s.hostQ := rfl
@[simp] theorem signal_sched (c : Condition) : (signal c s).sched = s.sched := rfl
@[simp] theorem signal_ring (c : Condition) (p : QueueId) : ring p (signal c s) = ring p s := by cases p <;> rfl
@[simp] theorem signal_frame (c : Condition) (p : FrameId) : frame p (signal c s) = frame p s := by cases p <;> rfl

/-! ### `setRet` -/

@[simp] theorem setRet_cfg (r : OpResult) : (setRet r s).cfg = s.cfg := rfl
@[simp] theorem setRet_rxq (r : OpResult) : (setRet r s).rxq = s.rxq := rfl
@[simp] theorem setRet_txq (r : OpResult) : (setRet r s).txq = s.txq := rfl
@[simp] theorem setRet_ls (r : OpResult) : (setRet r s).ls = s.ls := rfl
@[simp] theorem setRet_seqIn (r : OpResult) : (setRet r s).seqIn = s.seqIn := rfl
@[simp] theorem setRet_seqOut (r : OpResult) : (setRet r s).seqOut = s.seqOut := rfl
@[simp] theorem setRet_dreIe (r : OpResult) : (setRet r s).dreIe = s.dreIe := rfl
@[simp] theorem setRet_hcf (r : OpResult) : (setRet r s).hcf = s.hcf := rfl
@[simp] theorem setRet_ecf (r : OpResult) : (setRet r s).ecf = s.ecf := rfl
@[simp] theorem setRet_ctx (r : OpResult) : (setRet r s).ctx = s.ctx := rfl
@[simp] theorem setRet_periph (r : OpResult) : (setRet r s).periph = s.periph := rfl
@[simp] theorem setRet_wireOut (r : OpResult) : (setRet r s).wireOut = s.wireOut := rfl
@[simp] theorem setRet_handlerOut (r : OpResult) : (setRet r s).handlerOut = s.handlerOut := rfl
@[simp] theorem setRet_linkIn (r : OpResult) : (setRet r s).linkIn = s.linkIn := rfl
@[simp] theorem setRet_linkOut (r : OpResult) : (setRet r s).linkOut = s.linkOut := rfl
@[simp] theorem setRet_opAck (r : OpResult) : (setRet r s).opAck = s.opAck := rfl
@[simp] theorem setRet_ret (r : OpResult) : (setRet r s).ret = r := rfl
@[simp] theorem setRet_conds (r : OpResult) : (setRet r s).conds = s.conds := rfl
@[simp] theorem setRet_hostQ (r : OpResult) : (setRet r s).hostQ = s.hostQ := rfl
@[simp] theorem setRet_sched (r : OpResult) : (setRet r s).sched = s.sched := rfl
@[simp] theorem setRet_ring (r : OpResult) (p : QueueId) : ring p (setRet r s) = ring p s := by cases p <;> rfl
@[simp] theorem setRet_frame (r : OpResult) (p : FrameId) : frame p (setRet r s) = frame p s := by cases p <;> rfl

/-! ### `setAck` -/

@[simp] theorem setAck_cfg (b : Bool) : (setAck b s).cfg = s.cfg := rfl
@[simp] theorem setAck_rxq (b : Bool) : (setAck b s).rxq = s.rxq := rfl
@[simp] theorem setAck_txq (b : Bool) : (setAck b s).txq = s.txq := rfl
@[simp] theorem setAck_ls (b : Bool) : (setAck b s).ls = s.ls := rfl
@[simp] theorem setAck_seqIn (b : Bool) : (setAck b s).seqIn = s.seqIn := rfl
@[simp] theorem setAck_seqOut (b : Bool) : (setAck b s).seqOut = s.seqOut := rfl
@[simp] theorem setAck_dreIe (b : Bool) : (setAck b s).dreIe = s.dreIe := rfl
@[simp] theorem setAck_hcf (b : Bool) : (setAck b s).hcf = s.hcf := rfl
@[simp] theorem setAck_ecf (b : Bool) : (setAck b s).ecf = s.ecf := rfl
@[simp] theorem setAck_ctx (b : Bool) : (setAck b s).ctx = s.ctx := rfl
@[simp] theorem setAck_periph (b : Bool) : (setAck b s).periph = s.periph := rfl
@[simp] theorem setAck_wireOut (b : Bool) : (setAck b s).wireOut = s.wireOut := rfl
@[simp] theorem setAck_handlerOut (b : Bool) : (setAck b s).handlerOut = s.handlerOut := rfl
@[simp] theorem setAck_linkIn (b : Bool) : (setAck b s).linkIn = s.linkIn := rfl
@[simp] theorem setAck_linkOut (b : Bool) : (setAck b s).linkOut = s.linkOut := rfl
@[simp] theorem setAck_opAck (b : Bool) : (setAck b s).opAck = b := rfl
@[simp] theorem setAck_ret (b : Bool) : (setAck b s).ret = s.ret := rfl
@[simp] theorem setAck_conds (b : Bool) : (setAck b s).conds = s.conds := rfl
@[simp] theorem setAck_hostQ (b : Bool) : (setAck b s).hostQ = s.hostQ := rfl
@[simp] theorem setAck_sched (b : Bool) : (setAck b s).sched = s.sched := rfl
@[simp] theorem setAck_ring (b : Bool) (p : QueueId) : ring p (setAck b s) = ring p s := by cases p <;> rfl
@[simp] theorem setAck_frame (b : Bool) (p : FrameId) : frame p (setAck b s) = frame p s := by cases p <;> rfl

/-! ### `setSelfWaiting` -/

@[simp] theorem setSelfWaiting_cfg (b : Bool) : (setSelfWaiting b s).cfg = s.cfg := rfl
@[simp] theorem setSelfWaiting_rxq (b : Bool) : (setSelfWaiting b s).rxq = s.rxq := rfl
@[simp] theorem setSelfWaiting_txq (b : Bool) : (setSelfWaiting b s).txq = s.txq := rfl
@[simp] theorem setSelfWaiting_ls (b : Bool) : (setSelfWaiting b s).ls = { s.ls with selfWaiting := b } := rfl
@[simp] theorem setSelfWaiting_seqIn (b : Bool) : (setSelfWaiting b s).seqIn = s.seqIn := rfl
@[simp] theorem setSelfWaiting_seqOut (b : Bool) : (setSelfWaiting b s).seqOut = s.seqOut := rfl
@[simp] theorem setSelfWaiting_dreIe (b : Bool) : (setSelfWaiting b s).dreIe = s.dreIe := rfl
@[simp] theorem setSelfWaiting_hcf (b : Bool) : (setSelfWaiting b s).hcf = s.hcf := rfl
@[simp] theorem setSelfWaiting_ecf (b : Bool) : (setSelfWaiting b s).ecf = s.ecf := rfl
@[simp] theorem setSelfWaiting_ctx (b : Bool) : (setSelfWaiting b s).ctx = s.ctx := rfl
@[simp] theorem setSelfWaiting_periph (b : Bool) : (setSelfWaiting b s).periph = s.periph := rfl
@[simp] theorem setSelfWaiting_wireOut (b : Bool) : (setSelfWaiting b s).wireOut = s.wireOut := rfl
@[simp] theorem setSelfWaiting_handlerOut (b : Bool) : (setSelfWaiting b s).handlerOut = s.handlerOut := rfl
@[simp] theorem setSelfWaiting_linkIn (b : Bool) : (setSelfWaiting b s).linkIn = s.linkIn := rfl
@[simp] theorem setSelfWaiting_linkOut (b : Bool) : (setSelfWaiting b s).linkOut = s.linkOut := rfl
@[simp] theorem setSelfWaiting_opAck (b : Bool) : (setSelfWaiting b s).opAck = s.opAck := rfl
@[simp] theorem setSelfWaiting_ret (b : Bool) : (setSelfWaiting b s).ret = s.ret := rfl
@[simp] theorem setSelfWaiting_conds (b : Bool) : (setSelfWaiting b s).conds = s.conds := rfl
@[simp] theorem setSelfWaiting_hostQ (b : Bool) : (setSelfWaiting b s).hostQ = s.hostQ := rfl
@[simp] theorem setSelfWaiting_sched (b : Bool) : (setSelfWaiting b s).sched = s.sched := rfl
@[simp] theorem setSelfWaiting_ring (b : Bool) (p : QueueId) : ring p (setSelfWaiting b s) = ring p s := by cases p <;> rfl
@[simp] theorem setSelfWaiting_frame (b : Bool) (p : FrameId) : frame p (setSelfWaiting b s) = frame p s := by cases p <;> rfl

/-! ### `setPartnerWaiting` -/

@[simp] theorem setPartnerWaiting_cfg (b : Bool) : (setPartnerWaiting b s).cfg = s.cfg := rfl
@[simp] theorem setPartnerWaiting_rxq (b : Bool) : (setPartnerWaiting b s).rxq = s.rxq := rfl
@[simp] theorem setPartnerWaiting_txq (b : Bool) : (setPartnerWaiting b s).txq = s.txq := rfl
@[simp] theorem setPartnerWaiting_ls (b : Bool) : (setPartnerWaiting b s).ls = { s.ls with partnerWaiting := b } := rfl
@[simp] theorem setPartnerWaiting_seqIn (b : Bool) : (setPartnerWaiting b s).seqIn = s.seqIn := rfl
@[simp] theorem setPartnerWaiting_seqOut (b : Bool) : (setPartnerWaiting b s).seqOut = s.seqOut := rfl
@[simp] theorem setPartnerWaiting_dreIe (b : Bool) : (setPartnerWaiting b s).dreIe = s.dreIe := rfl
@[simp] theorem setPartnerWaiting_hcf (b : Bool) : (setPartnerWaiting b s).hcf = s.hcf := rfl
@[simp] theorem setPartnerWaiting_ecf (b : Bool) : (setPartnerWaiting b s).ecf = s.ecf := rfl
@[simp] theorem setPartnerWaiting_ctx (b : Bool) : (setPartnerWaiting b s).ctx = s.ctx := rfl
@[simp] theorem setPartnerWaiting_periph (b : Bool) : (setPartnerWaiting b s).periph = s.periph := rfl
@[simp] theorem setPartnerWaiting_wireOut (b : Bool) : (setPartnerWaiting b s).wireOut = s.wireOut := rfl
@[simp] theorem setPartnerWaiting_handlerOut (b : Bool) : (setPartnerWaiting b s).handlerOut = s.handlerOut := rfl
@[simp] theorem setPartnerWaiting_linkIn (b : Bool) : (setPartnerWaiting b s).linkIn = s.linkIn := rfl
@[simp] theorem setPartnerWaiting_linkOut (b : Bool) : (setPartnerWaiting b s).linkOut = s.linkOut := rfl
@[simp] theorem setPartnerWaiting_opAck (b : Bool) : (setPartnerWaiting b s).opAck = s.opAck := rfl
@[simp] theorem setPartnerWaiting_ret (b : Bool) : (setPartnerWaiting b s).ret = s.ret := rfl
@[simp] theorem setPartnerWaiting_conds (b : Bool) : (setPartnerWaiting b s).conds = s.conds := rfl
@[simp] theorem setPartnerWaiting_hostQ (b : Bool) : (setPartnerWaiting b s).hostQ = s.hostQ := rfl
@[simp] theorem setPartnerWaiting_sched (b : Bool) : (setPartnerWaiting b s).sched = s.sched := rfl
@[simp] theorem setPartnerWaiting_ring (b : Bool) (p : QueueId) : ring p (setPartnerWaiting b s) = ring p s := by cases p <;> rfl
@[simp] theorem setPartnerWaiting_frame (b : Bool) (p : FrameId) : frame p (setPartnerWaiting b s) = frame p s := by cases p <;> rfl

/-! ### `setRequestSelfWait` -/

@[simp] theorem setRequestSelfWait_cfg (b : Bool) : (setRequestSelfWait b s).cfg = s.cfg := rfl
@[simp] theorem setRequestSelfWait_rxq (b : Bool) : (setRequestSelfWait b s).rxq = s.rxq := rfl
@[simp] theorem setRequestSelfWait_txq (b : Bool) : (setRequestSelfWait b s).txq = s.txq := rfl
@[simp] theorem setRequestSelfWait_ls (b : Bool) : (setRequestSelfWait b s).ls = { s.ls with requestSelfWait := b } := rfl
@[simp] theorem setRequestSelfWait_seqIn (b : Bool) : (setRequestSelfWait b s).seqIn = s.seqIn := rfl
@[simp] theorem setRequestSelfWait_seqOut (b : Bool) : (setRequestSelfWait b s).seqOut = s.seqOut := rfl
@[simp] theorem setRequestSelfWait_dreIe (b : Bool) : (setRequestSelfWait b s).dreIe = s.dreIe := rfl
@[simp] theorem setRequestSelfWait_hcf (b : Bool) : (setRequestSelfWait b s).hcf = s.hcf := rfl
@[simp] theorem setRequestSelfWait_ecf (b : Bool) : (setRequestSelfWait b s).ecf = s.ecf := rfl
@[simp] theorem setRequestSelfWait_ctx (b : Bool) : (setRequestSelfWait b s).ctx = s.ctx := rfl
@[simp] theorem setRequestSelfWait_periph (b : Bool) : (setRequestSelfWait b s).periph = s.periph := rfl
@[simp] theorem setRequestSelfWait_wireOut (b : Bool) : (setRequestSelfWait b s).wireOut = s.wireOut := rfl
@[simp] theorem setRequestSelfWait_handlerOut (b : Bool) : (setRequestSelfWait b s).handlerOut = s.handlerOut := rfl
@[simp] theorem setRequestSelfWait_linkIn (b : Bool) : (setRequestSelfWait b s).linkIn = s.linkIn := rfl
@[simp] theorem setRequestSelfWait_linkOut (b : Bool) : (setRequestSelfWait b s).linkOut = s.linkOut := rfl
@[simp] theorem setRequestSelfWait_opAck (b : Bool) : (setRequestSelfWait b s).opAck = s.opAck := rfl
@[simp] theorem setRequestSelfWait_ret (b : Bool) : (setRequestSelfWait b s).ret = s.ret := rfl
@[simp] theorem setRequestSelfWait_conds (b : Bool) : (setRequestSelfWait b s).conds = s.conds := rfl
@[simp] theorem setRequestSelfWait_hostQ (b : Bool) : (setRequestSelfWait b s).hostQ = s.hostQ := rfl
@[simp] theorem setRequestSelfWait_sched (b : Bool) : (setRequestSelfWait b s).sched = s.sched := rfl
@[simp] theorem setRequestSelfWait_ring (b : Bool) (p : QueueId) : ring p (setRequestSelfWait b s) = ring p s := by cases p <;> rfl
@[simp] theorem setRequestSelfWait_frame (b : Bool) (p : FrameId) : frame p (setRequestSelfWait b s) = frame p s := by cases p <;> rfl

/-! ### `setWaitingAck` -/

@[simp] theorem setWaitingAck_cfg (b : Bool) : (setWaitingAck b s).cfg = s.cfg := rfl
@[simp] theorem setWaitingAck_rxq (b : Bool) : (setWaitingAck b s).rxq = s.rxq := rfl
@[simp] theorem setWaitingAck_txq (b : Bool) : (setWaitingAck b s).txq = s.txq := rfl
@[simp] theorem setWaitingAck_ls (b : Bool) : (setWaitingAck b s).ls = { s.ls with waitingAck := b } := rfl
@[simp] theorem setWaitingAck_seqIn (b : Bool) : (setWaitingAck b s).seqIn = s.seqIn := rfl
@[simp] theorem setWaitingAck_seqOut (b : Bool) : (setWaitingAck b s).seqOut = s.seqOut := rfl
@[simp] theorem setWaitingAck_dreIe (b : Bool) : (setWaitingAck b s).dreIe = s.dreIe := rfl
@[simp] theorem setWaitingAck_hcf (b : Bool) : (setWaitingAck b s).hcf = s.hcf := rfl
@[simp] theorem setWaitingAck_ecf (b : Bool) : (setWaitingAck b s).ecf = s.ecf := rfl
@[simp] theorem setWaitingAck_ctx (b : Bool) : (setWaitingAck b s).ctx = s.ctx := rfl
@[simp] theorem setWaitingAck_periph (b : Bool) : (setWaitingAck b s).periph = s.periph := rfl
@[simp] theorem setWaitingAck_wireOut (b : Bool) : (setWaitingAck b s).wireOut = s.wireOut := rfl
@[simp] theorem setWaitingAck_handlerOut (b : Bool) : (setWaitingAck b s).handlerOut = s.handlerOut := rfl
@[simp] theorem setWaitingAck_linkIn (b : Bool) : (setWaitingAck b s).linkIn = s.linkIn := rfl
@[simp] theorem setWaitingAck_linkOut (b : Bool) : (setWaitingAck b s).linkOut = s.linkOut := rfl
@[simp] theorem setWaitingAck_opAck (b : Bool) : (setWaitingAck b s).opAck = s.opAck := rfl
@[simp] theorem setWaitingAck_ret (b : Bool) : (setWaitingAck b s).ret = s.ret := rfl
@[simp] theorem setWaitingAck_conds (b : Bool) : (setWaitingAck b s).conds = s.conds := rfl
@[simp] theorem setWaitingAck_hostQ (b : Bool) : (setWaitingAck b s).hostQ = s.hostQ := rfl
@[simp] theorem setWaitingAck_sched (b : Bool) : (setWaitingAck b s).sched = s.sched := rfl
@[simp] theorem setWaitingAck_ring (b : Bool) (p : QueueId) : ring p (setWaitingAck b s) = ring p s := by cases p <;> rfl
@[simp] theorem setWaitingAck_frame (b : Bool) (p : FrameId) : frame p (setWaitingAck b s) = frame p s := by cases p <;> rfl

/-! ### `setTransmitting` -/

@[simp] theorem setTransmitting_cfg (b : Bool) : (setTransmitting b s).cfg = s.cfg := rfl
@[simp] theorem setTransmitting_rxq (b : Bool) : (setTransmitting b s).rxq = s.rxq := rfl
@[simp] theorem setTransmitting_txq (b : Bool) : (setTransmitting b s).txq = s.txq := rfl
@[simp] theorem setTransmitting_ls (b : Bool) : (setTransmitting b s).ls = { s.ls with transmitting := b } := rfl
@[simp] theorem setTransmitting_seqIn (b : Bool) : (setTransmitting b s).seqIn = s.seqIn := rfl
@[simp] theorem setTransmitting_seqOut (b : Bool) : (setTransmitting b s).seqOut = s.seqOut := rfl
@[simp] theorem setTransmitting_dreIe (b : Bool) : (setTransmitting b s).dreIe = s.dreIe := rfl
@[simp] theorem setTransmitting_hcf (b : Bool) : (setTransmitting b s).hcf = s.hcf := rfl
@[simp] theorem setTransmitting_ecf (b : Bool) : (setTransmitting b s).ecf = s.ecf := rfl
@[simp] theorem setTransmitting_ctx (b : Bool) : (setTransmitting b s).ctx = s.ctx := rfl
@[simp] theorem setTransmitting_periph (b : Bool) : (setTransmitting b s).periph = s.periph := rfl
@[simp] theorem setTransmitting_wireOut (b : Bool) : (setTransmitting b s).wireOut = s.wireOut := rfl
@[simp] theorem setTransmitting_handlerOut (b : Bool) : (setTransmitting b s).handlerOut = s.handlerOut := rfl
@[simp] theorem setTransmitting_linkIn (b : Bool) : (setTransmitting b s).linkIn = s.linkIn := rfl
@[simp] theorem setTransmitting_linkOut (b : Bool) : (setTransmitting b s).linkOut = s.linkOut := rfl
@[simp] theorem setTransmitting_opAck (b : Bool) : (setTransmitting b s).opAck = s.opAck := rfl
@[simp] theorem setTransmitting_ret (b : Bool) : (setTransmitting b s).ret = s.ret := rfl
@[simp] theorem setTransmitting_conds (b : Bool) : (setTransmitting b s).conds = s.conds := rfl
@[simp] theorem setTransmitting_hostQ (b : Bool) : (setTransmitting b s).hostQ = s.hostQ := rfl
@[simp] theorem setTransmitting_sched (b : Bool) : (setTransmitting b s).sched = s.sched := rfl
@[simp] theorem setTransmitting_ring (b : Bool) (p : QueueId) : ring p (setTransmitting b s) = ring p s := by cases p <;> rfl
@[simp] theorem setTransmitting_frame (b : Bool) (p : FrameId) : frame p (setTransmitting b s) = frame p s := by cases p <;> rfl

/-! ### `setDreIe` -/

@[simp] theorem setDreIe_cfg (b : Bool) : (setDreIe b s).cfg = s.cfg := rfl
@[simp] theorem setDreIe_rxq (b : Bool) : (setDreIe b s).rxq = s.rxq := rfl
@[simp] theorem setDreIe_txq (b : Bool) : (setDreIe b s).txq = s.txq := rfl
@[simp] theorem setDreIe_ls (b : Bool) : (setDreIe b s).ls = s.ls := rfl
@[simp] theorem setDreIe_seqIn (b : Bool) : (setDreIe b s).seqIn = s.seqIn := rfl
@[simp] theorem setDreIe_seqOut (b : Bool) : (setDreIe b s).seqOut = s.seqOut := rfl
@[simp] theorem setDreIe_dreIe (b : Bool) : (setDreIe b s).dreIe = b := rfl
@[simp] theorem setDreIe_hcf (b : Bool) : (setDreIe b s).hcf = s.hcf := rfl
@[simp] theorem setDreIe_ecf (b : Bool) : (setDreIe b s).ecf = s.ecf := rfl
@[simp] theorem setDreIe_ctx (b : Bool) : (setDreIe b s).ctx = s.ctx := rfl
@[simp] theorem setDreIe_periph (b : Bool) : (setDreIe b s).periph = s.periph := rfl
@[simp] theorem setDreIe_wireOut (b : Bool) : (setDreIe b s).wireOut = s.wireOut := rfl
@[simp] theorem setDreIe_handlerOut (b : Bool) : (setDreIe b s).handlerOut = s.handlerOut := rfl
@[simp] theorem setDreIe_linkIn (b : Bool) : (setDreIe b s).linkIn = s.linkIn := rfl
@[simp] theorem setDreIe_linkOut (b : Bool) : (setDreIe b s).linkOut = s.linkOut := rfl
@[simp] theorem setDreIe_opAck (b : Bool) : (setDreIe b s).opAck = s.opAck := rfl
@[simp] theorem setDreIe_ret (b : Bool) : (setDreIe b s).ret = s.ret := rfl
@[simp] theorem setDreIe_conds (b : Bool) : (setDreIe b s).conds = s.conds := rfl
@[simp] theorem setDreIe_hostQ (b : Bool) : (setDreIe b s).hostQ = s.hostQ := rfl
@[simp] theorem setDreIe_sched (b : Bool) : (setDreIe b s).sched = s.sched := rfl
@[simp] theorem setDreIe_ring (b : Bool) (p : QueueId) : ring p (setDreIe b s) = ring p s := by cases p <;> rfl
@[simp] theorem setDreIe_frame (b : Bool) (p : FrameId) : frame p (setDreIe b s) = frame p s := by cases p <;> rfl

/-! ### `transmitByte` -/

@[simp] theorem transmitByte_cfg (b : Byte) : (transmitByte b s).cfg = s.cfg := rfl
@[simp] theorem transmitByte_rxq (b : Byte) : (transmitByte b s).rxq = s.rxq := rfl
@[simp] theorem transmitByte_txq (b : Byte) : (transmitByte b s).txq = s.txq := rfl
@[simp] theorem transmitByte_ls (b : Byte) : (transmitByte b s).ls = s.ls := rfl
@[simp] theorem transmitByte_seqIn (b : Byte) : (transmitByte b s).seqIn = s.seqIn := rfl
@[simp] theorem transmitByte_seqOut (b : Byte) : (transmitByte b s).seqOut = s.seqOut := rfl
@[simp] theorem transmitByte_dreIe (b : Byte) : (transmitByte b s).dreIe = s.dreIe := rfl
@[simp] theorem transmitByte_hcf (b : Byte) : (transmitByte b s).hcf = s.hcf := rfl
@[simp] theorem transmitByte_ecf (b : Byte) : (transmitByte b s).ecf = s.ecf := rfl
@[simp] theorem transmitByte_ctx (b : Byte) : (transmitByte b s).ctx = s.ctx := rfl
@[simp] theorem transmitByte_periph (b : Byte) : (transmitByte b s).periph = { s.periph with txBusy := true, txData := b } := rfl
@[simp] theorem transmitByte_wireOut (b : Byte) : (transmitByte b s).wireOut = s.wireOut ++ [b] := rfl
@[simp] theorem transmitByte_handlerOut (b : Byte) : (transmitByte b s).handlerOut = s.handlerOut := rfl
@[simp] theorem transmitByte_linkIn (b : Byte) : (transmitByte b s).linkIn = s.linkIn := rfl
@[simp] theorem transmitByte_linkOut (b : Byte) : (transmitByte b s).linkOut = s.linkOut := rfl
@[simp] theorem transmitByte_opAck (b : Byte) : (transmitByte b s).opAck = s.opAck := rfl
@[simp] theorem transmitByte_ret (b : Byte) : (transmitByte b s).ret = s.ret := rfl
@[simp] theorem transmitByte_conds (b : Byte) : (transmitByte b s).conds = s.conds := rfl
@[simp] theorem transmitByte_hostQ (b : Byte) : (transmitByte b s).hostQ = s.hostQ := rfl
@[simp] theorem transmitByte_sched (b : Byte) : (transmitByte b s).sched = s.sched := rfl
@[simp] theorem transmitByte_ring (b : Byte) (p : QueueId) : ring p (transmitByte b s) = ring p s := by cases p <;> rfl
@[simp] theorem transmitByte_frame (b : Byte) (p : FrameId) : frame p (transmitByte b s) = frame p s := by cases p <;> rfl

/-! ### `receiveByte` -/

@[simp] theorem receiveByte_cfg : (receiveByte s).cfg = s.cfg := rfl
@[simp] theorem receiveByte_rxq : (receiveByte s).rxq = s.rxq := rfl
@[simp] theorem receiveByte_txq : (receiveByte s).txq = s.txq := rfl
@[simp] theorem receiveByte_ls : (receiveByte s).ls = s.ls := rfl
@[simp] theorem receiveByte_seqIn : (receiveByte s).seqIn = s.seqIn := rfl
@[simp] theorem receiveByte_seqOut : (receiveByte s).seqOut = s.seqOut := rfl
@[simp] theorem receiveByte_dreIe : (receiveByte s).dreIe = s.dreIe := rfl
@[simp] theorem receiveByte_hcf : (receiveByte s).hcf = s.hcf := rfl
@[simp] theorem receiveByte_ecf : (receiveByte s).ecf = s.ecf := rfl
@[simp] theorem receiveByte_ctx : (receiveByte s).ctx = s.ctx := rfl
@[simp] theorem receiveByte_periph : (receiveByte s).periph = { s.periph with rxFull := false } := rfl
@[simp] theorem receiveByte_wireOut : (receiveByte s).wireOut = s.wireOut := rfl
@[simp] theorem receiveByte_handlerOut : (receiveByte s).handlerOut = s.handlerOut := rfl
@[simp] theorem receiveByte_linkIn : (receiveByte s).linkIn = s.linkIn := rfl
@[simp] theorem receiveByte_linkOut : (receiveByte s).linkOut = s.linkOut := rfl
@[simp] theorem receiveByte_opAck : (receiveByte s).opAck = s.opAck := rfl
@[simp] theorem receiveByte_ret : (receiveByte s).ret = s.ret := rfl
@[simp] theorem receiveByte_conds : (receiveByte s).conds = s.conds := rfl
@[simp] theorem receiveByte_hostQ : (receiveByte s).hostQ = s.hostQ := rfl
@[simp] theorem receiveByte_sched : (receiveByte s).sched = s.sched := rfl
@[simp] theorem receiveByte_ring (p : QueueId) : ring p (receiveByte s) = ring p s := by cases p <;> rfl
@[simp] theorem receiveByte_frame (p : FrameId) : frame p (receiveByte s) = frame p s := by cases p <;> rfl

/-! ### `bumpSeqOut` -/

@[simp] theorem bumpSeqOut_cfg : (bumpSeqOut s).cfg = s.cfg := rfl
@[simp] theorem bumpSeqOut_rxq : (bumpSeqOut s).rxq = s.rxq := rfl
@[simp] theorem bumpSeqOut_txq : (bumpSeqOut s).txq = s.txq := rfl
@[simp] theorem bumpSeqOut_ls : (bumpSeqOut s).ls = s.ls := rfl
@[simp] theorem bumpSeqOut_seqIn : (bumpSeqOut s).seqIn = s.seqIn := rfl
@[simp] theorem bumpSeqOut_seqOut : (bumpSeqOut s).seqOut = inc8 s.seqOut := rfl
@[simp] theorem bumpSeqOut_dreIe : (bumpSeqOut s).dreIe = s.dreIe := rfl
@[simp] theorem bumpSeqOut_hcf : (bumpSeqOut s).hcf = s.hcf := rfl
@[simp] theorem bumpSeqOut_ecf : (bumpSeqOut s).ecf = s.ecf := rfl
@[simp] theorem bumpSeqOut_ctx : (bumpSeqOut s).ctx = s.ctx := rfl
@[simp] theorem bumpSeqOut_periph : (bumpSeqOut s).periph = s.periph := rfl
@[simp] theorem bumpSeqOut_wireOut : (bumpSeqOut s).wireOut = s.wireOut := rfl
@[simp] theorem bumpSeqOut_handlerOut : (bumpSeqOut s).handlerOut = s.handlerOut := rfl
@[simp] theorem bumpSeqOut_linkIn : (bumpSeqOut s).linkIn = s.linkIn := rfl
@[simp] theorem bumpSeqOut_linkOut : (bumpSeqOut s).linkOut = s.linkOut := rfl
@[simp] theorem bumpSeqOut_opAck : (bumpSeqOut s).opAck = s.opAck := rfl
@[simp] theorem bumpSeqOut_ret : (bumpSeqOut s).ret = s.ret := rfl
@[simp] theorem bumpSeqOut_conds : (bumpSeqOut s).conds = s.conds := rfl
@[simp] theorem bumpSeqOut_hostQ : (bumpSeqOut s).hostQ = s.hostQ := rfl
@[simp] theorem bumpSeqOut_sched : (bumpSeqOut s).sched = s.sched := rfl
@[simp] theorem bumpSeqOut_ring (p : QueueId) : ring p (bumpSeqOut s) = ring p s := by cases p <;> rfl
@[simp] theorem bumpSeqOut_frame (p : FrameId) : frame p (bumpSeqOut s) = frame p s := by cases p <;> rfl

/-! ### `bumpSeqIn` -/

@[simp] theorem bumpSeqIn_cfg : (bumpSeqIn s).cfg = s.cfg := rfl
@[simp] theorem bumpSeqIn_rxq : (bumpSeqIn s).rxq = s.rxq := rfl
@[simp] theorem bumpSeqIn_txq : (bumpSeqIn s).txq = s.txq := rfl
@[simp] theorem bumpSeqIn_ls : (bumpSeqIn s).ls = s.ls := rfl
@[simp] theorem bumpSeqIn_seqIn : (bumpSeqIn s).seqIn = inc8 s.seqIn := rfl
@[simp] theorem bumpSeqIn_seqOut : (bumpSeqIn s).seqOut = s.seqOut := rfl
@[simp] theorem bumpSeqIn_dreIe : (bumpSeqIn s).dreIe = s.dreIe := rfl
@[simp] theorem bumpSeqIn_hcf : (bumpSeqIn s).hcf = s.hcf := rfl
@[simp] theorem bumpSeqIn_ecf : (bumpSeqIn s).ecf = s.ecf := rfl
@[simp] theorem bumpSeqIn_ctx : (bumpSeqIn s).ctx = s.ctx := rfl
@[simp] theorem bumpSeqIn_periph : (bumpSeqIn s).periph = s.periph := rfl
@[simp] theorem bumpSeqIn_wireOut : (bumpSeqIn s).wireOut = s.wireOut := rfl
@[simp] theorem bumpSeqIn_handlerOut : (bumpSeqIn s).handlerOut = s.handlerOut := rfl
@[simp] theorem bumpSeqIn_linkIn : (bumpSeqIn s).linkIn = s.linkIn := rfl
@[simp] theorem bumpSeqIn_linkOut : (bumpSeqIn s).linkOut = s.linkOut := rfl
@[simp] theorem bumpSeqIn_opAck : (bumpSeqIn s).opAck = s.opAck := rfl
@[simp] theorem bumpSeqIn_ret : (bumpSeqIn s).ret = s.ret := rfl
@[simp] theorem bumpSeqIn_conds : (bumpSeqIn s).conds = s.conds := rfl
@[simp] theorem bumpSeqIn_hostQ : (bumpSeqIn s).hostQ = s.hostQ := rfl
@[simp] theorem bumpSeqIn_sched : (bumpSeqIn s).sched = s.sched := rfl
@[simp] theorem bumpSeqIn_ring (p : QueueId) : ring p (bumpSeqIn s) = ring p s := by cases p <;> rfl
@[simp] theorem bumpSeqIn_frame (p : FrameId) : frame p (bumpSeqIn s) = frame p s := by cases p <;> rfl

/-! ### Queues and frame registers by name -/

@[simp] theorem ring_rxq : ring .rxq s = s.rxq := rfl
@[simp] theorem ring_txq : ring .txq s = s.txq := rfl
@[simp] theorem frame_hcf : frame .hcf s = s.hcf := rfl
@[simp] theorem frame_ecf : frame .ecf s = s.ecf := rfl
@[simp] theorem ring_setRing (q : QueueId) (r : Ring) : ring q (setRing q r s) = r := by cases q <;> rfl
@[simp] theorem frame_setFrame (f : FrameId) (r : FrameReg) : frame f (setFrame f r s) = r := by cases f <;> rfl
@[simp] theorem setRing_setRing (q : QueueId) (r r' : Ring) : setRing q r' (setRing q r s) = setRing q r' s := by
  cases q <;> rfl
@[simp] theorem setRing_ring (q : QueueId) : setRing q (ring q s) s = s := by cases q <;> rfl
@[simp] theorem setFrame_setFrame (f : FrameId) (r r' : FrameReg) : setFrame f r' (setFrame f r s) = setFrame f r' s := by
  cases f <;> rfl
@[simp] theorem setFrame_frame (f : FrameId) : setFrame f (frame f s) s = s := by cases f <;> rfl
@[simp] theorem setRing_rxq_rxq (r : Ring) : (setRing .rxq r s).rxq = r := rfl
@[simp] theorem setRing_rxq_txq (r : Ring) : (setRing .rxq r s).txq = s.txq := rfl
@[simp] theorem setRing_txq_txq (r : Ring) : (setRing .txq r s).txq = r := rfl
@[simp] theorem setRing_txq_rxq (r : Ring) : (setRing .txq r s).rxq = s.rxq := rfl
@[simp] theorem setFrame_hcf_hcf (r : FrameReg) : (setFrame .hcf r s).hcf = r := rfl
@[simp] theorem setFrame_hcf_ecf (r : FrameReg) : (setFrame .hcf r s).ecf = s.ecf := rfl
@[simp] theorem setFrame_ecf_ecf (r : FrameReg) : (setFrame .ecf r s).ecf = r := rfl
@[simp] theorem setFrame_ecf_hcf (r : FrameReg) : (setFrame .ecf r s).hcf = s.hcf := rfl

end Sys2Proof.Machine
end

