-- ==== Sys2Proof/Laws/Store.lean ====
section
/-! SUPPORT. The laws of a byte store: read after write, and the canonical form is kept by every write. -/

namespace Sys2Proof.Machine

@[simp] theorem storeRead_nil (i : Nat) : storeRead [] i = none := rfl

theorem storeRead_write_same (m : Store) (i : Nat) (v : Byte) : storeRead (storeWrite m i v) i = some v := by
  induction m with
  | nil => simp [storeWrite, storeRead]
  | cons c m ih =>
    obtain ⟨a, b⟩ := c
    simp only [storeWrite]
    split
    · simp [storeRead]
    · split
      · simp [storeRead]
      · have h : a ≠ i := by omega
        simp [storeRead, h, ih]

theorem storeRead_write_other (m : Store) {i j : Nat} (v : Byte) (h : j ≠ i) :
    storeRead (storeWrite m i v) j = storeRead m j := by
  induction m with
  | nil => simp [storeWrite, storeRead, h.symm]
  | cons c m ih =>
    obtain ⟨a, b⟩ := c
    simp only [storeWrite]
    split
    · simp [storeRead, h.symm]
    · split
      · rename_i h2
        subst h2
        simp [storeRead, h.symm]
      · simp [storeRead, ih]

/-- What a write can do to a read, in one equation. -/
@[simp] theorem storeRead_write (m : Store) (i j : Nat) (v : Byte) :
    storeRead (storeWrite m i v) j = if j = i then some v else storeRead m j := by
  split
  · rename_i h; subst h; exact storeRead_write_same m j v
  · rename_i h; exact storeRead_write_other m v h

@[simp] theorem storeByte_write (id : StoreId) (m : Store) (i j : Nat) (v : Byte) :
    storeByte id (storeWrite m i v) j = if j = i then v else storeByte id m j := by
  unfold storeByte
  rw [storeRead_write]
  split <;> rfl

theorem mem_storeWrite {m : Store} {i : Nat} {v : Byte} {c : Host.Cell} (h : c ∈ storeWrite m i v) :
    c = (i, v) ∨ c ∈ m := by
  induction m with
  | nil => simpa [storeWrite] using h
  | cons d m ih =>
    obtain ⟨a, b⟩ := d
    simp only [storeWrite] at h
    split at h
    · simpa using h
    · split at h
      · rcases List.mem_cons.1 h with h | h
        · exact .inl h
        · exact .inr (List.mem_cons_of_mem _ h)
      · rcases List.mem_cons.1 h with h | h
        · exact .inr (by simp [h])
        · rcases ih h with h | h
          · exact .inl h
          · exact .inr (List.mem_cons_of_mem _ h)

/-- A write keeps the canonical form. -/
theorem storeWrite_wf {m : Store} (i : Nat) (v : Byte) (h : Store.wf m) : Store.wf (storeWrite m i v) := by
  induction m with
  | nil => simp [storeWrite]
  | cons d m ih =>
    obtain ⟨a, b⟩ := d
    have ha := List.pairwise_cons.1 h
    simp only [storeWrite]
    split
    · rename_i hlt
      refine List.pairwise_cons.2 ⟨fun c hc => ?_, h⟩
      rcases List.mem_cons.1 hc with rfl | hc
      · exact hlt
      · exact Nat.lt_trans hlt (ha.1 c hc)
    · split
      · rename_i heq
        subst heq
        exact List.pairwise_cons.2 ⟨ha.1, ha.2⟩
      · refine List.pairwise_cons.2 ⟨fun c hc => ?_, ih ha.2⟩
        rcases mem_storeWrite hc with rfl | hc
        · simp only; omega
        · exact ha.1 c hc

/-- A write at an index below a bound keeps every index below it. -/
theorem storeWrite_bound {m : Store} {i n : Nat} (v : Byte) (hi : i < n) (h : ∀ c ∈ m, c.1 < n) :
    ∀ c ∈ storeWrite m i v, c.1 < n := by
  intro c hc
  rcases mem_storeWrite hc with rfl | hc
  · exact hi
  · exact h c hc

end Sys2Proof.Machine
end

