-- ==== Sys2Proof/Laws/Ring.lean ====
section
/-! SUPPORT. What each ring-buffer operation does to the contents of a buffer in order, and that it stays in order. -/

namespace Sys2Proof.Machine

variable {n : Nat} {r : Ring} {id : StoreId} {b : Byte}

@[simp] theorem contents_length : (contents id n r).length = r.count := by simp [contents]

theorem contents_empty (m : Store) : contents id n (Ring.empty m) = [] := rfl

theorem ringOk_empty {m : Store} (hn : 1 ≤ n) (hm : Store.wf m) (hb : ∀ c ∈ m, c.1 < n) : RingOk n (Ring.empty m) := by
  refine ⟨hm, hb, ?_, ?_, ?_, ?_, ?_⟩ <;> simp [Ring.empty] <;> omega

/-- R21 as an equation for the tail. -/
theorem RingOk.tail_eq (h : RingOk n r) : r.tail = (r.head + r.count) % n := by
  obtain ⟨_, _, h1, h2, h3, h4, _⟩ := h
  rcases Nat.lt_or_ge r.count n with hc | hc
  · rw [Nat.mod_eq_of_lt hc] at h4
    rcases Nat.lt_or_ge r.tail r.head with ht | ht
    · rw [Nat.mod_eq_of_lt (by omega)] at h4
      have : r.head + r.count = r.tail + n := by omega
      rw [this, Nat.add_mod_right, Nat.mod_eq_of_lt h2]
    · have : r.tail + n - r.head = (r.tail - r.head) + n := by omega
      rw [this, Nat.add_mod_right, Nat.mod_eq_of_lt (by omega)] at h4
      have : r.head + r.count = r.tail := by omega
      rw [this, Nat.mod_eq_of_lt h2]
  · have hc : r.count = n := by omega
    rw [hc, Nat.mod_self] at h4
    rw [hc, Nat.add_mod_right, Nat.mod_eq_of_lt h1]
    rcases Nat.lt_or_ge r.tail r.head with ht | ht
    · rw [Nat.mod_eq_of_lt (by omega)] at h4; omega
    · have : r.tail + n - r.head = (r.tail - r.head) + n := by omega
      rw [this, Nat.add_mod_right, Nat.mod_eq_of_lt (by omega)] at h4; omega

/-- R21's congruence from the equation for the tail. -/
theorem congr_of_tail (hh : r.head < n) (ht : r.tail = (r.head + r.count) % n) (hc : r.count ≤ n) :
    (r.tail + n - r.head) % n = r.count % n := by
  rcases Nat.lt_or_ge (r.head + r.count) n with h | h
  · rw [ht, Nat.mod_eq_of_lt h]
    have : r.head + r.count + n - r.head = r.count + n := by omega
    rw [this, Nat.add_mod_right]
  · have h2 : (r.head + r.count) % n = r.head + r.count - n := by
      rcases Nat.lt_or_ge (r.head + r.count) (n + n) with h3 | h3
      · rw [Nat.mod_eq_sub_mod h, Nat.mod_eq_of_lt (by omega)]
      · omega
    rw [ht, h2]
    congr 1
    omega

theorem slot_ne {h i j : Nat} (hi : i < j) (hj : j < n) : (h + i) % n ≠ (h + j) % n := by
  intro e
  have e2 : i % n = j % n := Nat.ModEq.add_left_cancel' h e
  rw [Nat.mod_eq_of_lt (by omega), Nat.mod_eq_of_lt hj] at e2
  omega

/-- A push below capacity appends the byte to the contents (R111, R119). -/
theorem contents_pushed (h : RingOk n r) (hc : r.count < n) : contents id n (r.pushed n b) = contents id n r ++ [b] := by
  have ht := h.tail_eq
  simp only [contents, Ring.pushed, List.range_succ, List.map_append, List.map_cons, List.map_nil]
  congr 1
  · refine List.map_congr_left fun i hi => ?_
    have hi : i < r.count := List.mem_range.1 hi
    rw [storeByte_write, if_neg]
    rw [ht]
    exact slot_ne hi hc
  · rw [storeByte_write, if_pos ht.symm]

theorem RingOk.pushed (h : RingOk n r) (hc : r.count < n) : RingOk n (r.pushed n b) := by
  have ht := h.tail_eq
  obtain ⟨h1, h2, h3, h4, h5, h6, h7⟩ := h
  refine ⟨storeWrite_wf _ _ h1, storeWrite_bound _ h4 h2, h3, Nat.mod_lt _ (by omega), by simp [Ring.pushed]; omega, ?_, ?_⟩
  · refine congr_of_tail h3 ?_ (by simp [Ring.pushed]; omega)
    simp only [Ring.pushed, ht, Nat.mod_add_mod, Nat.add_assoc]
  · intro i hi
    simp only [Ring.pushed] at hi ⊢
    rw [storeRead_write]
    split
    · rfl
    · rename_i hne
      refine h7 i ?_
      rcases Nat.lt_or_ge i r.count with h | h
      · exact h
      · exact absurd (by rw [ht, show i = r.count by omega]) hne

/-- A pop of a non-empty buffer takes the oldest byte (R112, R119). -/
theorem contents_popped (hc : r.count ≠ 0) :
    contents id n r = storeByte id r.store (r.head % n) :: contents id n (r.popped n) := by
  obtain ⟨k, hk⟩ := Nat.exists_eq_succ_of_ne_zero hc
  simp only [contents, Ring.popped, hk, Nat.succ_eq_add_one, List.range_succ_eq_map, List.map_cons, List.map_map,
    Nat.add_zero, Nat.add_sub_cancel]
  congr 1
  refine List.map_congr_left fun i _ => ?_
  simp only [Function.comp, Nat.mod_add_mod, Nat.succ_eq_add_one]
  congr 2
  omega

theorem RingOk.popped (h : RingOk n r) (hc : r.count ≠ 0) : RingOk n (r.popped n) := by
  have ht := h.tail_eq
  obtain ⟨h1, h2, h3, h4, h5, h6, h7⟩ := h
  refine ⟨h1, h2, Nat.mod_lt _ (by omega), h4, by simp [Ring.popped]; omega, ?_, ?_⟩
  · refine congr_of_tail (Nat.mod_lt _ (by omega)) ?_ (by simp [Ring.popped]; omega)
    simp only [Ring.popped, ht, Nat.mod_add_mod]
    congr 1
    omega
  · intro i hi
    simp only [Ring.popped] at hi ⊢
    have := h7 (i + 1) (by omega)
    rw [Nat.mod_add_mod]
    rwa [show r.head + 1 + i = r.head + (i + 1) by omega]

/-- The oldest byte of a buffer in order, as the contents have it (R115). -/
theorem contents_head (h : RingOk n r) (hc : r.count ≠ 0) :
    (contents id n r).head? = some (storeByte id r.store r.head) := by
  rw [contents_popped hc, Nat.mod_eq_of_lt h.2.2.1]; rfl

/-- The newest byte of a buffer in order (R116). -/
theorem contents_last (h : RingOk n r) (hc : r.count ≠ 0) :
    (contents id n r).getLast? = some (storeByte id r.store ((r.tail + n - 1) % n)) := by
  have ht := h.tail_eq
  have hn : 0 < n := by have := h.2.2.1; omega
  obtain ⟨k, hk⟩ := Nat.exists_eq_succ_of_ne_zero hc
  simp only [contents, hk, Nat.succ_eq_add_one, List.range_succ, List.map_append, List.map_cons, List.map_nil,
    List.getLast?_append, List.getLast?_singleton, Option.some_or]
  rw [ht, hk]
  congr 2
  have h1 : (r.head + (k + 1)) % n + n - 1 = (r.head + (k + 1)) % n + (n - 1) := by omega
  rw [h1, Nat.mod_add_mod, show r.head + k.succ + (n - 1) = r.head + k + n by omega, Nat.add_mod_right]

end Sys2Proof.Machine
end

