-- ==== Sys2Proof/Laws/Queue.lean ====
section
/-! SUPPORT. What each queue operation of the state can do, in one lemma each, and the two loops that read a frame. -/

namespace Sys2Proof.Machine

variable {q : QueueId} {s t : State} {b x : Byte} {l : List Byte}

theorem rbIsEmpty_iff : rbIsEmpty q s = true ↔ (ring q s).count = 0 := by simp [rbIsEmpty]

theorem rbIsFull_iff : rbIsFull q s = true ↔ (ring q s).count = s.cfg.N := by simp [rbIsFull]

@[simp] theorem cont_length : (cont q s).length = (ring q s).count := by simp [cont]

theorem count_of_cont (h : cont q s = l) : (ring q s).count = l.length := by rw [← h]; simp

theorem count_ne_zero (h : cont q s = x :: l) : (ring q s).count ≠ 0 := by rw [count_of_cont h]; simp

theorem cont_eq_nil : cont q s = [] ↔ (ring q s).count = 0 := by
  rw [← List.length_eq_zero_iff, cont_length]

theorem rbIsEmpty_eq : rbIsEmpty q s = (cont q s).isEmpty := by
  rw [Bool.eq_iff_iff, rbIsEmpty_iff, List.isEmpty_iff, cont_eq_nil]

theorem rbPush_full (h : (ring q s).count = s.cfg.N) : rbPush q b s = (false, s) := by
  simp [rbPush, rbIsFull, h]

theorem rbPush_room (h : (ring q s).count < s.cfg.N) :
    rbPush q b s = (true, setRing q ((ring q s).pushed s.cfg.N b) s) := by
  have : (ring q s).count ≠ s.cfg.N := by omega
  simp [rbPush, rbIsFull, this]

theorem cont_setRing {r : Ring} : cont q (setRing q r s) = contents (queueStore q) s.cfg.N r := by simp [cont]

@[simp] theorem cont_setRing_other {p : QueueId} {r : Ring} (h : p ≠ q) : cont p (setRing q r s) = cont p s := by
  cases p <;> cases q <;> first | rfl | exact absurd rfl h

theorem rbPop_empty (h : cont q s = []) :
    rbPop q s = { valid := false, byte := 0x00, state := signal (.popEmpty q) s } := by
  simp [rbPop, rbIsEmpty_eq, h]

/-- A pop of a queue that holds `x` first (R112). -/
theorem rbPop_cons (ho : RingOk s.cfg.N (ring q s)) (h : cont q s = x :: l) :
    rbPop q s = { valid := true, byte := x, state := setRing q ((ring q s).popped s.cfg.N) s }
      ∧ cont q (setRing q ((ring q s).popped s.cfg.N) s) = l
      ∧ RingOk s.cfg.N ((ring q s).popped s.cfg.N) := by
  have hc := count_ne_zero h
  have hd := contents_popped (id := queueStore q) (n := s.cfg.N) hc
  rw [show contents (queueStore q) s.cfg.N (ring q s) = cont q s from rfl, h, Nat.mod_eq_of_lt ho.2.2.1] at hd
  obtain ⟨h1, h2⟩ := List.cons.inj hd
  refine ⟨?_, by rw [cont_setRing, ← h2], ho.popped hc⟩
  have : rbIsEmpty q s = false := by rw [rbIsEmpty_eq, h]; rfl
  simp [rbPop, this, h1]

/-- Pushing bytes that all fit (R111, R135): the contents grow by them, and only their slots are written. -/
theorem pushAll_spec (l : List Byte) (s : State) (ho : RingOk s.cfg.N (ring q s))
    (hl : l.length ≤ s.cfg.N - (ring q s).count) :
    ∃ r, pushAll q l s = setRing q r s ∧ RingOk s.cfg.N r ∧ contents (queueStore q) s.cfg.N r = cont q s ++ l
      ∧ (∀ i, (∀ j, j < l.length → i ≠ ((ring q s).tail + j) % s.cfg.N) →
          storeRead r.store i = storeRead (ring q s).store i) := by
  induction l generalizing s with
  | nil => exact ⟨ring q s, by simp [pushAll], ho, by simp [cont], fun _ _ => rfl⟩
  | cons b l ih =>
    have hc : (ring q s).count < s.cfg.N := by simp at hl; omega
    have ho' : RingOk s.cfg.N ((ring q s).pushed s.cfg.N b) := ho.pushed hc
    obtain ⟨r, h1, h2, h3, h4⟩ := ih (setRing q ((ring q s).pushed s.cfg.N b) s) (by simpa using ho')
      (by simp [Ring.pushed] at hl ⊢; omega)
    refine ⟨r, ?_, by simpa using h2, ?_, ?_⟩
    · simp only [pushAll, List.foldl_cons, rbPush_room hc] at h1 ⊢
      rw [h1, setRing_setRing]
    · rw [cont_setRing, contents_pushed ho hc] at h3
      simpa [cont] using h3
    · intro i hi
      rw [h4 i ?_]
      · simp only [ring_setRing, Ring.pushed, storeRead_write]
        rw [if_neg]
        have := hi 0 (by simp)
        rwa [Nat.add_zero, Nat.mod_eq_of_lt ho.2.2.2.1] at this
      · intro j hj
        have := hi (j + 1) (by simpa using hj)
        simp only [ring_setRing, Ring.pushed, setRing_cfg, Nat.mod_add_mod]
        rwa [show (ring q s).tail + 1 + j = (ring q s).tail + (j + 1) by omega]

/-! ### Reading a frame -/

theorem beforeEnd_cons_end {c : Config} : beforeEnd c (c.opEnd :: l) = [] := by simp [beforeEnd]

theorem beforeEnd_cons {c : Config} (h : x ≠ c.opEnd) : beforeEnd c (x :: l) = x :: beforeEnd c l := by
  simp [beforeEnd, h]

theorem afterEnd_cons_end {c : Config} : afterEnd c (c.opEnd :: l) = l := by simp [afterEnd]

theorem afterEnd_cons {c : Config} (h : x ≠ c.opEnd) : afterEnd c (x :: l) = afterEnd c l := by
  simp [afterEnd, h]

@[simp] theorem beforeEnd_nil {c : Config} : beforeEnd c [] = [] := rfl
@[simp] theorem afterEnd_nil {c : Config} : afterEnd c [] = [] := rfl

/-- A list without a terminator, then a terminator. -/
theorem beforeEnd_append {c : Config} {r : List Byte} (h : c.opEnd ∉ l) : beforeEnd c (l ++ c.opEnd :: r) = l := by
  induction l with
  | nil => simp [beforeEnd_cons_end]
  | cons x l ih =>
    simp only [List.mem_cons, not_or] at h
    rw [List.cons_append, beforeEnd_cons (Ne.symm h.1), ih h.2]

theorem afterEnd_append {c : Config} {r : List Byte} (h : c.opEnd ∉ l) : afterEnd c (l ++ c.opEnd :: r) = r := by
  induction l with
  | nil => simp [afterEnd_cons_end]
  | cons x l ih =>
    simp only [List.mem_cons, not_or] at h
    rw [List.cons_append, afterEnd_cons (Ne.symm h.1), ih h.2]

/-- What `CF.DISCARD` does (R161): pops through the first terminator; nothing else moves. -/
theorem discardLoop_spec (k : Nat) (s : State) (ho : RingOk s.cfg.N s.rxq) (hk : s.rxq.count = k) :
    ∃ r, discardLoop k s = setRing .rxq r s ∧ RingOk s.cfg.N r ∧ r.store = s.rxq.store
      ∧ contents .rxq s.cfg.N r = afterEnd s.cfg (cont .rxq s) := by
  induction k generalizing s with
  | zero =>
    refine ⟨s.rxq, by simp [discardLoop, ← ring_rxq], ho, rfl, ?_⟩
    have : cont .rxq s = [] := cont_eq_nil.2 hk
    rw [this]; exact this
  | succ k ih =>
    obtain ⟨x, l, hx⟩ := List.exists_cons_of_ne_nil (l := cont .rxq s)
      (fun h => by have := cont_eq_nil.1 h; simp at this; omega)
    obtain ⟨h1, h2, h3⟩ := rbPop_cons (q := .rxq) ho hx
    simp only [discardLoop, h1, hx]
    split
    · rename_i he
      refine ⟨_, rfl, h3, rfl, ?_⟩
      rw [he, afterEnd_cons_end, ← h2, cont_setRing]; rfl
    · rename_i he
      obtain ⟨r, g1, g2, g3, g4⟩ := ih (setRing .rxq ((ring .rxq s).popped s.cfg.N) s) (by simpa using h3)
        (by simp [Ring.popped]; omega)
      refine ⟨r, by rw [g1, setRing_setRing], g2, by rw [g3]; rfl, ?_⟩
      rw [afterEnd_cons he, ← h2]; exact g4

theorem cfDiscard_spec (ho : RingOk s.cfg.N s.rxq) :
    ∃ r, cfDiscard s = setRing .rxq r s ∧ RingOk s.cfg.N r ∧ r.store = s.rxq.store
      ∧ contents .rxq s.cfg.N r = afterEnd s.cfg (cont .rxq s) :=
  discardLoop_spec _ s ho rfl

/-- The log with some conditions more. -/
def logged (l : List Condition) (s : State) : State := { s with conds := s.conds ++ l }

theorem payloadOf_appended {id : StoreId} {f : FrameReg} :
    payloadOf id (f.appended b) = payloadOf id f ++ [b] := by
  simp only [payloadOf, FrameReg.appended, List.range_succ, List.map_append, List.map_cons, List.map_nil]
  rw [storeByte_write, if_pos rfl]
  congr 1
  refine List.map_congr_left fun i hi => ?_
  rw [storeByte_write, if_neg]
  have := List.mem_range.1 hi
  omega

theorem FrameOk.appended {m : Nat} {f : FrameReg} (h : FrameOk m f) (hl : f.len < m) : FrameOk m (f.appended b) := by
  obtain ⟨h1, h2, h3, h4⟩ := h
  refine ⟨storeWrite_wf _ _ h1, storeWrite_bound _ hl h2, hl, fun i hi => ?_⟩
  simp only [FrameReg.appended] at hi ⊢
  rw [storeRead_write]
  split
  · rfl
  · exact h4 i (by omega)

/-- What the payload loop does to a register and the queue (R159), from any point of the loop. -/
theorem rdPayloadLoop_spec (f : FrameId) (lim k : Nat) (s : State) (ho : RingOk s.cfg.N s.rxq)
    (hk : s.rxq.count = k) (hlim : (frame f s).len ≤ lim) :
    ∃ r g, rdPayloadLoop f lim k s
        = logged (List.replicate ((beforeEnd s.cfg (cont .rxq s)).length - (lim - (frame f s).len)) .payloadTruncated)
            (setRing .rxq r (setFrame f g s))
      ∧ RingOk s.cfg.N r ∧ r.store = s.rxq.store ∧ contents .rxq s.cfg.N r = afterEnd s.cfg (cont .rxq s)
      ∧ payloadOf (frameStore f) g
          = payloadOf (frameStore f) (frame f s) ++ (beforeEnd s.cfg (cont .rxq s)).take (lim - (frame f s).len)
      ∧ g.opcode = (frame f s).opcode
      ∧ (∀ i, g.len ≤ i → storeRead g.payload i = storeRead (frame f s).payload i)
      ∧ (frame f s).len ≤ g.len ∧ g.len ≤ lim
      ∧ (∀ m, lim ≤ m → FrameOk m (frame f s) → FrameOk m g) := by
  induction k generalizing s with
  | zero =>
    have hn : cont .rxq s = [] := cont_eq_nil.2 hk
    refine ⟨s.rxq, frame f s, ?_, ho, rfl, ?_, by simp [hn], rfl, fun _ _ => rfl, Nat.le_refl _, hlim,
      fun _ _ h => h⟩
    · have e : setRing .rxq s.rxq s = s := setRing_ring s .rxq
      simp [rdPayloadLoop, hn, logged, e]
    · rw [hn]; exact hn
  | succ k ih =>
    obtain ⟨x, l, hx⟩ := List.exists_cons_of_ne_nil (l := cont .rxq s)
      (fun h => by have := cont_eq_nil.1 h; simp at this; omega)
    obtain ⟨h1, h2, h3⟩ := rbPop_cons (q := .rxq) ho hx
    simp only [rdPayloadLoop, h1, hx]
    by_cases he : x = s.cfg.opEnd
    · rw [if_pos he, he]
      refine ⟨(ring .rxq s).popped s.cfg.N, frame f s, ?_, h3, rfl, ?_, by simp [beforeEnd_cons_end], rfl,
        fun _ _ => rfl, Nat.le_refl _, hlim, fun _ _ h => h⟩
      · simp [beforeEnd_cons_end, logged]; rfl
      · rw [afterEnd_cons_end, ← h2, cont_setRing]; rfl
    · rw [if_neg he, beforeEnd_cons he, afterEnd_cons he]
      have hcnt : (setRing .rxq ((ring .rxq s).popped s.cfg.N) s).rxq.count = k := by simp [Ring.popped]; omega
      unfold takePayload
      by_cases hlt : (frame f s).len < lim
      · rw [if_pos (by simpa using hlt)]
        have hcf : cont .rxq (setFrame f ((frame f s).appended x) (setRing .rxq ((ring .rxq s).popped s.cfg.N) s)) = l := by
          rw [← h2]; simp [cont]
        obtain ⟨r, g, g1, g2, g3, g4, g5, g6, g7, g8, g9, g10⟩ := ih
          (setFrame f ((frame f s).appended x) (setRing .rxq ((ring .rxq s).popped s.cfg.N) s))
          (by simpa using h3) (by simpa using hcnt) (by simp [FrameReg.appended]; omega)
        simp only [setFrame_cfg, setRing_cfg, hcf, frame_setFrame] at g1 g4 g5 g6 g7 g8 g9 g10
        have hle : (frame f s).len + 1 ≤ g.len := g8
        refine ⟨r, g, ?_, by simpa using g2, by rw [g3]; simp [Ring.popped], by simpa using g4, ?_, ?_, ?_,
          by omega, g9, fun m hm hf => g10 m hm (hf.appended (by omega))⟩
        · simp only [setRing_frame]
          rw [g1]
          have : (beforeEnd s.cfg l).length - (lim - ((frame f s).appended x).len)
              = (x :: beforeEnd s.cfg l).length - (lim - (frame f s).len) := by
            simp [FrameReg.appended]; omega
          rw [this]
          congr 1
          cases f <;> rfl
        · rw [g5, payloadOf_appended]
          have : lim - (frame f s).len = (lim - ((frame f s).appended x).len) + 1 := by
            simp [FrameReg.appended]; omega
          rw [this, List.take_succ_cons, List.append_assoc, List.singleton_append]
        · rw [g6]; rfl
        · intro i hi
          rw [g7 i hi]
          simp only [FrameReg.appended, storeRead_write]
          rw [if_neg (by omega)]
      · rw [if_neg (by simpa using hlt)]
        have hcf : cont .rxq (signal .payloadTruncated (setRing .rxq ((ring .rxq s).popped s.cfg.N) s)) = l := by
          rw [← h2]; simp [cont]
        obtain ⟨r, g, g1, g2, g3, g4, g5, g6, g7, g8, g9, g10⟩ := ih
          (signal .payloadTruncated (setRing .rxq ((ring .rxq s).popped s.cfg.N) s))
          (by simpa using h3) (by simpa using hcnt) (by simpa using hlim)
        simp only [signal_cfg, setRing_cfg, hcf, signal_frame, setRing_frame] at g1 g4 g5 g6 g7 g8 g9 g10
        refine ⟨r, g, ?_, by simpa using g2, by rw [g3]; simp [Ring.popped], by simpa using g4, ?_, g6, g7, g8, g9,
          g10⟩
        · rw [g1]
          have e : lim - (frame f s).len = 0 := by omega
          simp only [e, Nat.sub_zero, List.length_cons, List.replicate_succ]
          cases f <;> simp [logged, signal, setRing, setFrame]
        · rw [g5]
          have e : lim - (frame f s).len = 0 := by omega
          simp [e]

/-- What `CF.RD_PAYLOAD` does (R159). -/
theorem cfRdPayload_spec (f : FrameId) (m : Nat) (ho : RingOk s.cfg.N s.rxq) :
    ∃ r g, cfRdPayload f m s
        = logged (List.replicate (excessIn m s) .payloadTruncated) (setRing .rxq r (setFrame f g s))
      ∧ RingOk s.cfg.N r ∧ r.store = s.rxq.store ∧ contents .rxq s.cfg.N r = afterEnd s.cfg (cont .rxq s)
      ∧ payloadOf (frameStore f) g = payloadIn m s ∧ g.len = (payloadIn m s).length
      ∧ g.opcode = (frame f s).opcode
      ∧ (∀ i, g.len ≤ i → storeRead g.payload i = storeRead (frame f s).payload i)
      ∧ (FrameOk s.cfg.L (frame f s) → FrameOk s.cfg.L g) := by
  have hcf : cont .rxq (setFrame f { frame f s with len := 0 } s) = cont .rxq s := by simp [cont]
  obtain ⟨r, g, g1, g2, g3, g4, g5, g6, g7, _, _, g10⟩ := rdPayloadLoop_spec f (min m s.cfg.L) s.rxq.count
    (setFrame f { frame f s with len := 0 } s) (by simpa using ho) (by simp) (by simp)
  simp only [setFrame_cfg, hcf, frame_setFrame, Nat.sub_zero, setFrame_setFrame] at g1 g4 g5 g6 g7 g10
  have g5' : payloadOf (frameStore f) g = payloadIn m s := by
    rw [g5]; simp [payloadOf, payloadIn]
  refine ⟨r, g, g1, by simpa using g2, by simpa using g3, g4, g5', ?_, g6, g7, fun h => ?_⟩
  · rw [← g5']; simp [payloadOf]
  · exact g10 _ (Nat.min_le_right _ _) ⟨h.1, h.2.1, Nat.zero_le _, fun i hi => absurd hi (Nat.not_lt_zero i)⟩

/-! ### Reading the header of a frame -/

/-- The contents of a buffer after the pop of its first byte. -/
theorem contents_popped_of_cont (ho : RingOk s.cfg.N s.rxq) (h : cont .rxq s = x :: l) :
    contents .rxq s.cfg.N (s.rxq.popped s.cfg.N) = l := by
  have h2 := (rbPop_cons (q := .rxq) ho h).2.1
  rwa [cont_setRing] at h2

/-- `CF.RD_OPCODE` on an empty queue (R157). -/
theorem cfRdOpcode_nil {f : FrameId} (h : cont .rxq s = []) : cfRdOpcode f s = (.absent, s) := by
  simp [cfRdOpcode, rbIsEmpty_eq, h]

/-- `CF.RD_OPCODE` on a queue that holds `x` first (R157). -/
theorem cfRdOpcode_cons {f : FrameId} (ho : RingOk s.cfg.N s.rxq) (h : cont .rxq s = x :: l) :
    cfRdOpcode f s
      = if x = s.cfg.opEnd then (.absent, setRing .rxq (s.rxq.popped s.cfg.N) s)
        else (.ok, setRing .rxq (s.rxq.popped s.cfg.N) (setFrame f { frame f s with opcode := x } s)) := by
  obtain ⟨h1, -, -⟩ := rbPop_cons (q := .rxq) ho h
  have he : rbIsEmpty .rxq s = false := by rw [rbIsEmpty_eq, h]; rfl
  unfold cfRdOpcode
  simp only [he, h1, Bool.false_eq_true, if_false]
  split
  · rfl
  · cases f <;> rfl

/-- `CF.RD_SEQ` on an empty queue (R158). -/
theorem cfRdSeq_nil (h : cont .rxq s = []) : cfRdSeq s = { status := .absent, stamp := 0x00, state := s } := by
  simp [cfRdSeq, rbIsEmpty_eq, h]

/-- `CF.RD_SEQ` on a queue that holds `x` first (R158). -/
theorem cfRdSeq_cons (ho : RingOk s.cfg.N s.rxq) (h : cont .rxq s = x :: l) :
    cfRdSeq s = { status := .ok, stamp := x, state := setRing .rxq (s.rxq.popped s.cfg.N) s } := by
  obtain ⟨h1, -, -⟩ := rbPop_cons (q := .rxq) ho h
  have he : rbIsEmpty .rxq s = false := by rw [rbIsEmpty_eq, h]; rfl
  simp only [cfRdSeq, he, h1, Bool.false_eq_true, if_false]
  rfl

end Sys2Proof.Machine
end

