-- ==== Sys2Proof/Laws/Transport.lean ====
section
/-! SUPPORT. What a kick, a bulk transmit and an enqueued frame can do, in one lemma each: the contents of `TXQ`, the
byte on the wire, and an equation for the rest of the state. -/

namespace Sys2Proof.Machine

variable {s t : State} {b x : Byte} {l : List Byte}

/-- The state after a byte was handed to a ready peripheral. -/
def handed (b : Byte) (s : State) : State := setTransmitting true (transmitByte b s)

theorem tHandoff_ready (h : s.periph.txBusy = false) : tHandoff b s = .ok (handed b s) := by
  simp [tHandoff, isTransmitReady, h, handed]

theorem tHandoff_busy (h : s.periph.txBusy = true) : tHandoff b s = .error .handoffBusy := by
  simp [tHandoff, isTransmitReady, h]

/-- What a hand-off that succeeds did. -/
theorem tHandoff_ok (h : tHandoff b s = .ok t) : s.periph.txBusy = false ∧ t = handed b s := by
  cases hb : s.periph.txBusy
  · rw [tHandoff_ready hb] at h; exact ⟨rfl, by simpa using h.symm⟩
  · rw [tHandoff_busy hb] at h; cases h

/-- The state after the oldest byte of `TXQ` was handed to a ready peripheral. -/
theorem popAndHandoff_cons (ho : RingOk s.cfg.N s.txq) (h : cont .txq s = x :: l) (hb : s.periph.txBusy = false) :
    popAndHandoff s = .ok (handed x (setRing .txq (s.txq.popped s.cfg.N) s))
      ∧ contents .txq s.cfg.N (s.txq.popped s.cfg.N) = l ∧ RingOk s.cfg.N (s.txq.popped s.cfg.N) := by
  obtain ⟨h1, h2, h3⟩ := rbPop_cons (q := .txq) ho h
  refine ⟨?_, by rw [cont_setRing] at h2; exact h2, h3⟩
  unfold popAndHandoff
  rw [h1]
  exact tHandoff_ready (by simpa using hb)

/-- What a kick can do (R130): a byte goes out, or nothing changes, and the queue stays in order; it breaks the contract
of a busy peripheral only where "not transmitting" does not imply "ready" (R140, R293). -/
theorem tKick_total (ho : RingOk s.cfg.N s.txq) :
    (∃ t, tKick s = .ok t ∧ KickedWith (cont .txq s) s t ∧ t.txq.store = s.txq.store ∧ t.txq.tail = s.txq.tail
      ∧ RingOk s.cfg.N t.txq ∧ (IdleReady s → IdleReady t)
      ∧ t = { s with txq := t.txq, wireOut := t.wireOut, ls := t.ls, periph := t.periph })
    ∨ (tKick s = .error .handoffBusy ∧ ¬ IdleReady s) := by
  unfold tKick kickReady KickedWith
  rw [rbIsEmpty_eq]
  split
  · rename_i h
    obtain ⟨x, l, hx⟩ := List.exists_cons_of_ne_nil (l := cont .txq s) (by intro e; simp [e] at h)
    cases hb : s.periph.txBusy with
    | false =>
      obtain ⟨h1, h2, h3⟩ := popAndHandoff_cons ho hx hb
      exact .inl ⟨_, h1, by rw [hx]; exact ⟨h2, rfl, rfl, rfl⟩, rfl, rfl, h3, fun _ h => Bool.noConfusion h, rfl⟩
    | true =>
      refine .inr ⟨?_, fun hi => ?_⟩
      · unfold popAndHandoff
        rw [(rbPop_cons (q := .txq) ho hx).1]
        exact tHandoff_busy (by simpa using hb)
      · have := hi (by revert h; cases s.ls.transmitting <;> simp)
        rw [hb] at this; cases this
  · exact .inl ⟨s, rfl, ⟨rfl, rfl, rfl, rfl⟩, rfl, rfl, ho, id, rfl⟩

/-- What a push below capacity and then a kick do (R133). -/
theorem tTransmit_total (ho : RingOk s.cfg.N s.txq) (hc : s.txq.count < s.cfg.N) :
    (∃ t, tTransmit b s = .ok (1, t) ∧ KickedWith (cont .txq s ++ [b]) s t ∧ SlotsKept .txq 1 s t
      ∧ RingOk s.cfg.N t.txq ∧ (IdleReady s → IdleReady t)
      ∧ t = { s with txq := t.txq, wireOut := t.wireOut, ls := t.ls, periph := t.periph })
    ∨ (tTransmit b s = .error .handoffBusy ∧ ¬ IdleReady s) := by
  have hp := rbPush_room (q := .txq) (b := b) hc
  have hf : rbIsFull .txq s = false := by
    have : s.txq.count ≠ s.cfg.N := by omega
    simp [rbIsFull, this]
  have e : tTransmit b s = (tKick (setRing .txq (s.txq.pushed s.cfg.N b) s)).map (fun t => (1, t)) := by
    simp only [tTransmit, hf, hp, Bool.false_eq_true, if_false]; rfl
  rw [e]
  rcases tKick_total (s := setRing .txq (s.txq.pushed s.cfg.N b) s) (by simpa using ho.pushed hc) with
    ⟨t, h1, h2, h3, -, h5, h6, h7⟩ | ⟨h1, h2⟩
  · rw [cont_setRing, show contents (queueStore .txq) s.cfg.N (s.txq.pushed s.cfg.N b) = cont .txq s ++ [b] from
      contents_pushed ho hc] at h2
    refine .inl ⟨t, by rw [h1]; rfl, h2, ?_, by simpa using h5, h6, h7⟩
    intro i hi
    show storeRead t.txq.store i = storeRead s.txq.store i
    rw [h3]
    show storeRead (storeWrite s.txq.store s.txq.tail b) i = _
    rw [storeRead_write, if_neg]
    have := hi 0 (by omega)
    rwa [Nat.add_zero, show (ring .txq s).tail = s.txq.tail from rfl, Nat.mod_eq_of_lt ho.2.2.2.1] at this
  · exact .inr ⟨by rw [h1]; rfl, h2⟩

/-- What a bulk transmit does (R135): the bytes that fit are queued, then one kick. -/
theorem tBulkTransmit_total (bytes : List Byte) (start length : Nat) (ho : RingOk s.cfg.N s.txq)
    (hr : start + length ≤ bytes.length) :
    let k := min length (s.cfg.N - s.txq.count)
    (∃ t, tBulkTransmit bytes start length s = .ok (k, t)
      ∧ KickedWith (cont .txq s ++ (bytes.drop start).take k) s t ∧ SlotsKept .txq k s t
      ∧ RingOk s.cfg.N t.txq ∧ (IdleReady s → IdleReady t)
      ∧ t = { s with txq := t.txq, wireOut := t.wireOut, ls := t.ls, periph := t.periph,
                     conds := s.conds ++ (if k < length then [.txqFull] else []) })
    ∨ (tBulkTransmit bytes start length s = .error .handoffBusy ∧ ¬ IdleReady s) := by
  intro k
  have hlen : ((bytes.drop start).take k).length = k := by
    rw [List.length_take, List.length_drop]; omega
  obtain ⟨r, g1, g2, g3, g4⟩ := pushAll_spec (q := .txq) ((bytes.drop start).take k) s ho
    (by rw [hlen]; exact Nat.min_le_right _ _)
  have e : tBulkTransmit bytes start length s
      = (tKick (pushAll .txq ((bytes.drop start).take k) s)).map (fun t => (k, noteShort k length t)) := rfl
  rw [e, g1]
  rcases tKick_total (s := setRing .txq r s) (by simpa using g2) with ⟨t, h1, h2, h3, -, h5, h6, h7⟩ | ⟨h1, h2⟩
  · rw [cont_setRing, g3] at h2
    refine .inl ⟨noteShort k length t, by rw [h1]; rfl, ?_, ?_, ?_, ?_, ?_⟩
    · unfold noteShort; split <;> exact h2
    · intro i hi
      rw [hlen] at g4
      have : storeRead t.txq.store i = storeRead s.txq.store i := by
        rw [h3]; exact g4 i hi
      unfold noteShort; split <;> exact this
    · unfold noteShort; split <;> exact h5
    · unfold noteShort; split <;> exact h6
    · unfold noteShort
      split
      · conv_lhs => rw [h7]
        rfl
      · conv_lhs => rw [h7]
        simp [setRing]
  · exact .inr ⟨by rw [h1]; rfl, h2⟩

theorem cfFrameBytes_eq (op : Byte) (pl : List Byte) (s : State) :
    cfFrameBytes op pl s = frameBytes s.cfg s.seqOut op pl := rfl

theorem frameBytes_length (c : Config) (stamp op : Byte) (pl : List Byte) :
    (frameBytes c stamp op pl).length = c.flen pl.length := by
  simp only [frameBytes, frameTail, Config.flen, Config.sb]
  cases c.numbering <;> simp <;> omega

/-- What enqueueing a frame value does (R155). -/
theorem cfEncodeAndEnqueue_total (op : Byte) (pl : List Byte) (ho : RingOk s.cfg.N s.txq) :
    let bs := frameBytes s.cfg s.seqOut op pl
    let k := min bs.length (s.cfg.N - s.txq.count)
    (∃ t, cfEncodeAndEnqueue op pl s = .ok (k, t)
      ∧ KickedWith (cont .txq s ++ bs.take k) s t ∧ SlotsKept .txq k s t
      ∧ RingOk s.cfg.N t.txq ∧ (IdleReady s → IdleReady t)
      ∧ t = { s with txq := t.txq, wireOut := t.wireOut, ls := t.ls, periph := t.periph,
                     seqOut := if k = bs.length then s.seqOut + 1 else s.seqOut,
                     conds := s.conds ++ (if k < bs.length then [.txqFull] else []) })
    ∨ (cfEncodeAndEnqueue op pl s = .error .handoffBusy ∧ ¬ IdleReady s) := by
  intro bs k
  have e : cfEncodeAndEnqueue op pl s
      = (tBulkTransmit bs 0 bs.length s).map (fun r => if r.1 = bs.length then (r.1, bumpSeqOut r.2) else r) := rfl
  rw [e]
  rcases tBulkTransmit_total bs 0 bs.length ho (by simp) with ⟨t, h1, h2, h3, h4, h5, h6⟩ | ⟨h1, h2⟩
  · refine .inl ⟨if k = bs.length then bumpSeqOut t else t, ?_, ?_, ?_, ?_, ?_, ?_⟩
    · rw [h1]
      show Except.ok (if k = bs.length then (k, bumpSeqOut t) else (k, t)) = _
      split <;> rfl
    · rw [List.drop_zero] at h2
      split <;> exact h2
    · split <;> exact h3
    · split <;> exact h4
    · split <;> exact h5
    · split
      · conv_lhs => rw [h6]
        rfl
      · conv_lhs => rw [h6]
  · exact .inr ⟨by rw [h1]; rfl, h2⟩

/-! ### The same with R140 -/

theorem tKick_spec (ho : RingOk s.cfg.N s.txq) (hi : IdleReady s) :
    ∃ t, tKick s = .ok t ∧ KickedWith (cont .txq s) s t ∧ t.txq.store = s.txq.store ∧ t.txq.tail = s.txq.tail
      ∧ RingOk s.cfg.N t.txq ∧ IdleReady t
      ∧ t = { s with txq := t.txq, wireOut := t.wireOut, ls := t.ls, periph := t.periph } := by
  rcases tKick_total ho with ⟨t, h1, h2, h3, h4, h5, h6, h7⟩ | ⟨_, h⟩
  · exact ⟨t, h1, h2, h3, h4, h5, h6 hi, h7⟩
  · exact absurd hi h

theorem tTransmit_room (ho : RingOk s.cfg.N s.txq) (hi : IdleReady s) (hc : s.txq.count < s.cfg.N) :
    ∃ t, tTransmit b s = .ok (1, t) ∧ KickedWith (cont .txq s ++ [b]) s t ∧ SlotsKept .txq 1 s t
      ∧ RingOk s.cfg.N t.txq ∧ IdleReady t
      ∧ t = { s with txq := t.txq, wireOut := t.wireOut, ls := t.ls, periph := t.periph } := by
  rcases tTransmit_total ho hc with ⟨t, h1, h2, h3, h4, h5, h6⟩ | ⟨_, h⟩
  · exact ⟨t, h1, h2, h3, h4, h5 hi, h6⟩
  · exact absurd hi h

theorem tBulkTransmit_spec (bytes : List Byte) (start length : Nat) (ho : RingOk s.cfg.N s.txq) (hi : IdleReady s)
    (hr : start + length ≤ bytes.length) :
    let k := min length (s.cfg.N - s.txq.count)
    ∃ t, tBulkTransmit bytes start length s = .ok (k, t)
      ∧ KickedWith (cont .txq s ++ (bytes.drop start).take k) s t ∧ SlotsKept .txq k s t
      ∧ RingOk s.cfg.N t.txq ∧ IdleReady t
      ∧ t = { s with txq := t.txq, wireOut := t.wireOut, ls := t.ls, periph := t.periph,
                     conds := s.conds ++ (if k < length then [.txqFull] else []) } := by
  rcases tBulkTransmit_total bytes start length ho hr with ⟨t, h1, h2, h3, h4, h5, h6⟩ | ⟨_, h⟩
  · exact ⟨t, h1, h2, h3, h4, h5 hi, h6⟩
  · exact absurd hi h

theorem cfEncodeAndEnqueue_spec (op : Byte) (pl : List Byte) (ho : RingOk s.cfg.N s.txq) (hi : IdleReady s) :
    let bs := frameBytes s.cfg s.seqOut op pl
    let k := min bs.length (s.cfg.N - s.txq.count)
    ∃ t, cfEncodeAndEnqueue op pl s = .ok (k, t)
      ∧ KickedWith (cont .txq s ++ bs.take k) s t ∧ SlotsKept .txq k s t
      ∧ RingOk s.cfg.N t.txq ∧ IdleReady t
      ∧ t = { s with txq := t.txq, wireOut := t.wireOut, ls := t.ls, periph := t.periph,
                     seqOut := if k = bs.length then s.seqOut + 1 else s.seqOut,
                     conds := s.conds ++ (if k < bs.length then [.txqFull] else []) } := by
  rcases cfEncodeAndEnqueue_total op pl ho with ⟨t, h1, h2, h3, h4, h5, h6⟩ | ⟨_, h⟩
  · exact ⟨t, h1, h2, h3, h4, h5 hi, h6⟩
  · exact absurd hi h

/-! ### The two pumps -/

/-- `T.DRIVE_TX` with a byte queued and a ready peripheral (R137). -/
theorem tDriveTx_cons (ho : RingOk s.cfg.N s.txq) (h : cont .txq s = x :: l) (hb : s.periph.txBusy = false) :
    tDriveTx s = .ok (handed x (setRing .txq (s.txq.popped s.cfg.N) s))
      ∧ contents .txq s.cfg.N (s.txq.popped s.cfg.N) = l ∧ RingOk s.cfg.N (s.txq.popped s.cfg.N) := by
  obtain ⟨h1, h2, h3⟩ := popAndHandoff_cons ho h hb
  have he : rbIsEmpty .txq s = false := by rw [rbIsEmpty_eq, h]; rfl
  exact ⟨by simp [tDriveTx, he, h1], h2, h3⟩

/-- `T.DRIVE_TX` with nothing queued (R137). -/
theorem tDriveTx_nil (h : cont .txq s = []) : tDriveTx s = .ok (setTransmitting false s) := by
  have he : rbIsEmpty .txq s = true := by rw [rbIsEmpty_eq, h]; rfl
  simp [tDriveTx, he]

/-- `T.DRIVE_RX` with room in `RXQ` (R138). -/
theorem tDriveRx_room (hf : s.periph.rxFull = true) (hc : s.rxq.count < s.cfg.N) :
    tDriveRx s
      = .ok ((s.periph.rxData, true), setRing .rxq (s.rxq.pushed s.cfg.N s.periph.rxData) (receiveByte s)) := by
  have := rbPush_room (q := .rxq) (b := s.periph.rxData) (s := receiveByte s) hc
  simp only [tDriveRx, isReceiveReady, hf, this, if_true]
  rfl

/-- `T.DRIVE_RX` with `RXQ` full (R138). -/
theorem tDriveRx_full (hf : s.periph.rxFull = true) (hc : s.rxq.count = s.cfg.N) :
    tDriveRx s = .ok ((s.periph.rxData, false), receiveByte s) := by
  have := rbPush_full (q := .rxq) (b := s.periph.rxData) (s := receiveByte s) hc
  simp only [tDriveRx, isReceiveReady, hf, this, if_true]

/-- The slots an accepted push leaves alone (R111). -/
theorem pushed_slots {q : QueueId} (ho : RingOk s.cfg.N (ring q s)) {i : Nat}
    (hi : ∀ j, j < 1 → i ≠ ((ring q s).tail + j) % s.cfg.N) :
    storeRead ((ring q s).pushed s.cfg.N b).store i = storeRead (ring q s).store i := by
  simp only [Ring.pushed, storeRead_write]
  rw [if_neg]
  have := hi 0 (by omega)
  rwa [Nat.add_zero, Nat.mod_eq_of_lt ho.2.2.2.1] at this

/-- `RB.PEEK_HEAD` of a queue that holds `x` first (R115). -/
theorem rbPeekHead_cons {q : QueueId} (ho : RingOk s.cfg.N (ring q s)) (h : cont q s = x :: l) :
    rbPeekHead q s = (true, x) := by
  have he : rbIsEmpty q s = false := by rw [rbIsEmpty_eq, h]; rfl
  have hh := contents_head (id := queueStore q) ho (count_ne_zero h)
  rw [show contents (queueStore q) s.cfg.N (ring q s) = cont q s from rfl, h, List.head?_cons] at hh
  simp only [rbPeekHead, he, Bool.false_eq_true, if_false, ← Option.some.inj hh]

/-- `RB.PEEK_HEAD` of an empty queue (R115). -/
theorem rbPeekHead_nil {q : QueueId} (h : cont q s = []) : rbPeekHead q s = (false, 0x00) := by
  have he : rbIsEmpty q s = true := by rw [rbIsEmpty_eq, h]; rfl
  simp only [rbPeekHead, he, if_true]

end Sys2Proof.Machine
end

