-- ==== Sys2Proof/Laws/Effects.lean ====
section
/-! SUPPORT. Which fields each shared operation can change, on every state (in order or not). -/

namespace Sys2Proof.Machine

variable {s t u : State} {b : Byte} {l : List Byte} {f : FrameId}

/-- A byte may have gone out: nothing of the transmitter moved, or one byte was handed to a ready peripheral. -/
def Sent (s t : State) : Prop :=
  (t.wireOut = s.wireOut ∧ t.ls = s.ls ∧ t.periph = s.periph) ∨
    ∃ b, t.wireOut = s.wireOut ++ [b] ∧ s.periph.txBusy = false ∧ t.ls = { s.ls with transmitting := true }
      ∧ t.periph = { s.periph with txBusy := true, txData := b }

/-- What a send can change: `TXQ`, the log of conditions, and what `Sent` says. -/
def SendsOnly (s t : State) : Prop :=
  t = { s with txq := t.txq, conds := t.conds, wireOut := t.wireOut, ls := t.ls, periph := t.periph } ∧ Sent s t

/-- What a read of a frame can change: `RXQ`, the log of conditions, a frame register. -/
def ReadsOnly (f : FrameId) (s t : State) : Prop :=
  t = { setFrame f (frame f t) s with rxq := t.rxq, conds := t.conds }

theorem SendsOnly.refl (s : State) : SendsOnly s s := ⟨rfl, .inl ⟨rfl, rfl, rfl⟩⟩

theorem ReadsOnly.refl (f : FrameId) (s : State) : ReadsOnly f s s := by cases f <;> rfl

theorem ReadsOnly.trans (h : ReadsOnly f s t) (h' : ReadsOnly f t u) : ReadsOnly f s u := by
  unfold ReadsOnly at *
  cases f
  · rw [h']; rw [h]; rfl
  · rw [h']; rw [h]; rfl

theorem rbPop_fields (q : QueueId) (s : State) :
    (rbPop q s).state = { setRing q (ring q (rbPop q s).state) s with conds := (rbPop q s).state.conds } := by
  unfold rbPop
  split <;> cases q <;> rfl

theorem readsOnly_pop (f : FrameId) (s : State) : ReadsOnly f s (rbPop .rxq s).state := by
  unfold rbPop
  split <;> cases f <;> rfl

theorem discardLoop_fields (f : FrameId) (k : Nat) (s : State) : ReadsOnly f s (discardLoop k s) := by
  induction k generalizing s with
  | zero => exact .refl f s
  | succ k ih =>
    unfold discardLoop
    dsimp only
    split
    · exact readsOnly_pop f s
    · exact (readsOnly_pop f s).trans (ih _)

/-- What `CF.DISCARD` can change (R161). -/
theorem cfDiscard_fields (s : State) : cfDiscard s = { s with rxq := (cfDiscard s).rxq, conds := (cfDiscard s).conds } := by
  have h : ReadsOnly .hcf s (cfDiscard s) := discardLoop_fields .hcf _ s
  have h' : ReadsOnly .ecf s (cfDiscard s) := discardLoop_fields .ecf _ s
  have e : (cfDiscard s).hcf = s.hcf := by rw [h']; rfl
  conv_lhs => rw [h]
  rw [show frame .hcf (cfDiscard s) = s.hcf from e]
  rfl

theorem readsOnly_takePayload (f : FrameId) (lim : Nat) (b : Byte) (s : State) :
    ReadsOnly f s (takePayload f lim b s) := by
  unfold takePayload
  split <;> cases f <;> rfl

theorem rdPayloadLoop_fields (f : FrameId) (lim k : Nat) (s : State) : ReadsOnly f s (rdPayloadLoop f lim k s) := by
  induction k generalizing s with
  | zero => exact .refl f s
  | succ k ih =>
    unfold rdPayloadLoop
    dsimp only
    split
    · exact readsOnly_pop f s
    · exact ((readsOnly_pop f s).trans (readsOnly_takePayload f lim _ _)).trans (ih _)

/-- What `CF.RD_PAYLOAD` can change (R159). -/
theorem cfRdPayload_fields (f : FrameId) (m : Nat) (s : State) : ReadsOnly f s (cfRdPayload f m s) := by
  have h : ReadsOnly f s (setFrame f { frame f s with len := 0 } s) := by cases f <;> rfl
  exact h.trans (rdPayloadLoop_fields f _ _ _)

/-- What `CF.RD_OPCODE` can change (R157). -/
theorem cfRdOpcode_fields (f : FrameId) (s : State) : ReadsOnly f s (cfRdOpcode f s).2 := by
  unfold cfRdOpcode
  split
  · exact .refl f s
  · dsimp only
    split
    · exact readsOnly_pop f s
    · refine (readsOnly_pop f s).trans ?_
      cases f <;> rfl

/-- What `CF.RD_SEQ` can change (R158). -/
theorem cfRdSeq_fields (f : FrameId) (s : State) : ReadsOnly f s (cfRdSeq s).state := by
  unfold cfRdSeq
  split
  · exact .refl f s
  · exact readsOnly_pop f s

theorem cfDecodeFromReceive_fields (m : Nat) (s : State) : ReadsOnly .hcf s (cfDecodeFromReceive m s).state := by
  have h0 : ReadsOnly .hcf s (cfRdOpcode .hcf (cfInit .hcf s)).2 :=
    ReadsOnly.trans (t := cfInit .hcf s) rfl (cfRdOpcode_fields .hcf _)
  unfold cfDecodeFromReceive
  dsimp only
  split
  · exact h0
  · split
    · split
      · exact h0.trans (cfRdSeq_fields .hcf _)
      · exact (h0.trans (cfRdSeq_fields .hcf _)).trans (cfRdPayload_fields .hcf m _)
    · exact h0.trans (cfRdPayload_fields .hcf m _)

theorem pushAll_fields (l : List Byte) (s : State) : pushAll .txq l s = { s with txq := (pushAll .txq l s).txq } := by
  induction l generalizing s with
  | nil => rfl
  | cons b l ih =>
    have e : pushAll .txq (b :: l) s = pushAll .txq l (rbPush .txq b s).2 := rfl
    rw [e, ih]
    unfold rbPush
    split <;> rfl

/-- What popping and handing off can change (R130, R137, R139). -/
theorem popAndHandoff_fields (h : popAndHandoff s = .ok t) : SendsOnly s t ∧ t.wireOut ≠ s.wireOut := by
  obtain ⟨hb, rfl⟩ := tHandoff_ok h
  have hp := rbPop_fields .txq s
  have e : (rbPop .txq s).state.periph = s.periph ∧ (rbPop .txq s).state.wireOut = s.wireOut
      ∧ (rbPop .txq s).state.ls = s.ls := by
    rw [hp]; exact ⟨rfl, rfl, rfl⟩
  refine ⟨⟨?_, .inr ⟨(rbPop .txq s).byte, ?_, ?_, ?_, ?_⟩⟩, ?_⟩
  · rw [hp]; rfl
  · show (rbPop .txq s).state.wireOut ++ _ = _; rw [e.2.1]
  · rw [← e.1]; exact hb
  · show { (rbPop .txq s).state.ls with transmitting := true } = _; rw [e.2.2]
  · show { (rbPop .txq s).state.periph with txBusy := true, txData := (rbPop .txq s).byte } = _; rw [e.1]
  · show (rbPop .txq s).state.wireOut ++ _ ≠ _; rw [e.2.1]; simp

/-- What a kick can change (R130). -/
theorem tKick_fields (h : tKick s = .ok t) : SendsOnly s t := by
  unfold tKick at h
  split at h
  · exact (popAndHandoff_fields h).1
  · cases h; exact .refl s

/-- A paused side starts no byte (R29, R130). -/
theorem tKick_paused (hs : s.ls.selfWaiting = true) : tKick s = .ok s := by
  simp [tKick, kickReady, hs]

theorem noteShort_fields (k n : Nat) (s : State) : noteShort k n s = { s with conds := (noteShort k n s).conds } := by
  unfold noteShort; split <;> rfl

/-- A send after pushes that touch `TXQ` alone. -/
theorem SendsOnly.after {r : Ring} (h : SendsOnly { s with txq := r } t) : SendsOnly s t := by
  obtain ⟨h1, h2⟩ := h
  exact ⟨by conv_lhs => rw [h1], h2⟩

theorem SendsOnly.log {c : List Condition} (h : SendsOnly s t) : SendsOnly s { t with conds := c } := by
  obtain ⟨h1, h2⟩ := h
  exact ⟨by conv_lhs => rw [h1], h2⟩

theorem tTransmit_fields {n : Nat} (h : tTransmit b s = .ok (n, t)) : SendsOnly s t := by
  unfold tTransmit at h
  split at h
  · cases h; exact ⟨rfl, .inl ⟨rfl, rfl, rfl⟩⟩
  · cases hk : tKick (rbPush .txq b s).2 with
    | error e => rw [hk] at h; cases h
    | ok u =>
      rw [hk] at h; cases h
      have := tKick_fields hk
      unfold rbPush at this
      split at this
      · exact this
      · exact this.after

theorem tBulkTransmit_fields {bytes : List Byte} {start length n : Nat}
    (h : tBulkTransmit bytes start length s = .ok (n, t)) : SendsOnly s t := by
  unfold tBulkTransmit at h
  dsimp only at h
  cases hk : tKick (pushAll .txq (bulkSlice bytes start (bulkCount length s)) s) with
  | error e => rw [hk] at h; cases h
  | ok u =>
    rw [hk] at h; cases h
    have := tKick_fields hk
    rw [pushAll_fields] at this
    rw [noteShort_fields]
    exact this.after.log

/-- What enqueueing a frame can change (R155). -/
theorem cfEncodeAndEnqueue_fields {op : Byte} {pl : List Byte} {n : Nat}
    (h : cfEncodeAndEnqueue op pl s = .ok (n, t)) :
    (t.seqOut = s.seqOut ∨ t.seqOut = inc8 s.seqOut) ∧ SendsOnly { s with seqOut := t.seqOut } t := by
  unfold cfEncodeAndEnqueue at h
  dsimp only at h
  cases hk : tBulkTransmit (cfFrameBytes op pl s) 0 (cfFrameBytes op pl s).length s with
  | error e => rw [hk] at h; cases h
  | ok p =>
    obtain ⟨k, u⟩ := p
    rw [hk] at h
    obtain ⟨h1, h2⟩ := tBulkTransmit_fields hk
    have hs : u.seqOut = s.seqOut := by rw [h1]
    simp only [Except.map] at h
    split at h
    · cases h
      refine ⟨.inr (by simp [bumpSeqOut, hs]), ?_, h2⟩
      rw [h1]; rfl
    · cases h
      refine ⟨.inl hs, ?_, h2⟩
      conv_lhs => rw [h1]
      rw [hs]

/-! ### What runs in interrupt context -/

/-- What the engine can change while it handles a frame: two flags only go down, one goes up with the one byte that can
go out, and the host's register, `DRE_IE` and the environment's plans stay. -/
structure EngineOnly (s t : State) : Prop where
  rest : t = { s with
    rxq := t.rxq, txq := t.txq, ls := t.ls, seqIn := t.seqIn, seqOut := t.seqOut, ecf := t.ecf, ctx := t.ctx
    periph := t.periph, wireOut := t.wireOut, handlerOut := t.handlerOut, conds := t.conds }
  self : t.ls.selfWaiting = true → s.ls.selfWaiting = true
  partner : t.ls.partnerWaiting = s.ls.partnerWaiting
  waitingAck : t.ls.waitingAck = true → s.ls.waitingAck = true
  transmitting : s.ls.transmitting = true → t.ls.transmitting = true
  sent : (t.wireOut = s.wireOut ∧ t.periph = s.periph ∧ t.ls.transmitting = s.ls.transmitting) ∨
    ∃ b, t.wireOut = s.wireOut ++ [b] ∧ s.periph.txBusy = false
      ∧ t.periph = { s.periph with txBusy := true, txData := b } ∧ t.ls.transmitting = true

theorem EngineOnly.refl (s : State) : EngineOnly s s := ⟨rfl, id, rfl, id, id, .inl ⟨rfl, rfl, rfl⟩⟩

theorem EngineOnly.trans (h : EngineOnly s t) (h' : EngineOnly t u) : EngineOnly s u := by
  refine ⟨?_, h.self ∘ h'.self, h'.partner.trans h.partner, h.waitingAck ∘ h'.waitingAck,
    h'.transmitting ∘ h.transmitting, ?_⟩
  · conv_lhs => rw [h'.rest]
    conv_lhs => rw [h.rest]
  · rcases h.sent with ⟨a, b, c⟩ | ⟨x, a, b, c, d⟩
    · rw [← a, ← b, ← c]; exact h'.sent
    · rcases h'.sent with ⟨d', e, -⟩ | ⟨y, d', e, _⟩
      · exact .inr ⟨x, d'.trans a, b, e.trans c, h'.transmitting d⟩
      · rw [c] at e; cases e

theorem ReadsOnly.engine (h : ReadsOnly .ecf s t) : EngineOnly s t := by
  have e : t.ls = s.ls ∧ t.wireOut = s.wireOut ∧ t.periph = s.periph := by rw [h]; exact ⟨rfl, rfl, rfl⟩
  obtain ⟨e1, e2, e3⟩ := e
  refine ⟨?_, by rw [e1]; exact id, by rw [e1], by rw [e1]; exact id, by rw [e1]; exact id, .inl ⟨e2, e3, by rw [e1]⟩⟩
  rw [h]; rfl

theorem SendsOnly.engine (h : SendsOnly s t) : EngineOnly s t := by
  obtain ⟨h1, h2⟩ := h
  have hr : t = { s with
      rxq := t.rxq, txq := t.txq, ls := t.ls, seqIn := t.seqIn, seqOut := t.seqOut, ecf := t.ecf, ctx := t.ctx
      periph := t.periph, wireOut := t.wireOut, handlerOut := t.handlerOut, conds := t.conds } := by
    have e : t.rxq = s.rxq ∧ t.seqIn = s.seqIn ∧ t.seqOut = s.seqOut ∧ t.ecf = s.ecf ∧ t.ctx = s.ctx
        ∧ t.handlerOut = s.handlerOut := by
      rw [h1]; exact ⟨rfl, rfl, rfl, rfl, rfl, rfl⟩
    obtain ⟨e1, e2, e3, e4, e5, e6⟩ := e
    rw [e1, e2, e3, e4, e5, e6]; exact h1
  rcases h2 with ⟨e2, e1, e3⟩ | ⟨b, e2, e4, e1, e3⟩
  · exact ⟨hr, by rw [e1]; exact id, by rw [e1], by rw [e1]; exact id, by rw [e1]; exact id, .inl ⟨e2, e3, by rw [e1]⟩⟩
  · exact ⟨hr, by rw [e1]; exact id, by rw [e1], by rw [e1]; exact id, by rw [e1]; exact fun _ => rfl,
      .inr ⟨b, e2, e4, e3, by rw [e1]⟩⟩

theorem engineOnly_signal (c : Condition) (s : State) : EngineOnly s (signal c s) :=
  ⟨rfl, id, rfl, id, id, .inl ⟨rfl, rfl, rfl⟩⟩

theorem engineOnly_bumpSeqIn (s : State) : EngineOnly s (bumpSeqIn s) := ⟨rfl, id, rfl, id, id, .inl ⟨rfl, rfl, rfl⟩⟩

theorem engineOnly_cfDiscard (s : State) : EngineOnly s (cfDiscard s) :=
  ReadsOnly.engine (discardLoop_fields .ecf _ s)

theorem engineOnly_enqueue {op : Byte} {pl : List Byte} {n : Nat} (h : cfEncodeAndEnqueue op pl s = .ok (n, t)) :
    EngineOnly s t := by
  obtain ⟨-, h2⟩ := cfEncodeAndEnqueue_fields h
  have h1 : EngineOnly s { s with seqOut := t.seqOut } := ⟨rfl, id, rfl, id, id, .inl ⟨rfl, rfl, rfl⟩⟩
  exact h1.trans h2.engine

theorem engineOnly_handleApp (s : State) : EngineOnly s (handleApp s).2 := by
  have h1 : EngineOnly s (cfRdPayload .ecf s.cfg.L s) := ReadsOnly.engine (cfRdPayload_fields .ecf _ s)
  exact h1.trans ⟨rfl, id, rfl, id, id, .inl ⟨rfl, rfl, rfl⟩⟩

theorem engineOnly_handleResync (s : State) : EngineOnly s (handleResync s).2 := by
  have h1 : EngineOnly s (cfRdPayload .ecf s.cfg.L s) := ReadsOnly.engine (cfRdPayload_fields .ecf _ s)
  unfold handleResync
  dsimp only
  split
  · exact h1.trans (engineOnly_signal _ _)
  · exact h1.trans ⟨rfl, id, rfl, id, id, .inl ⟨rfl, rfl, rfl⟩⟩

theorem engineOnly_handleAck (s : State) : EngineOnly s (handleAck s).2 := by
  have h1 : EngineOnly s (setWaitingAck false s) :=
    ⟨rfl, id, rfl, fun h => Bool.noConfusion h, id, .inl ⟨rfl, rfl, rfl⟩⟩
  exact h1.trans (engineOnly_cfDiscard _)

theorem engineOnly_handleWait {r : FrameResult} (h : handleWait s = .ok (r, t)) : EngineOnly s t := by
  have h1 : EngineOnly s (if s.ls.selfWaiting then s else setRequestSelfWait true s) := by
    split
    · exact .refl s
    · exact ⟨rfl, id, rfl, id, id, .inl ⟨rfl, rfl, rfl⟩⟩
  unfold handleWait at h
  dsimp only at h
  revert h h1
  generalize (if s.ls.selfWaiting then s else setRequestSelfWait true s) = s1
  intro h h1
  cases he : cfEncodeAndEnqueue s1.cfg.opAck [] s1 with
  | error e => rw [he] at h; cases h
  | ok p =>
    rw [he] at h; cases h
    exact (h1.trans (engineOnly_enqueue he)).trans (engineOnly_cfDiscard _)

theorem engineOnly_handleResume {r : FrameResult} (h : handleResume s = .ok (r, t)) : EngineOnly s t := by
  have h1 : EngineOnly s (setRequestSelfWait false (setSelfWaiting false s)) :=
    ⟨rfl, fun h => Bool.noConfusion h, rfl, id, id, .inl ⟨rfl, rfl, rfl⟩⟩
  unfold handleResume tBeginTransmit at h
  cases he : tKick (setRequestSelfWait false (setSelfWaiting false s)) with
  | error e => rw [he] at h; cases h
  | ok u =>
    rw [he] at h; cases h
    exact (h1.trans (tKick_fields he).engine).trans (engineOnly_cfDiscard _)

theorem engineOnly_dispatch {op : Byte} {r : FrameResult} (h : dispatch op s = .ok (r, t)) : EngineOnly s t := by
  unfold dispatch at h
  split at h
  · exact engineOnly_handleWait h
  · exact engineOnly_handleResume h
  · cases h; exact engineOnly_handleAck s
  · cases h; exact (engineOnly_signal _ s).trans (engineOnly_handleApp _)
  · have := engineOnly_handleResync s; rw [Except.ok.inj h] at this; exact this
  · cases h; exact engineOnly_handleApp s
  · cases h; exact engineOnly_handleApp s
  · cases h; exact .refl s

theorem engineOnly_force {op : Byte} {pl : List Byte} {k : Kont} (h : cfEncodeAndForce op pl k s = .ok t) :
    EngineOnly s t := by
  unfold cfEncodeAndForce peForce at h
  split at h
  · cases h; exact ⟨rfl, id, rfl, id, id, .inl ⟨rfl, rfl, rfl⟩⟩
  · cases h

theorem engineOnly_complete (h : complete s = .ok t) : EngineOnly s t := by
  unfold complete sendResume at h
  dsimp only at h
  split at h
  · exact (engineOnly_bumpSeqIn s).trans (engineOnly_force h)
  · cases h; exact engineOnly_bumpSeqIn s

/-- What frame reception can change (R174). -/
theorem engineOnly_peFrame (h : peFrame s = .ok t) : EngineOnly s t := by
  have h1 : EngineOnly s (cfRdOpcode .ecf s).2 := ReadsOnly.engine (cfRdOpcode_fields .ecf s)
  have run : ∀ {op : Byte} {u : State}, EngineOnly s u → runFrame op u = .ok t → EngineOnly s t := by
    intro op u hu hr
    unfold runFrame at hr
    cases hd : dispatch op u with
    | error e => rw [hd] at hr; cases hr
    | ok p =>
      obtain ⟨r, v⟩ := p
      rw [hd] at hr
      have h2 := hu.trans (engineOnly_dispatch hd)
      cases r
      · exact h2.trans (engineOnly_complete hr)
      · cases hr; exact h2
  unfold peFrame at h
  dsimp only at h
  split at h
  · cases h; exact h1
  · split at h
    · have h2 := h1.trans (ReadsOnly.engine (cfRdSeq_fields .ecf (cfRdOpcode .ecf s).2))
      split at h
      · cases h; exact h2
      · split at h
        · unfold rejectFrame sendResync at h
          revert h h2
          generalize (cfRdSeq (cfRdOpcode .ecf s).2).state = u
          intro h2 h
          have h3 := h2.trans (engineOnly_signal (.seqMismatch (cfRdSeq (cfRdOpcode .ecf s).2).stamp u.seqIn) u)
          revert h h3
          generalize signal (.seqMismatch (cfRdSeq (cfRdOpcode .ecf s).2).stamp u.seqIn) u = v
          intro h h3
          cases he : cfEncodeAndEnqueue v.cfg.opResync (counterPair v) v with
          | error e => rw [he] at h; cases h
          | ok p =>
            rw [he] at h; cases h
            exact (h3.trans (engineOnly_enqueue he)).trans (engineOnly_cfDiscard _)
        · exact run h2 h
    · exact run h1 h

/-- Frame reception returns no value. -/
theorem peFrame_ret (h : peFrame s = .ok t) : t.ret = s.ret := by rw [(engineOnly_peFrame h).rest]

/-- The completion does not read what the row returned. -/
theorem complete_setRet (r : OpResult) (s : State) : complete (setRet r s) = (complete s).map (setRet r) := by
  unfold complete sendResume cfEncodeAndForce peForce
  dsimp only
  rw [show (bumpSeqIn (setRet r s)).ls = (bumpSeqIn s).ls from rfl]
  split
  · rw [show (bumpSeqOut (bumpSeqIn (setRet r s))).ctx = (bumpSeqOut (bumpSeqIn s)).ctx from rfl]
    split <;> rfl
  · rfl

end Sys2Proof.Machine
end

