-- ==== Sys2Proof/Laws/Engine.lean ====
section
/-! SUPPORT. The engine's operations keep the block in order, and break the contract of a busy peripheral only where
R140 fails. -/

namespace Sys2Proof.Machine

variable {s t u : State} {b : Byte} {f : FrameId}

/-- The invariant without its clauses on the suspended handler. -/
structure InOrder (s : State) : Prop where
  cfg : s.cfg.wf
  rxq : RingOk s.cfg.N s.rxq
  txq : RingOk s.cfg.N s.txq
  hcf : FrameOk s.cfg.L s.hcf
  ecf : FrameOk s.cfg.L s.ecf
  exclusive : (s.ls.requestSelfWait && s.ls.selfWaiting) = false

theorem Inv.inOrder (h : Inv s) : InOrder s := ⟨h.cfg, h.rxq, h.txq, h.hcf, h.ecf, h.exclusive⟩

theorem InOrder.inv (h : InOrder s) (h1 : ctxLength s.ctx ≤ s.cfg.flen 2) (h2 : s.ctx ≠ .idle → s.ls.partnerWaiting = true) :
    Inv s := ⟨h.cfg, h.rxq, h.txq, h.hcf, h.ecf, h.exclusive, h1, h2⟩

theorem InOrder.inv_idle (h : InOrder s) (hc : s.ctx = .idle) : Inv s :=
  h.inv (by rw [hc]; exact Nat.zero_le _) (fun h => absurd hc h)

/-- `t` is in order, its handler suspended as in `s`, and R140 goes over from `s` to `t`. -/
structure KeptBy (s t : State) : Prop where
  inOrder : InOrder t
  cfg : t.cfg = s.cfg
  ctx : t.ctx = s.ctx
  partner : t.ls.partnerWaiting = s.ls.partnerWaiting
  idleReady : IdleReady s → IdleReady t

/-- A computation ends in a state that is kept, or stops at a busy peripheral where R140 fails. -/
def Keeps (s : State) (x : Except Fault State) : Prop :=
  (∃ t, x = .ok t ∧ KeptBy s t) ∨ (x = .error .handoffBusy ∧ ¬ IdleReady s)

theorem KeptBy.trans (h : KeptBy s t) (h' : KeptBy t u) : KeptBy s u :=
  ⟨h'.inOrder, h'.cfg.trans h.cfg, h'.ctx.trans h.ctx, h'.partner.trans h.partner, h'.idleReady ∘ h.idleReady⟩

theorem KeptBy.refl (h : InOrder s) : KeptBy s s := ⟨h, rfl, rfl, rfl, id⟩

theorem KeptBy.keeps (h : KeptBy s t) : Keeps s (.ok t) := .inl ⟨t, rfl, h⟩

/-- One computation after another. -/
theorem Keeps.bind {x : Except Fault State} {g : State → Except Fault State} (h : Keeps s x)
    (hg : ∀ t, x = .ok t → KeptBy s t → Keeps t (g t)) : Keeps s (x.bind g) := by
  rcases h with ⟨t, rfl, ht⟩ | ⟨rfl, hn⟩
  · rcases hg t rfl ht with ⟨u, h1, h2⟩ | ⟨h1, h2⟩
    · exact .inl ⟨u, h1, ht.trans h2⟩
    · exact .inr ⟨h1, fun h => h2 (ht.idleReady h)⟩
  · exact .inr ⟨rfl, hn⟩

theorem Keeps.map {x : Except Fault State} {g : State → State} (h : Keeps s x)
    (hg : ∀ t, x = .ok t → KeptBy s t → KeptBy t (g t)) : Keeps s (x.map g) := by
  rcases h with ⟨t, rfl, ht⟩ | ⟨rfl, hn⟩
  · exact .inl ⟨g t, rfl, ht.trans (hg t rfl ht)⟩
  · exact .inr ⟨rfl, hn⟩

/-- A computation from a kept state. -/
theorem Keeps.after {x : Except Fault State} (h : Keeps t x) (ht : KeptBy s t) : Keeps s x := by
  rcases h with ⟨u, rfl, hu⟩ | ⟨rfl, hn⟩
  · exact .inl ⟨u, rfl, ht.trans hu⟩
  · exact .inr ⟨rfl, fun h => hn (ht.idleReady h)⟩

/-! ### Single operations -/

theorem keptBy_signal (c : Condition) (h : InOrder s) : KeptBy s (signal c s) :=
  ⟨⟨h.cfg, h.rxq, h.txq, h.hcf, h.ecf, h.exclusive⟩, rfl, rfl, rfl, id⟩

theorem keptBy_setRet (r : OpResult) (h : InOrder s) : KeptBy s (setRet r s) :=
  ⟨⟨h.cfg, h.rxq, h.txq, h.hcf, h.ecf, h.exclusive⟩, rfl, rfl, rfl, id⟩

theorem keptBy_setAck (a : Bool) (h : InOrder s) : KeptBy s (setAck a s) :=
  ⟨⟨h.cfg, h.rxq, h.txq, h.hcf, h.ecf, h.exclusive⟩, rfl, rfl, rfl, id⟩

theorem keptBy_setRing (q : QueueId) {r : Ring} (h : InOrder s) (hr : RingOk s.cfg.N r) : KeptBy s (setRing q r s) := by
  cases q
  · exact ⟨⟨h.cfg, hr, h.txq, h.hcf, h.ecf, h.exclusive⟩, rfl, rfl, rfl, id⟩
  · exact ⟨⟨h.cfg, h.rxq, hr, h.hcf, h.ecf, h.exclusive⟩, rfl, rfl, rfl, id⟩

theorem keptBy_setFrame (f : FrameId) {g : FrameReg} (h : InOrder s) (hg : FrameOk s.cfg.L g) :
    KeptBy s (setFrame f g s) := by
  cases f
  · exact ⟨⟨h.cfg, h.rxq, h.txq, hg, h.ecf, h.exclusive⟩, rfl, rfl, rfl, id⟩
  · exact ⟨⟨h.cfg, h.rxq, h.txq, h.hcf, hg, h.exclusive⟩, rfl, rfl, rfl, id⟩

theorem InOrder.frame (h : InOrder s) (f : FrameId) : FrameOk s.cfg.L (frame f s) := by
  cases f
  · exact h.hcf
  · exact h.ecf

theorem InOrder.ring (h : InOrder s) (q : QueueId) : RingOk s.cfg.N (ring q s) := by
  cases q
  · exact h.rxq
  · exact h.txq

theorem keptBy_rbPop (q : QueueId) (h : InOrder s) : KeptBy s (rbPop q s).state := by
  unfold rbPop
  split
  · exact keptBy_signal _ h
  · rename_i hn
    exact keptBy_setRing q h ((h.ring q).popped (by simpa [rbIsEmpty] using hn))

theorem keptBy_rbPush (q : QueueId) (b : Byte) (h : InOrder s) : KeptBy s (rbPush q b s).2 := by
  unfold rbPush
  split
  · exact .refl h
  · rename_i hn
    have hr := h.ring q
    have hne : (ring q s).count ≠ s.cfg.N := by simpa [rbIsFull] using hn
    exact keptBy_setRing q h (hr.pushed (by have := hr.2.2.2.2.1; omega))

theorem keptBy_rbInit (q : QueueId) (h : InOrder s) : KeptBy s (rbInit q s) :=
  keptBy_setRing q h (ringOk_empty h.cfg.1 (h.ring q).1 (h.ring q).2.1)

theorem keeps_tKick (h : InOrder s) : Keeps s (tKick s) := by
  rcases tKick_total h.txq with ⟨t, h1, h2, -, -, h5, h6, h7⟩ | ⟨h1, h2⟩
  · have hls : t.ls.selfWaiting = s.ls.selfWaiting ∧ t.ls.requestSelfWait = s.ls.requestSelfWait
        ∧ t.ls.partnerWaiting = s.ls.partnerWaiting := by
      unfold KickedWith at h2
      split at h2
      · rw [h2.2.2.1]; exact ⟨rfl, rfl, rfl⟩
      · rw [h2.2.2.1]; exact ⟨rfl, rfl, rfl⟩
    have hc : t.cfg = s.cfg := by rw [h7]
    refine .inl ⟨t, h1, ⟨⟨?_, ?_, ?_, ?_, ?_, ?_⟩, hc, by rw [h7], hls.2.2, h6⟩⟩
    · rw [hc]; exact h.cfg
    · rw [hc, h7]; exact h.rxq
    · rw [hc]; exact h5
    · rw [hc, h7]; exact h.hcf
    · rw [hc, h7]; exact h.ecf
    · rw [hls.1, hls.2.1]; exact h.exclusive
  · exact .inr ⟨h1, h2⟩

theorem keptBy_pushAll (q : QueueId) (l : List Byte) (h : InOrder s) : KeptBy s (pushAll q l s) := by
  induction l generalizing s with
  | nil => exact .refl h
  | cons b l ih =>
    have h1 := keptBy_rbPush q b h
    exact h1.trans (ih h1.inOrder)

theorem keptBy_noteShort (k n : Nat) (h : InOrder s) : KeptBy s (noteShort k n s) := by
  unfold noteShort
  split
  · exact keptBy_signal _ h
  · exact .refl h

theorem keptBy_bumpSeqOut (h : InOrder s) : KeptBy s (bumpSeqOut s) :=
  ⟨⟨h.cfg, h.rxq, h.txq, h.hcf, h.ecf, h.exclusive⟩, rfl, rfl, rfl, id⟩

theorem keptBy_bumpSeqIn (h : InOrder s) : KeptBy s (bumpSeqIn s) :=
  ⟨⟨h.cfg, h.rxq, h.txq, h.hcf, h.ecf, h.exclusive⟩, rfl, rfl, rfl, id⟩

/-- The same for a computation with a value. -/
theorem map_snd_map {α : Type} {x : Except Fault State} {g : State → α × State} :
    (x.map g).map Prod.snd = x.map (fun t => (g t).2) := by
  cases x <;> rfl

theorem keeps_tBulkTransmit (bytes : List Byte) (start length : Nat) (h : InOrder s) :
    Keeps s ((tBulkTransmit bytes start length s).map Prod.snd) := by
  unfold tBulkTransmit
  dsimp only
  rw [map_snd_map]
  have h1 := keptBy_pushAll .txq (bulkSlice bytes start (bulkCount length s)) h
  refine (Keeps.map (keeps_tKick h1.inOrder) fun t _ ht => ?_).after h1
  exact keptBy_noteShort _ _ ht.inOrder

theorem keeps_tTransmit (b : Byte) (h : InOrder s) : Keeps s ((tTransmit b s).map Prod.snd) := by
  unfold tTransmit
  split
  · exact (keptBy_signal _ h).keeps
  · rw [map_snd_map]
    have h1 := keptBy_rbPush .txq b h
    exact (Keeps.map (keeps_tKick h1.inOrder) fun t _ ht => .refl ht.inOrder).after h1

theorem keeps_cfEncodeAndEnqueue (op : Byte) (pl : List Byte) (h : InOrder s) :
    Keeps s ((cfEncodeAndEnqueue op pl s).map Prod.snd) := by
  have hb := keeps_tBulkTransmit (cfFrameBytes op pl s) 0 (cfFrameBytes op pl s).length h
  unfold cfEncodeAndEnqueue
  dsimp only
  rcases hb with ⟨t, h1, h2⟩ | ⟨h1, h2⟩
  · cases hx : tBulkTransmit (cfFrameBytes op pl s) 0 (cfFrameBytes op pl s).length s with
    | error e => rw [hx] at h1; cases h1
    | ok p =>
      obtain ⟨k, t'⟩ := p
      rw [hx] at h1; cases h1
      simp only [Except.map]
      split
      · exact (h2.trans (keptBy_bumpSeqOut h2.inOrder)).keeps
      · exact h2.keeps
  · cases hx : tBulkTransmit (cfFrameBytes op pl s) 0 (cfFrameBytes op pl s).length s with
    | error e => rw [hx] at h1; cases h1; exact .inr ⟨rfl, h2⟩
    | ok p => rw [hx] at h1; cases h1

/-! ### Reading a frame -/

theorem keptBy_discardLoop (k : Nat) (h : InOrder s) : KeptBy s (discardLoop k s) := by
  induction k generalizing s with
  | zero => exact .refl h
  | succ k ih =>
    unfold discardLoop
    dsimp only
    have h1 := keptBy_rbPop .rxq h
    split
    · exact h1
    · exact h1.trans (ih h1.inOrder)

theorem keptBy_cfDiscard (h : InOrder s) : KeptBy s (cfDiscard s) := keptBy_discardLoop _ h

theorem keptBy_rdPayloadLoop (f : FrameId) (lim k : Nat) (hl : lim ≤ s.cfg.L) (h : InOrder s) :
    KeptBy s (rdPayloadLoop f lim k s) := by
  induction k generalizing s with
  | zero => exact .refl h
  | succ k ih =>
    unfold rdPayloadLoop
    dsimp only
    have h1 := keptBy_rbPop .rxq h
    split
    · exact h1
    · have h2 : KeptBy (rbPop .rxq s).state (takePayload f lim (rbPop .rxq s).byte (rbPop .rxq s).state) := by
        unfold takePayload
        split
        · rename_i hlt
          have hf := h1.inOrder.frame f
          exact keptBy_setFrame f h1.inOrder (hf.appended (by rw [h1.cfg]; omega))
        · exact keptBy_signal _ h1.inOrder
      have h3 := h1.trans h2
      exact h3.trans (ih (by rw [h3.cfg]; exact hl) h3.inOrder)

theorem keptBy_cfRdPayload (f : FrameId) (m : Nat) (h : InOrder s) : KeptBy s (cfRdPayload f m s) := by
  have h1 : KeptBy s (setFrame f { frame f s with len := 0 } s) := by
    refine keptBy_setFrame f h ⟨(h.frame f).1, (h.frame f).2.1, Nat.zero_le _, fun i hi => absurd hi (Nat.not_lt_zero i)⟩
  exact h1.trans (keptBy_rdPayloadLoop f _ _ (by rw [h1.cfg]; exact Nat.min_le_right _ _) h1.inOrder)

theorem keptBy_cfSetOpcode (f : FrameId) (op : Byte) (h : InOrder s) : KeptBy s (cfSetOpcode f op s) :=
  keptBy_setFrame f h (h.frame f)

theorem keptBy_cfInit (f : FrameId) (h : InOrder s) : KeptBy s (cfInit f s) :=
  keptBy_setFrame f h ⟨(h.frame f).1, (h.frame f).2.1, Nat.zero_le _, fun i hi => absurd hi (Nat.not_lt_zero i)⟩

theorem keptBy_cfAppend (f : FrameId) (b : Byte) (h : InOrder s) : KeptBy s (cfAppend f b s).2 := by
  unfold cfAppend
  split
  · exact keptBy_signal _ h
  · rename_i hne
    have hf := h.frame f
    exact keptBy_setFrame f h (hf.appended (by have := hf.2.2.1; omega))

theorem keptBy_cfRdOpcode (f : FrameId) (h : InOrder s) : KeptBy s (cfRdOpcode f s).2 := by
  unfold cfRdOpcode
  split
  · exact .refl h
  · dsimp only
    have h1 := keptBy_rbPop .rxq h
    split
    · exact h1
    · exact h1.trans (keptBy_cfSetOpcode f _ h1.inOrder)

theorem keptBy_cfRdSeq (h : InOrder s) : KeptBy s (cfRdSeq s).state := by
  unfold cfRdSeq
  split
  · exact .refl h
  · exact keptBy_rbPop .rxq h

theorem keptBy_cfDecodeFromReceive (m : Nat) (h : InOrder s) : KeptBy s (cfDecodeFromReceive m s).state := by
  have h0 := keptBy_cfInit .hcf h
  have h1 := h0.trans (keptBy_cfRdOpcode .hcf h0.inOrder)
  unfold cfDecodeFromReceive
  dsimp only
  split
  · exact h1
  · split
    · have h2 := h1.trans (keptBy_cfRdSeq h1.inOrder)
      split
      · exact h2
      · exact h2.trans (keptBy_cfRdPayload .hcf m h2.inOrder)
    · exact h1.trans (keptBy_cfRdPayload .hcf m h1.inOrder)

/-! ### The rows of the opcode map -/

theorem keeps_handleWait (h : InOrder s) : Keeps s ((handleWait s).map Prod.snd) := by
  have h1 : KeptBy s (if s.ls.selfWaiting then s else setRequestSelfWait true s) := by
    split
    · exact .refl h
    · rename_i hs
      exact ⟨⟨h.cfg, h.rxq, h.txq, h.hcf, h.ecf, by simp at hs; simp [setRequestSelfWait, hs]⟩, rfl, rfl, rfl, id⟩
  have h2 := (keeps_cfEncodeAndEnqueue (if s.ls.selfWaiting then s else setRequestSelfWait true s).cfg.opAck []
    h1.inOrder).after h1
  have h3 := Keeps.map (g := cfDiscard) h2 fun t _ ht => keptBy_cfDiscard ht.inOrder
  unfold handleWait
  dsimp only
  revert h3
  cases cfEncodeAndEnqueue _ [] (if s.ls.selfWaiting then s else setRequestSelfWait true s) <;> exact id

theorem keeps_handleResume (h : InOrder s) : Keeps s ((handleResume s).map Prod.snd) := by
  have h1 : KeptBy s (setRequestSelfWait false (setSelfWaiting false s)) :=
    ⟨⟨h.cfg, h.rxq, h.txq, h.hcf, h.ecf, rfl⟩, rfl, rfl, rfl, id⟩
  unfold handleResume tBeginTransmit
  rw [map_snd_map]
  exact (Keeps.map (keeps_tKick h1.inOrder) fun t _ ht => keptBy_cfDiscard ht.inOrder).after h1

theorem keptBy_handleAck (h : InOrder s) : KeptBy s (handleAck s).2 := by
  have h1 : KeptBy s (setWaitingAck false s) :=
    ⟨⟨h.cfg, h.rxq, h.txq, h.hcf, h.ecf, h.exclusive⟩, rfl, rfl, rfl, id⟩
  exact h1.trans (keptBy_cfDiscard h1.inOrder)

theorem keptBy_handleResync (h : InOrder s) : KeptBy s (handleResync s).2 := by
  have h1 := keptBy_cfRdPayload .ecf s.cfg.L h
  unfold handleResync
  dsimp only
  split
  · exact h1.trans (keptBy_signal _ h1.inOrder)
  · have h2 := h1.inOrder
    exact h1.trans ⟨⟨h2.cfg, h2.rxq, h2.txq, h2.hcf, h2.ecf, h2.exclusive⟩, rfl, rfl, rfl, id⟩

theorem keptBy_handleApp (h : InOrder s) : KeptBy s (handleApp s).2 := by
  have h1 := keptBy_cfRdPayload .ecf s.cfg.L h
  have h2 := h1.inOrder
  exact h1.trans ⟨⟨h2.cfg, h2.rxq, h2.txq, h2.hcf, h2.ecf, h2.exclusive⟩, rfl, rfl, rfl, id⟩

theorem keptBy_handleUnsolicited (h : InOrder s) : KeptBy s (handleUnsolicited s).2 := by
  have h1 := keptBy_signal .unsolicitedAck h
  exact h1.trans (keptBy_handleApp h1.inOrder)

/-- Every row of the dispatch keeps the block in order (R178). -/
theorem keeps_dispatch (op : Byte) (h : InOrder s) : Keeps s ((dispatch op s).map Prod.snd) := by
  unfold dispatch
  split
  · exact keeps_handleWait h
  · exact keeps_handleResume h
  · exact (keptBy_handleAck h).keeps
  · exact (keptBy_handleUnsolicited h).keeps
  · exact (keptBy_handleResync h).keeps
  · exact (keptBy_handleApp h).keeps
  · exact (keptBy_handleApp h).keeps
  · exact (KeptBy.refl h).keeps

/-- The test of the transmit-complete handler on the contents of `TXQ` (R210). -/
theorem headIsEnd_eq (ho : RingOk s.cfg.N s.txq) : headIsEnd s = ((cont .txq s).head? == some s.cfg.opEnd) := by
  unfold headIsEnd
  cases h : cont .txq s with
  | nil => rw [rbPeekHead_nil h]; rfl
  | cons x l => rw [rbPeekHead_cons ho h, Bool.true_and]; rfl

/-! ### What can suspend the handler -/

/-- A computation ends in a state that meets the invariant, R140 going over, or stops at a busy peripheral where R140
fails. -/
def Ends (s : State) (x : Except Fault State) : Prop :=
  (∃ t, x = .ok t ∧ Inv t ∧ (IdleReady s → IdleReady t)) ∨ (x = .error .handoffBusy ∧ ¬ IdleReady s)

theorem Keeps.ends {x : Except Fault State} (h : Keeps s x) (hc : s.ctx = .idle) : Ends s x := by
  rcases h with ⟨t, h1, h2⟩ | h
  · exact .inl ⟨t, h1, h2.inOrder.inv_idle (h2.ctx.trans hc), h2.idleReady⟩
  · exact .inr h

theorem Keeps.bind_ends {x : Except Fault State} {g : State → Except Fault State} (h : Keeps s x)
    (hg : ∀ t, x = .ok t → KeptBy s t → Ends t (g t)) : Ends s (x.bind g) := by
  rcases h with ⟨t, rfl, ht⟩ | ⟨rfl, hn⟩
  · rcases hg t rfl ht with ⟨u, h1, h2, h3⟩ | ⟨h1, h2⟩
    · exact .inl ⟨u, h1, h2, h3 ∘ ht.idleReady⟩
    · exact .inr ⟨h1, fun h => h2 (ht.idleReady h)⟩
  · exact .inr ⟨rfl, hn⟩

theorem Ends.after {x : Except Fault State} (h : Ends t x) (ht : KeptBy s t) : Ends s x := by
  rcases h with ⟨u, rfl, hu, h3⟩ | ⟨rfl, hn⟩
  · exact .inl ⟨u, rfl, hu, h3 ∘ ht.idleReady⟩
  · exact .inr ⟨rfl, fun h => hn (ht.idleReady h)⟩

/-- A forced control frame started while the peer is held (R44, R156, R213). -/
theorem ends_cfEncodeAndForce (op : Byte) (pl : List Byte) (k : Kont) (h : InOrder s) (hc : s.ctx = .idle)
    (hp : s.ls.partnerWaiting = true) (hl : pl.length ≤ 2) : Ends s (cfEncodeAndForce op pl k s) := by
  unfold cfEncodeAndForce peForce
  rw [if_pos (show (bumpSeqOut s).ctx = .idle from hc)]
  refine .inl ⟨_, rfl, ⟨h.cfg, h.rxq, h.txq, h.hcf, h.ecf, h.exclusive, ?_, fun _ => hp⟩, fun h => h⟩
  have hf := frameBytes_length s.cfg s.seqOut op pl
  have hs : s.cfg.flen pl.length ≤ s.cfg.flen 2 := by simp only [Config.flen]; omega
  show 1 + (frameTail s.cfg s.seqOut pl).length ≤ s.cfg.flen 2
  simp only [frameBytes, List.length_cons] at hf
  omega

theorem ends_complete (h : InOrder s) (hc : s.ctx = .idle) : Ends s (complete s) := by
  have h1 := keptBy_bumpSeqIn h
  unfold complete
  dsimp only
  split
  · rename_i hp
    exact (ends_cfEncodeAndForce _ _ _ h1.inOrder hc hp (by simp [counterPair])).after h1
  · exact Keeps.ends h1.keeps hc

/-- Frame reception from a state with no handler suspended (R174). -/
theorem ends_peFrame (h : InOrder s) (hc : s.ctx = .idle) : Ends s (peFrame s) := by
  have h1 := keptBy_cfRdOpcode .ecf h
  have run : ∀ (op : Byte) (t : State), KeptBy s t → Ends s (runFrame op t) := by
    intro op t ht
    have hd := keeps_dispatch op ht.inOrder
    unfold runFrame
    refine Ends.after ?_ ht
    have : Ends t (((dispatch op t).map Prod.snd).bind (fun _ => (dispatch op t).bind settleFrame)) := by
      refine hd.bind_ends fun u hu hk => ?_
      cases hx : dispatch op t with
      | error e => rw [hx] at hu; cases hu
      | ok p =>
        obtain ⟨r, u'⟩ := p
        rw [hx] at hu; cases hu
        cases r
        · exact ends_complete hk.inOrder (by rw [hk.ctx, ht.ctx, hc])
        · exact (KeptBy.refl hk.inOrder).keeps.ends (by rw [hk.ctx, ht.ctx, hc])
    revert this
    cases dispatch op t <;> exact id
  unfold peFrame
  dsimp only
  split
  · exact h1.keeps.ends hc
  · split
    · have h2 := h1.trans (keptBy_cfRdSeq h1.inOrder)
      split
      · exact h2.keeps.ends hc
      · split
        · unfold rejectFrame
          have h3 := h2.trans (keptBy_signal (.seqMismatch (cfRdSeq (cfRdOpcode .ecf s).2).stamp
            (cfRdSeq (cfRdOpcode .ecf s).2).state.seqIn) h2.inOrder)
          exact ((Keeps.map (keeps_cfEncodeAndEnqueue _ _ h3.inOrder)
            fun t _ ht => keptBy_cfDiscard ht.inOrder).after h3).ends hc
        · exact run _ _ h2
    · exact run _ _ h1

end Sys2Proof.Machine
end

