-- ==== Sys2Proof/Laws/PerInstr.lean ====
section
/-! SUPPORT. The family `EncodingRoundTrip`: for every operation, what its code decodes to has that code again. One lemma
per constructor. -/

namespace Sys2Proof.Laws

/-- What the code of an operation decodes to, whatever `LS.WAITING_ACK` says, has the same code. -/
def EncodingRoundTrip.Statement (i : Instr) : Prop :=
  ∀ (c : Config) (waitingAck : Bool) (code : Code),
    wellFormed c i = true → encode c i = some code → encode c (decode c waitingAck code) = some code

theorem EncodingRoundTrip.wait : EncodingRoundTrip.Statement .wait := by
  intro c w code _ h
  obtain rfl := Option.some.inj h
  simp only [decode, decodeOpcode, classify]
  split_ifs <;> simp_all [encode, encodeOpcode, FrameKind.toInstr]

theorem EncodingRoundTrip.resume : EncodingRoundTrip.Statement .resume := by
  intro c w code _ h
  obtain rfl := Option.some.inj h
  simp only [decode, decodeOpcode, classify]
  split_ifs <;> simp_all [encode, encodeOpcode, FrameKind.toInstr]

theorem EncodingRoundTrip.ack : EncodingRoundTrip.Statement .ack := by
  intro c w code _ h
  obtain rfl := Option.some.inj h
  simp only [decode, decodeOpcode, classify]
  split_ifs <;> simp_all [encode, encodeOpcode, FrameKind.toInstr]

theorem EncodingRoundTrip.ackUnsolicited : EncodingRoundTrip.Statement .ackUnsolicited := by
  intro c w code _ h
  obtain rfl := Option.some.inj h
  simp only [decode, decodeOpcode, classify]
  split_ifs <;> simp_all [encode, encodeOpcode, FrameKind.toInstr]

theorem EncodingRoundTrip.resync : EncodingRoundTrip.Statement .resync := by
  intro c w code _ h
  obtain rfl := Option.some.inj h
  simp only [decode, decodeOpcode, classify]
  split_ifs <;> simp_all [encode, encodeOpcode, FrameKind.toInstr]

theorem EncodingRoundTrip.escapeChar : EncodingRoundTrip.Statement .escapeChar := by
  intro c w code _ h
  obtain rfl := Option.some.inj h
  simp only [decode, decodeOpcode, classify]
  split_ifs <;> simp_all [encode, encodeOpcode, FrameKind.toInstr]

theorem EncodingRoundTrip.endMark : EncodingRoundTrip.Statement .endMark := by
  intro c w code _ h
  obtain rfl := Option.some.inj h
  simp only [decode, decodeOpcode, classify]
  split_ifs <;> simp_all [encode, encodeOpcode, FrameKind.toInstr]

theorem EncodingRoundTrip.app (op : Byte) : EncodingRoundTrip.Statement (.app op) := by
  intro c w code _ h
  obtain rfl := Option.some.inj h
  simp only [decode, decodeOpcode, classify]
  split_ifs <;> simp_all [encode, encodeOpcode, FrameKind.toInstr]

theorem EncodingRoundTrip.tInit : EncodingRoundTrip.Statement .tInit := by
  intro c w code _ h
  obtain rfl := Option.some.inj h
  rfl

theorem EncodingRoundTrip.tStatus : EncodingRoundTrip.Statement .tStatus := by
  intro c w code _ h
  obtain rfl := Option.some.inj h
  rfl

theorem EncodingRoundTrip.tTransmit (b : Byte) : EncodingRoundTrip.Statement (.tTransmit b) := by
  intro c w code _ h
  obtain rfl := Option.some.inj h
  rfl

theorem EncodingRoundTrip.tReceive : EncodingRoundTrip.Statement .tReceive := by
  intro c w code _ h
  obtain rfl := Option.some.inj h
  rfl

theorem EncodingRoundTrip.tBulkTransmit (bytes : List Byte) (start length : Nat) : EncodingRoundTrip.Statement (.tBulkTransmit bytes start length) := by
  intro c w code _ h
  obtain rfl := Option.some.inj h
  rfl

theorem EncodingRoundTrip.tBeginTransmit : EncodingRoundTrip.Statement .tBeginTransmit := by
  intro c w code _ h
  obtain rfl := Option.some.inj h
  rfl

theorem EncodingRoundTrip.cfInit : EncodingRoundTrip.Statement .cfInit := by
  intro c w code _ h
  obtain rfl := Option.some.inj h
  rfl

theorem EncodingRoundTrip.cfSetOpcode (op : Byte) : EncodingRoundTrip.Statement (.cfSetOpcode op) := by
  intro c w code _ h
  obtain rfl := Option.some.inj h
  rfl

theorem EncodingRoundTrip.cfAppend (b : Byte) : EncodingRoundTrip.Statement (.cfAppend b) := by
  intro c w code _ h
  obtain rfl := Option.some.inj h
  rfl

theorem EncodingRoundTrip.cfEncodeAndEnqueue : EncodingRoundTrip.Statement .cfEncodeAndEnqueue := by
  intro c w code _ h
  obtain rfl := Option.some.inj h
  rfl

theorem EncodingRoundTrip.cfDecodeFromReceive (maxLen : Byte) : EncodingRoundTrip.Statement (.cfDecodeFromReceive maxLen) := by
  intro c w code _ h
  obtain rfl := Option.some.inj h
  rfl

theorem EncodingRoundTrip.hostUnassigned (sel : BitVec 5) : EncodingRoundTrip.Statement (.hostUnassigned sel) := by
  intro c w code _ h
  obtain rfl := Option.some.inj h
  fin_cases sel <;> rfl

theorem EncodingRoundTrip.rbInit (q : QueueId) : EncodingRoundTrip.Statement (.rbInit q) := by
  intro c w code _ h
  cases h

theorem EncodingRoundTrip.rbPush (q : QueueId) (b : Byte) : EncodingRoundTrip.Statement (.rbPush q b) := by
  intro c w code _ h
  cases h

theorem EncodingRoundTrip.rbPop (q : QueueId) : EncodingRoundTrip.Statement (.rbPop q) := by
  intro c w code _ h
  cases h

theorem EncodingRoundTrip.rbIsEmpty (q : QueueId) : EncodingRoundTrip.Statement (.rbIsEmpty q) := by
  intro c w code _ h
  cases h

theorem EncodingRoundTrip.rbIsFull (q : QueueId) : EncodingRoundTrip.Statement (.rbIsFull q) := by
  intro c w code _ h
  cases h

theorem EncodingRoundTrip.rbPeekHead (q : QueueId) : EncodingRoundTrip.Statement (.rbPeekHead q) := by
  intro c w code _ h
  cases h

theorem EncodingRoundTrip.rbPeekTail (q : QueueId) : EncodingRoundTrip.Statement (.rbPeekTail q) := by
  intro c w code _ h
  cases h

theorem EncodingRoundTrip.tKick : EncodingRoundTrip.Statement .tKick := by
  intro c w code _ h
  cases h

theorem EncodingRoundTrip.tHandoff (b : Byte) : EncodingRoundTrip.Statement (.tHandoff b) := by
  intro c w code _ h
  cases h

theorem EncodingRoundTrip.tDriveTx : EncodingRoundTrip.Statement .tDriveTx := by
  intro c w code _ h
  cases h

theorem EncodingRoundTrip.tDriveRx : EncodingRoundTrip.Statement .tDriveRx := by
  intro c w code _ h
  cases h

theorem EncodingRoundTrip.cfFrameBytes (op : Byte) (payload : List Byte) : EncodingRoundTrip.Statement (.cfFrameBytes op payload) := by
  intro c w code _ h
  cases h

theorem EncodingRoundTrip.cfEncodeAndForce (op : Byte) (payload : List Byte) (k : Kont) : EncodingRoundTrip.Statement (.cfEncodeAndForce op payload k) := by
  intro c w code _ h
  cases h

theorem EncodingRoundTrip.cfRdOpcode (f : FrameId) : EncodingRoundTrip.Statement (.cfRdOpcode f) := by
  intro c w code _ h
  cases h

theorem EncodingRoundTrip.cfRdSeq : EncodingRoundTrip.Statement .cfRdSeq := by
  intro c w code _ h
  cases h

theorem EncodingRoundTrip.cfRdPayload (f : FrameId) (maxLen : Nat) : EncodingRoundTrip.Statement (.cfRdPayload f maxLen) := by
  intro c w code _ h
  cases h

theorem EncodingRoundTrip.cfDiscard : EncodingRoundTrip.Statement .cfDiscard := by
  intro c w code _ h
  cases h

theorem EncodingRoundTrip.peFrame : EncodingRoundTrip.Statement .peFrame := by
  intro c w code _ h
  cases h

theorem EncodingRoundTrip.peForce (first : Byte) (rest : List Byte) (k : Kont) : EncodingRoundTrip.Statement (.peForce first rest k) := by
  intro c w code _ h
  cases h

theorem EncodingRoundTrip.peRxc : EncodingRoundTrip.Statement .peRxc := by
  intro c w code _ h
  cases h

theorem EncodingRoundTrip.peTxc : EncodingRoundTrip.Statement .peTxc := by
  intro c w code _ h
  cases h

theorem EncodingRoundTrip.peDre : EncodingRoundTrip.Statement .peDre := by
  intro c w code _ h
  cases h

theorem EncodingRoundTrip.spin : EncodingRoundTrip.Statement .spin := by
  intro c w code _ h
  cases h

theorem EncodingRoundTrip.periphTxDone : EncodingRoundTrip.Statement .periphTxDone := by
  intro c w code _ h
  cases h

theorem EncodingRoundTrip.periphDeliver (b : Byte) : EncodingRoundTrip.Statement (.periphDeliver b) := by
  intro c w code _ h
  cases h

end Sys2Proof.Laws
end

