-- ==== Sys2Proof/Tests/Slice0.lean ====
section
/-! SUPPORT. Tests. The expected values come from the vectors of `95_test_vectors.md`, named in each docstring, or from
hand calculation with the rule named; then one witness for the hypotheses of each statement. -/

namespace Sys2Proof.Tests

open Sys2Proof Sys2Proof.Machine

/-! ### Helpers -/

/-- What a look at the next state gives, if there is one. -/
def look {α : Type} (o : Host.Outcome State Fault Refusal) (f : State → α) : Option α :=
  match o with
  | .next t => some (f t)
  | .fault _ => none
  | .refused _ => none

/-- The fault an outcome stops with, if it does. -/
def faultOf (o : Host.Outcome State Fault Refusal) : Option Fault :=
  match o with
  | .next _ => none
  | .fault e => some e
  | .refused _ => none

/-- Reset with `NUMBERING`. -/
def resetN : State := State.resetWith Config.referenceNumbered

/-- Bytes in `RXQ`. -/
def withRx (l : List Byte) (s : State) : State := loadQueue .rxq l s

/-- Bytes in `TXQ`. -/
def withTx (l : List Byte) (s : State) : State := loadQueue .txq l s

/-- A byte waiting in the peripheral. -/
def arriving (b : Byte) (s : State) : State := { s with periph := { s.periph with rxFull := true, rxData := b } }

/-- A byte in flight, the pump running. -/
def sending (s : State) : State :=
  { s with periph := { s.periph with txBusy := true }, ls := { s.ls with transmitting := true } }

/-- A transmit-complete request, the pump running (section 2.5 of the vectors). -/
def completed (s : State) : State :=
  { s with periph := { s.periph with txcFlag := true }, ls := { s.ls with transmitting := true } }

/-- The ten bytes of the overflow vectors. -/
def tenBytes : List Byte := [0x05, 0x01, 0x02, 0x03, 0x04, 0x05, 0x06, 0x07, 0x08, 0x09]

/-- `RXQ` full with them. -/
def rxFullState : State := withRx tenBytes State.reset

/-- Eight bytes in `TXQ` (vectors T5, T6). -/
def eightBytes : List Byte := [0x30, 0x31, 0x32, 0x33, 0x34, 0x35, 0x36, 0x37]

/-- A suspended handler. -/
def forcingState (b : Byte) (rest : List Byte) (k : Kont) (s : State) : State :=
  { s with ctx := .forcing b rest k, ls := { s.ls with partnerWaiting := true } }

/-! ### WellFormed: one ill-formed term for each check -/

/-- R92: a reserved value is no application opcode. -/
theorem test_app_reserved_refused : wellFormed Config.reference (.app 0xFF) = false := by decide

/-- R100: an assigned select is not an unassigned one. -/
theorem test_assigned_select_refused : wellFormed Config.reference (.hostUnassigned 0x0C) = false := by decide

/-- R154: five payload bytes with `L = 4`. -/
theorem test_long_payload_refused :
    wellFormed Config.reference (.cfFrameBytes 0x07 [0x01, 0x02, 0x03, 0x04, 0x05]) = false
      ∧ wellFormed Config.reference (.cfEncodeAndForce 0x07 [0x01, 0x02, 0x03, 0x04, 0x05] .resumed) = false := by decide

/-- R44: five bytes are one more than a control frame without `NUMBERING` has. -/
theorem test_long_force_refused : wellFormed Config.reference (.peForce 0xF1 [0x01, 0x02, 0x03, 0xFF] .resumed) = false := by
  decide

/-- R12, R13, R15: no capacity, too small or too large a payload limit, two equal opcodes. -/
theorem test_bad_parameters_refused :
    ¬ { Config.reference with N := 0 }.wf ∧ ¬ { Config.reference with L := 1 }.wf
      ∧ ¬ { Config.reference with L := 256 }.wf ∧ ¬ { Config.reference with opAck := 0xF0 }.wf
      ∧ Config.reference.wf ∧ Config.referenceNumbered.wf := by decide

/-! ### Decoding, from words written out from R15, R85 and R100 -/

/-- R85: the opcode map under the reference values; `ACK` by `LS.WAITING_ACK` (R178). -/
theorem test_decode_opcodes :
    decodeTableWord 8 0b11110000 = some .wait ∧ decodeTableWord 8 0b11110001 = some .resume
      ∧ decodeTableWord 8 0b11110010 = some .ackUnsolicited ∧ decodeTableWord 8 0b11110011 = some .resync
      ∧ decodeTableWord 8 0b11111110 = some .escapeChar ∧ decodeTableWord 8 0b11111111 = some .endMark
      ∧ decodeTableWord 8 0b01000001 = some (.app 0x41)
      ∧ decodeOpcode Config.reference true 0b11110010 = .ack := by decide

/-- R100: the selects, five bits each, with their operands. -/
theorem test_decode_selects :
    decodeRequest { sel := 0b00000, arg := 0, bytes := [], start := 0, length := 0 } = .tInit
      ∧ decodeRequest { sel := 0b00001, arg := 0, bytes := [], start := 0, length := 0 } = .tStatus
      ∧ decodeRequest { sel := 0b00010, arg := 0x41, bytes := [], start := 0, length := 0 } = .tTransmit 0x41
      ∧ decodeRequest { sel := 0b00011, arg := 0, bytes := [], start := 0, length := 0 } = .tReceive
      ∧ decodeRequest { sel := 0b00100, arg := 0, bytes := [0x01, 0x02], start := 1, length := 1 }
          = .tBulkTransmit [0x01, 0x02] 1 1
      ∧ decodeRequest { sel := 0b00101, arg := 0, bytes := [], start := 0, length := 0 } = .tBeginTransmit
      ∧ decodeRequest { sel := 0b01000, arg := 0, bytes := [], start := 0, length := 0 } = .cfInit
      ∧ decodeRequest { sel := 0b01001, arg := 0x07, bytes := [], start := 0, length := 0 } = .cfSetOpcode 0x07
      ∧ decodeRequest { sel := 0b01010, arg := 0x10, bytes := [], start := 0, length := 0 } = .cfAppend 0x10
      ∧ decodeRequest { sel := 0b01011, arg := 0, bytes := [], start := 0, length := 0 } = .cfEncodeAndEnqueue
      ∧ decodeRequest { sel := 0b01100, arg := 0x04, bytes := [], start := 0, length := 0 } = .cfDecodeFromReceive 0x04 := by
  decide

/-- R100: `06`, `07` and `0D` to `1F` are unassigned. -/
theorem test_decode_unassigned :
    ([0x06, 0x07, 0x0D, 0x0E, 0x1E, 0x1F] : List Nat).all
      (fun w => decodeTableWord 8 w == some (.hostUnassigned (BitVec.ofNat 5 w))) = true := by decide

/-- R101: an internal operation, an event and a step of the peripheral have no code. -/
theorem test_no_code :
    encode Config.reference (.rbPush .rxq 0x00) = none ∧ encode Config.reference .peFrame = none
      ∧ encode Config.reference .spin = none ∧ encode Config.reference .periphTxDone = none := by decide

/-- R80 to R83, vectors CF2, CF5: a frame, its parts and what stands behind it. -/
theorem test_decode_frame :
    frameBytes Config.referenceNumbered 0x2A 0x07 [0x01, 0x02] = [0x07, 0x2A, 0x01, 0x02, 0xFF]
      ∧ decodeFrame Config.reference 4 [0x05, 0x01, 0x02, 0x03, 0x04, 0x05, 0x06, 0xFF, 0x09]
        = .ok { opcode := 0x05, stamp := 0x00, payload := [0x01, 0x02, 0x03, 0x04], dropped := [0x05, 0x06], rest := [0x09] }
      ∧ decodeFrame Config.reference 4 [0xFF, 0x07] = .error .emptyFrame
      ∧ decodeFrame Config.referenceNumbered 4 [0x05] = .error .noStamp := by decide

/-! ### Words placed and run -/

/-- A table word runs as the first instruction after reset: `T.TRANSMIT` of the byte 00 (T2), an application frame
(RX1), `WAIT` (RX2). -/
theorem test_fetch :
    look (step (State.reset.withFetchWord 8 0x02)) (fun t => (t.wireOut, t.opAck)) = some ([0x00], true)
      ∧ look (step (State.reset.withFetchWord 8 0x41)) (fun t => (t.handlerOut, t.seqIn))
        = some ([(0x41, [0x00, 0x00, 0x00, 0x00])], 0x01)
      ∧ look (step (State.reset.withFetchWord 8 0xF0)) (fun t => (t.wireOut, lsByte t.ls)) = some ([0xF2], 0x14) := by
  decide

/-- The same with an unassigned select, the empty frame (RX8), and `NUMBERING` (RX1n). -/
theorem test_fetch_corners :
    look (step (State.reset.withFetchWord 8 0x1F)) (fun t => (t.opAck, t.wireOut)) = some (false, [])
      ∧ look (step (State.reset.withFetchWord 8 0xFF)) (fun t => (t.rxq.head, t.rxq.count, t.seqIn)) = some (1, 0, 0x00)
      ∧ look (step (resetN.withFetchWord 8 0x41)) (fun t => (t.handlerOut, t.seqIn))
        = some ([(0x41, [0x00, 0x00, 0x00, 0x00])], 0x01) := by decide

/-! ### Ring buffers (RB1 to RB3) -/

/-- RB1 with `N = 3`. -/
def ring3 (l : List Byte) : State := withRx l (State.resetWith { Config.reference with N := 3 })

/-- RB1 steps 3, 4. -/
theorem test_push :
    look (exec (.rbPush .rxq 0x33) (ring3 [0x11, 0x22])) (fun t => (t.ret, t.rxq.tail, t.rxq.count)) = some (.bit true, 0, 3)
      ∧ look (exec (.rbPush .rxq 0x44) (ring3 [0x11, 0x22, 0x33])) (fun t => (t.ret, cont .rxq t))
        = some (.bit false, [0x11, 0x22, 0x33]) := by decide

/-- RB1 steps 7, 13. -/
theorem test_pop :
    look (exec (.rbPop .rxq) (ring3 [0x11, 0x22, 0x33])) (fun t => (t.ret, t.rxq.head, cont .rxq t))
        = some (.byte true 0x11, 1, [0x22, 0x33])
      ∧ look (exec (.rbPop .rxq) (ring3 [])) (fun t => (t.ret, t.conds)) = some (.byte false 0x00, [.popEmpty .rxq]) := by
  decide

/-- RB1 steps 5, 6, 9: the newest byte after a wrap is in slot 0. -/
theorem test_peek :
    look (exec (.rbPeekHead .rxq) (ring3 [0x11, 0x22, 0x33])) (·.ret) = some (.byte true 0x11)
      ∧ look (exec (.rbPeekTail .rxq) (ring3 [0x11, 0x22, 0x33])) (·.ret) = some (.byte true 0x33)
      ∧ look (exec (.rbPeekTail .rxq) (rbPush .rxq 0x55 (rbPop .rxq (ring3 [0x11, 0x22, 0x33])).state).2) (·.ret)
        = some (.byte true 0x55) := by decide

/-- RB1: the tests; RB2 with `N = 1`. -/
theorem test_is_empty_full :
    look (exec (.rbIsEmpty .rxq) (ring3 [])) (·.ret) = some (.bit true)
      ∧ look (exec (.rbIsFull .rxq) (ring3 [0x11, 0x22, 0x33])) (·.ret) = some (.bit true)
      ∧ look (exec (.rbIsFull .rxq) (ring3 [0x11, 0x22])) (·.ret) = some (.bit false)
      ∧ look (exec (.rbIsFull .txq) (withTx [0xAA] (State.resetWith { Config.reference with N := 1 }))) (·.ret)
        = some (.bit true) := by decide

/-- R110: the indices go to 0, the slots stay. -/
theorem test_ring_init :
    look (exec (.rbInit .rxq) (ring3 [0x11, 0x22])) (fun t => (t.rxq.tail, t.rxq.count, storeRead t.rxq.store 1))
      = some (0, 0, some 0x22) := by decide

/-! ### Transport (T1 to T19) -/

/-- T1, T1b. -/
theorem test_status :
    look (exec .tStatus State.reset) (·.ret) = some (.flags 0x16)
      ∧ look (exec .tStatus (arriving 0x00 State.reset)) (·.ret) = some (.flags 0x14) := by decide

/-- T2, T4. -/
theorem test_transmit :
    look (exec (.tTransmit 0x41) State.reset) (fun t => (t.ret, t.wireOut, t.txq.head, t.txq.tail, lsByte t.ls))
        = some (.count 1, [0x41], 1, 1, 0x10)
      ∧ look (exec (.tTransmit 0x99) (sending (withTx tenBytes State.reset))) (fun t => (t.ret, t.conds, cont .txq t))
        = some (.count 0, [.txqFull], tenBytes) := by decide

/-- T10: paused, so queued and not sent. -/
theorem test_transmit_paused :
    look (exec (.tTransmit 0x41) (setSelfWaiting true State.reset)) (fun t => (cont .txq t, t.wireOut, lsByte t.ls))
      = some ([0x41], [], 0x01) := by decide

/-- T5, T6. -/
theorem test_bulk_short :
    look (exec (.tBulkTransmit [0x07, 0x01, 0x02, 0xFF] 0 4) (sending (withTx eightBytes State.reset)))
        (fun t => (t.ret, t.txq.count, t.conds)) = some (.count 2, 10, [.txqFull])
      ∧ look (exec (.tBulkTransmit [0x07, 0x01, 0x02, 0xFF] 0 4) (withTx eightBytes State.reset))
        (fun t => (t.ret, t.wireOut, t.txq.count, t.conds)) = some (.count 2, [0x30], 9, [.txqFull]) := by decide

/-- T7, T8, T9. -/
theorem test_bulk_range :
    look (exec (.tBulkTransmit [0x09, 0x09, 0x07, 0x01, 0x02, 0xFF, 0x09] 2 4) State.reset)
        (fun t => (t.ret, t.wireOut, cont .txq t)) = some (.count 4, [0x07], [0x01, 0x02, 0xFF])
      ∧ look (exec (.tBulkTransmit [0x01] 0 0) State.reset) (fun t => (t.ret, t.wireOut)) = some (.count 0, [])
      ∧ look (exec (.tBulkTransmit [0x01, 0x02] 1 2) State.reset) (fun t => (t.opAck, t.txq.count)) = some (false, 0) := by
  decide

/-- T11, T12. -/
theorem test_begin_transmit :
    look (exec .tBeginTransmit (setSelfWaiting true (withTx [0x41] State.reset))) (·.wireOut) = some []
      ∧ look (exec .tBeginTransmit (withTx [0x41] State.reset)) (fun t => (t.wireOut, cont .txq t, t.periph.txBusy))
        = some ([0x41], [], true) := by decide

/-- T13, T14. -/
theorem test_receive :
    look (exec .tReceive State.reset) (fun t => (t.ret, t.conds)) = some (.byte false 0x00, [.popEmpty .rxq])
      ∧ look (exec .tReceive (withRx [0x05, 0x10] State.reset)) (fun t => (t.ret, cont .rxq t))
        = some (.byte true 0x05, [0x10]) := by decide

/-- T15, T16. -/
theorem test_drive_tx :
    look (exec .tDriveTx (setTransmitting true (withTx [0x55] State.reset))) (fun t => (t.wireOut, lsByte t.ls, t.txq.count))
        = some ([0x55], 0x10, 0)
      ∧ look (exec .tDriveTx (setTransmitting true State.reset)) (fun t => lsByte t.ls) = some 0x00 := by decide

/-- T17, T18, U8. -/
theorem test_drive_rx :
    look (exec .tDriveRx (arriving 0x7E (withRx (tenBytes.take 9) State.reset)))
        (fun t => (t.ret, t.rxq.count, t.periph.rxFull)) = some (.received 0x7E true, 10, false)
      ∧ look (exec .tDriveRx (arriving 0x7E rxFullState)) (fun t => (t.ret, cont .rxq t))
        = some (.received 0x7E false, tenBytes)
      ∧ faultOf (exec .tDriveRx State.reset) = some .receiveNothing := by decide

/-- T19: `P.tx_busy` stays; U8: the hand-off that follows the misuse faults. -/
theorem test_init_in_flight :
    look (exec .tInit (sending (withTx [0x42] State.reset))) (fun t => (t.txq.count, t.txq.tail, lsByte t.ls, t.periph.txBusy))
        = some (0, 0, 0x00, true)
      ∧ faultOf (exec (.tTransmit 0x43) { sending State.reset with ls := LinkStatus.clear }) = some .handoffBusy := by decide

/-- R130, R139. -/
theorem test_kick_handoff :
    look (exec .tKick (withTx [0x41, 0x42] State.reset)) (fun t => (t.wireOut, cont .txq t)) = some ([0x41], [0x42])
      ∧ look (exec (.tHandoff 0x41) State.reset) (fun t => (t.wireOut, t.periph.txData, lsByte t.ls))
        = some ([0x41], 0x41, 0x10)
      ∧ faultOf (exec (.tHandoff 0x41) (sending State.reset)) = some .handoffBusy := by decide

/-! ### Command frames (CF1 to CF14) -/

/-- A host frame. -/
def withHcf (op : Byte) (l : List Byte) (s : State) : State :=
  l.foldl (fun t b => (cfAppend .hcf b t).2) (cfSetOpcode .hcf op s)

/-- CF1 steps 1, 2. -/
theorem test_init_and_opcode :
    look (exec .cfInit (withHcf 0x07 [0x01] State.reset)) (fun t => (t.hcf.opcode, t.hcf.len)) = some (0x00, 0)
      ∧ look (exec (.cfSetOpcode 0x05) State.reset) (fun t => (t.hcf.opcode, t.hcf.len)) = some (0x05, 0) := by decide

/-- CF1 steps 3, 6, 7. -/
theorem test_append :
    look (exec (.cfAppend 0x10) (withHcf 0x05 [] State.reset)) (fun t => (t.ret, frameValue .hcf t))
        = some (.count 3, (0x05, [0x10]))
      ∧ look (exec (.cfAppend 0x44) (withHcf 0x05 [0x10, 0x22, 0x33] State.reset)) (fun t => (t.ret, t.hcf.len, t.conds))
        = some (.count 0, 4, [])
      ∧ look (exec (.cfAppend 0x55) (withHcf 0x05 [0x10, 0x22, 0x33, 0x44] State.reset))
        (fun t => (t.ret, framePayload .hcf t, t.conds)) = some (.count 0, [0x10, 0x22, 0x33, 0x44], [.appendFull]) := by
  decide

/-- CF2. -/
theorem test_frame_bytes :
    look (exec (.cfFrameBytes 0x07 [0x01, 0x02]) { resetN with seqOut := 0x2A }) (·.ret)
        = some (.bytes [0x07, 0x2A, 0x01, 0x02, 0xFF])
      ∧ look (exec (.cfFrameBytes 0x07 []) State.reset) (·.ret) = some (.bytes [0x07, 0xFF]) := by decide

/-- CF4, CF13. -/
theorem test_enqueue :
    look (exec .cfEncodeAndEnqueue { withHcf 0x05 [0x10, 0x22] resetN with seqOut := 0x2A })
        (fun t => (t.ret, t.wireOut, cont .txq t, t.seqOut))
        = some (.count 5, [0x05], [0x2A, 0x10, 0x22, 0xFF], 0x2B)
      ∧ look (exec .cfEncodeAndEnqueue (sending (withTx eightBytes (withHcf 0x07 [0x01, 0x02] State.reset))))
        (fun t => (t.ret, (cont .txq t).drop 8, t.seqOut, t.conds)) = some (.count 2, [0x07, 0x01], 0x00, [.txqFull]) := by
  decide

/-- CF5, CF8. -/
theorem test_decode_from_receive :
    look (exec (.cfDecodeFromReceive 0x04) (withRx [0x05, 0x01, 0x02, 0x03, 0x04, 0x05, 0x06, 0xFF, 0x09] State.reset))
        (fun t => (t.ret, frameValue .hcf t, cont .rxq t, t.conds))
        = some (.stamp .ok 0x00, (0x05, [0x01, 0x02, 0x03, 0x04]), [0x09], [.payloadTruncated, .payloadTruncated])
      ∧ look (exec (.cfDecodeFromReceive 0x04) (withRx [0xFF, 0x07] State.reset))
        (fun t => (t.ret, frameValue .hcf t, cont .rxq t)) = some (.stamp .absent 0x00, (0x00, []), [0x07]) := by decide

/-- CF7 (a limit above `L`), CF11 (no stamp). -/
theorem test_decode_limits :
    look (exec (.cfDecodeFromReceive 0x09) (withRx [0x05, 0x01, 0x02, 0x03, 0xFF] State.reset))
        (fun t => (frameValue .hcf t, t.conds)) = some ((0x05, [0x01, 0x02, 0x03]), [])
      ∧ look (exec (.cfDecodeFromReceive 0x04) (withRx [0x05] resetN)) (fun t => (t.ret, frameValue .hcf t))
        = some (.stamp .absent 0x00, (0x05, [])) := by decide

/-- CF14. -/
theorem test_discard :
    look (exec .cfDiscard (withRx [0x01, 0x02, 0xFF, 0x09] State.reset)) (cont .rxq) = some [0x09]
      ∧ look (exec .cfDiscard (withRx [0x01, 0x02] State.reset)) (fun t => (cont .rxq t, t.conds)) = some ([], []) := by
  decide

/-- R157, R158, R159. -/
theorem test_read_parts :
    look (exec (.cfRdOpcode .ecf) (withRx [0x05, 0x07] State.reset)) (fun t => (t.ret, t.ecf.opcode, cont .rxq t))
        = some (.status .ok, 0x05, [0x07])
      ∧ look (exec .cfRdSeq (withRx [0xFF, 0x07] State.reset)) (fun t => (t.ret, cont .rxq t))
        = some (.stamp .ok 0xFF, [0x07])
      ∧ look (exec (.cfRdPayload .ecf 1) (withRx [0x05, 0x07, 0xFF, 0x01] State.reset))
        (fun t => (framePayload .ecf t, cont .rxq t, t.conds)) = some ([0x05], [0x01], [.payloadTruncated]) := by decide

/-- R156: the stamp is the counter before it advances; R213: a second forced send breaks its precondition. -/
theorem test_force :
    look (exec (.cfEncodeAndForce 0xF1 [0x01, 0x01] .resumed) { resetN with seqOut := 0x01 }) (fun t => (t.ctx, t.seqOut))
        = some (.forcing 0xF1 [0x01, 0x01, 0x01, 0xFF] .resumed, 0x02)
      ∧ look (exec (.peForce 0xF0 [0xFF] .resumed) State.reset) (·.ctx) = some (.forcing 0xF0 [0xFF] .resumed)
      ∧ faultOf (exec (.peForce 0xF0 [0xFF] .resumed) (forcingState 0xF1 [] .resumed State.reset)) = some .forceNested := by
  decide

/-! ### The rows of the opcode map, from the bytes behind the opcode -/

/-- RX2, RX14. -/
theorem test_wait :
    look (exec .wait (withRx [0xFF] State.reset)) (fun t => (lsByte t.ls, t.wireOut, cont .txq t, t.seqOut))
        = some (0x14, [0xF2], [0xFF], 0x01)
      ∧ look (exec .wait (setSelfWaiting true (withRx [0xFF] State.reset))) (fun t => (lsByte t.ls, t.wireOut, cont .txq t))
        = some (0x01, [], [0xF2, 0xFF]) := by decide

/-- RX3. -/
theorem test_resume :
    look (exec .resume (setSelfWaiting true (withTx [0x07, 0xFF] (withRx [0x02, 0x05, 0xFF] State.reset))))
      (fun t => (lsByte t.ls, t.wireOut, cont .txq t, t.seqOut, cont .rxq t)) = some (0x10, [0x07], [0xFF], 0x00, []) := by
  decide

/-- RX4, RX5. -/
theorem test_ack :
    look (exec .ack (setWaitingAck true (withRx [0xFF] State.reset))) (fun t => (lsByte t.ls, t.handlerOut)) = some (0x00, [])
      ∧ look (exec .ackUnsolicited (withRx [0x01, 0xFF] State.reset)) (fun t => (t.handlerOut, t.conds))
        = some ([(0xF2, [0x01])], [.unsolicitedAck]) := by decide

/-- RX7 before its completion, RX7b. -/
theorem test_resync :
    look (exec .resync (withRx [0x03, 0x05, 0xFF] resetN)) (fun t => (t.seqIn, t.seqOut, t.ret))
        = some (0x03, 0x05, .frame .completed)
      ∧ look (exec .resync (withRx [0x03, 0xFF] { resetN with seqIn := 0x03, seqOut := 0x08 }))
        (fun t => (t.seqIn, t.seqOut, t.conds)) = some (0x03, 0x08, [.resyncMalformed]) := by decide

/-- RX11, RX10, R91. -/
theorem test_forwarded :
    look (exec .escapeChar (withRx [0x01, 0xFF] State.reset)) (·.handlerOut) = some [(0xFE, [0x01])]
      ∧ look (exec (.app 0x05) (withRx [0x01, 0x02, 0x03, 0x04, 0x05, 0x06, 0xFF] State.reset))
        (fun t => (t.handlerOut, t.conds))
        = some ([(0x05, [0x01, 0x02, 0x03, 0x04])], [.payloadTruncated, .payloadTruncated])
      ∧ look (exec .endMark State.reset) (fun t => (t.ret, t.handlerOut)) = some (.frame .discarded, []) := by decide

/-! ### The engine -/

/-- RX6, RX9. -/
theorem test_wrong_stamp :
    look (exec .peFrame (withRx [0x07, 0x07, 0x01, 0xFF] { resetN with seqIn := 0x05, seqOut := 0x03 }))
        (fun t => (t.wireOut ++ cont .txq t, [t.seqOut, t.seqIn], t.conds))
        = some ([0xF3, 0x03, 0x03, 0x05, 0xFF], [0x04, 0x05], [.seqMismatch 0x07 0x05])
      ∧ look (exec .peFrame (withRx [0x05, 0xFF] resetN)) (fun t => (t.wireOut ++ cont .txq t, t.seqOut))
        = some ([0xF3, 0x00, 0x00, 0x00, 0xFF], 0x01) := by decide

/-- RX7 with its completion, RX13. -/
theorem test_frame_completes :
    look (exec .peFrame (withRx [0xF3, 0x03, 0x03, 0x05, 0xFF] { resetN with seqIn := 0x03, seqOut := 0x08 }))
        (fun t => (t.seqIn, t.seqOut, t.wireOut)) = some (0x04, 0x05, [])
      ∧ look (exec .peFrame (withRx [0x09, 0xFF] { State.reset with seqIn := 0xFF })) (fun t => (t.seqIn, t.handlerOut))
        = some (0x00, [(0x09, [])]) := by decide

/-- RX1 and OVF1. -/
theorem test_receive_handler :
    look (exec .peRxc (arriving 0xFF (withRx [0x05, 0x10, 0x22] State.reset)))
        (fun t => (t.handlerOut, t.seqIn, t.rxq.head, t.rxq.count)) = some ([(0x05, [0x10, 0x22])], 0x01, 4, 0)
      ∧ look (exec .peRxc (arriving 0x33 rxFullState)) (fun t => ([lsByte t.ls, t.seqOut], t.ctx, t.conds))
        = some ([0x0A, 0x01], .forcing 0xF0 [0xFF] (.ovf 0x33), [.rxqOverflow 0x33]) := by decide

/-- OVF2: the last byte of the `WAIT` runs frame reception, which suspends again; OVF1b. -/
theorem test_spin :
    look (exec .spin { forcingState 0xFF [] (.ovf 0xFF) rxFullState with seqOut := 0x01 })
        (fun t => (t.handlerOut, t.conds.length, t.ctx))
        = some ([(0x05, [0x01, 0x02, 0x03, 0x04])], 5, .forcing 0xF1 [0x01, 0x01, 0xFF] .resumed)
      ∧ look (exec .spin (forcingState 0xFF [] (.ovf 0x33)
          (withRx tenBytes (State.resetWith { Config.reference with ovfNontermAdvancesSeq := true }))))
        (fun t => (t.seqIn, t.ctx)) = some (0x01, .idle) := by decide

/-- Program P3: a spin with the peripheral busy, and the end of the `RESUME`. -/
theorem test_spin_ends :
    look (exec .spin (sending (forcingState 0xFF [] .resumed State.reset))) (·.ctx) = some (.forcing 0xFF [] .resumed)
      ∧ look (exec .spin (setTransmitting true (setWaitingAck true (forcingState 0xFF [] .resumed State.reset))))
        (fun t => (lsByte t.ls, t.ctx, t.wireOut)) = some (0x18, .idle, [0xFF]) := by decide

/-- TX1 to TX3: the status byte and `DRE_IE`. -/
theorem test_transmit_complete :
    look (exec .peTxc (completed State.reset)) (fun t => (lsByte t.ls, t.dreIe, t.periph.txcFlag)) = some (0x10, true, false)
      ∧ look (exec .peTxc (completed (setSelfWaiting true State.reset))) (fun t => (lsByte t.ls, t.dreIe))
        = some (0x01, false)
      ∧ look (exec .peTxc (completed (sending (setSelfWaiting true State.reset)))) (fun t => (lsByte t.ls, t.dreIe))
        = some (0x11, false) := by decide

/-- TX4 to TX6. -/
theorem test_transmit_complete_request :
    look (exec .peTxc (completed (setRequestSelfWait true (withTx [0xFF, 0x01] State.reset)))) (fun t => (lsByte t.ls, t.dreIe))
        = some (0x11, true)
      ∧ look (exec .peTxc (completed (setRequestSelfWait true (withTx [0x01] State.reset)))) (fun t => (lsByte t.ls, t.dreIe))
        = some (0x14, true)
      ∧ look (exec .peTxc (completed (setRequestSelfWait true State.reset))) (fun t => (lsByte t.ls, t.dreIe))
        = some (0x14, true) := by decide

/-- TX7, TX8. -/
theorem test_data_empty :
    look (exec .peDre (setDreIe true (setTransmitting true (withTx [0x55] State.reset))))
        (fun t => (t.wireOut, t.dreIe, lsByte t.ls, t.periph.txBusy)) = some ([0x55], false, 0x10, true)
      ∧ look (exec .peDre (setDreIe true (setTransmitting true State.reset))) (fun t => (t.wireOut, t.dreIe, lsByte t.ls))
        = some ([], false, 0x00) := by decide

/-- R264, R266. -/
theorem test_peripheral :
    look (exec .periphTxDone (sending State.reset)) (fun t => (t.periph.txBusy, t.periph.txcFlag, t.linkOut))
        = some (false, true, [0x00])
      ∧ look (exec (.periphDeliver 0x41) { State.reset with linkIn := [0x41, 0x42] })
        (fun t => (t.periph.rxFull, t.periph.rxData, t.linkIn)) = some (true, 0x41, [0x42]) := by decide

/-- RST1, RST2. -/
theorem test_reset :
    look (step { setSelfWaiting true (withTx [0xF2, 0xFF] State.reset) with seqIn := 0x01, seqOut := 0x02, sched := [.reset] })
      (fun t => (lsByte t.ls, t.seqIn, t.seqOut, t.txq.count, statusByte t)) = some (0x00, 0x00, 0x00, 0, 0x16) := by decide

/-! ### Witnesses: a state and operands that meet the hypotheses of each statement

`A` is a state in order with both queues in use; `rok` is a queue in order. -/

/-- A state in order with bytes in both queues. -/
def mixed : State := withTx [0x01, 0xFF] (withRx [0x05, 0x10, 0x22, 0xFF, 0x09] State.reset)

theorem test_mixed_rx : RingOk mixed.cfg.N mixed.rxq := by decide
theorem test_mixed_tx : RingOk mixed.cfg.N mixed.txq := by decide
theorem test_mixed_ready : IdleReady mixed := fun _ => rfl

theorem test_witness_DecodingAnEncodingGivesItBack :
    (Config.reference.wf ∧ wellFormed Config.reference .ack = true
        ∧ encode Config.reference .ack = some (.opcode 0xF2) ∧ (Instr.ack = .ack → true = true)
        ∧ (Instr.ack = .ackUnsolicited → true = false))
      ∧ (encode Config.reference .ackUnsolicited = some (.opcode 0xF2)
        ∧ (Instr.ackUnsolicited = .ack → false = true) ∧ (Instr.ackUnsolicited = .ackUnsolicited → false = false))
      ∧ encode Config.reference (.hostUnassigned 0x1F) = some (.request (.plain 0x1F)) := by decide

theorem test_witness_EveryCodeHasOneWellFormedMeaning : Config.reference.wf ∧ Config.referenceNumbered.wf := by decide

theorem test_witness_StepRunsTheScheduledTransaction :
    State.reset.sched = [] ∧ State.reset.hostQ = []
      ∧ { State.reset with sched := [.host], hostQ := [.plain 0x01] }.hostQ = [HostReq.plain 0x01]
      ∧ { State.reset with sched := [.deliver], linkIn := [0x41] }.linkIn = [0x41] := by decide

/-- `HeaderAccepted` for an application frame and its completion, for a malformed `RESYNC`, and for the `WAIT` row where
R140 fails. -/
theorem test_witness_FrameReceptionRunsTheDecodedRow :
    HeaderAccepted mixed 0x05 (cfRdOpcode .ecf mixed).2
      ∧ look (exec (.app 0x05) (cfRdOpcode .ecf mixed).2) (·.ret) = some (.frame .completed)
      ∧ HeaderAccepted (withRx [0xF3, 0x09, 0xFF] resetN) 0xF3 (cfRdSeq (cfRdOpcode .ecf (withRx [0xF3, 0x09, 0xFF] resetN)).2).state
      ∧ look (exec .resync (cfRdSeq (cfRdOpcode .ecf (withRx [0xF3, 0x09, 0xFF] resetN)).2).state) (·.ret)
        = some (.frame .discarded)
      ∧ faultOf (exec .wait { State.reset with periph := { State.reset.periph with txBusy := true } }) = some .handoffBusy := by
  refine ⟨⟨by decide, by decide, rfl⟩, by decide, ⟨by decide, by decide, by decide, by decide, rfl⟩, by decide, by decide⟩

/-- One slot free, and full. -/
theorem test_witness_PushAppendsOrChangesNothing :
    (RingOk 10 (ring .rxq (withRx (tenBytes.take 9) State.reset)) ∧ (withRx (tenBytes.take 9) State.reset).rxq.count = 9)
      ∧ RingOk 10 (ring .rxq rxFullState) ∧ rxFullState.rxq.count = rxFullState.cfg.N := by decide

theorem test_witness_PopTakesTheOldestByte :
    RingOk 10 (ring .rxq mixed) ∧ cont .rxq mixed = 0x05 :: [0x10, 0x22, 0xFF, 0x09]
      ∧ RingOk 10 (ring .rxq State.reset) ∧ cont .rxq State.reset = [] := by decide

theorem test_witness_RingTestsAndPeeksReadOnly : RingOk mixed.cfg.N (ring .txq mixed) := by decide

theorem test_witness_RingOperationsKeepTheBuffersInOrder :
    RingOk mixed.cfg.N mixed.rxq ∧ RingOk mixed.cfg.N mixed.txq
      ∧ look (exec (.rbPush .txq 0x41) mixed) (·.ret) = some (.bit true) := by decide

theorem test_witness_QueueIsFirstInFirstOut : RingOk State.reset.cfg.N (ring .txq State.reset) := by decide

theorem test_witness_HandoffSendsTheByteOrFaults :
    State.reset.periph.txBusy = false ∧ (sending State.reset).periph.txBusy = true := by decide

theorem test_witness_KickStartsAtMostOneByte :
    RingOk mixed.cfg.N mixed.txq ∧ IdleReady mixed := ⟨test_mixed_tx, test_mixed_ready⟩

theorem test_witness_TransportInitEmptiesBothQueues : mixed.ctx = .idle := by decide

theorem test_witness_StatusReportsTheSixFlags : mixed.ctx = .idle := by decide

/-- With room, and full. -/
theorem test_witness_TransmitQueuesTheByteAndKicks :
    (RingOk mixed.cfg.N mixed.txq ∧ IdleReady mixed ∧ mixed.ctx = .idle ∧ mixed.txq.count < mixed.cfg.N)
      ∧ RingOk 10 (withTx tenBytes State.reset).txq ∧ IdleReady (withTx tenBytes State.reset)
      ∧ (withTx tenBytes State.reset).ctx = .idle
      ∧ (withTx tenBytes State.reset).txq.count = (withTx tenBytes State.reset).cfg.N :=
  ⟨⟨test_mixed_tx, test_mixed_ready, by decide, by decide⟩, by decide, fun _ => rfl, by decide, by decide⟩

theorem test_witness_ReceiveTakesTheOldestByte :
    (RingOk mixed.cfg.N mixed.rxq ∧ mixed.ctx = .idle ∧ cont .rxq mixed = 0x05 :: [0x10, 0x22, 0xFF, 0x09])
      ∧ RingOk 10 State.reset.rxq ∧ State.reset.ctx = .idle ∧ cont .rxq State.reset = [] := by decide

/-- A range that ends where its list ends. -/
theorem test_witness_BulkTransmitQueuesWhatFits :
    RingOk mixed.cfg.N mixed.txq ∧ IdleReady mixed ∧ mixed.ctx = .idle ∧ 1 + 2 ≤ ([0x07, 0x01, 0xFF] : List Byte).length :=
  ⟨test_mixed_tx, test_mixed_ready, by decide, by decide⟩

/-- A range one byte too long. -/
theorem test_witness_RefusedRequestsChangeNothing : ([0x01, 0x02] : List Byte).length < 1 + 2 := by decide

theorem test_witness_BeginTransmitKicks : RingOk mixed.cfg.N mixed.txq ∧ IdleReady mixed ∧ mixed.ctx = .idle :=
  ⟨test_mixed_tx, test_mixed_ready, by decide⟩

theorem test_witness_DriveTxPullsOneByteOrGoesIdle :
    (RingOk mixed.cfg.N mixed.txq ∧ cont .txq mixed = 0x01 :: [0xFF] ∧ mixed.periph.txBusy = false)
      ∧ RingOk 10 State.reset.txq ∧ cont .txq State.reset = [] := by decide

theorem test_witness_DriveRxReadsTheWaitingByte :
    (RingOk 10 (arriving 0x7E (withRx (tenBytes.take 9) State.reset)).rxq
        ∧ (arriving 0x7E (withRx (tenBytes.take 9) State.reset)).periph.rxFull = true
        ∧ (arriving 0x7E (withRx (tenBytes.take 9) State.reset)).rxq.count < 10)
      ∧ (RingOk 10 (arriving 0x7E rxFullState).rxq ∧ (arriving 0x7E rxFullState).periph.rxFull = true
        ∧ (arriving 0x7E rxFullState).rxq.count = 10)
      ∧ State.reset.periph.rxFull = false := by decide

/-- One payload slot free, and full. -/
theorem test_witness_FrameRegisterIsBuiltByteByByte :
    (withHcf 0x05 [0x01, 0x02, 0x03] State.reset).ctx = .idle
      ∧ (withHcf 0x05 [0x01, 0x02, 0x03] State.reset).hcf.len < (withHcf 0x05 [0x01, 0x02, 0x03] State.reset).cfg.L
      ∧ (withHcf 0x05 [0x01, 0x02, 0x03, 0x04] State.reset).hcf.len
        = (withHcf 0x05 [0x01, 0x02, 0x03, 0x04] State.reset).cfg.L := by decide

theorem test_witness_EncodeAndEnqueueSendsWhatFits :
    RingOk mixed.cfg.N mixed.txq ∧ IdleReady mixed ∧ mixed.ctx = .idle := ⟨test_mixed_tx, test_mixed_ready, by decide⟩

theorem test_witness_ForcedSendSuspendsTheHandler :
    State.reset.ctx = .idle ∧ (forcingState 0xF0 [0xFF] .resumed State.reset).ctx ≠ .idle := by decide

/-- An empty queue, an opcode, and a terminator in its place. -/
theorem test_witness_OpcodeAndStampAreReadFromTheQueue :
    (RingOk 10 State.reset.rxq ∧ cont .rxq State.reset = [])
      ∧ (RingOk 10 mixed.rxq ∧ cont .rxq mixed = 0x05 :: [0x10, 0x22, 0xFF, 0x09])
      ∧ RingOk 10 (withRx [0xFF, 0x07] State.reset).rxq ∧ cont .rxq (withRx [0xFF, 0x07] State.reset) = 0xFF :: [0x07] := by
  decide

theorem test_witness_PayloadIsCollectedAndTheRestDropped : RingOk mixed.cfg.N mixed.rxq := by decide

/-- A frame, nothing, an empty frame, a frame without its stamp. -/
theorem test_witness_DecodeFromReceiveIsTheFrameDecode :
    (RingOk mixed.cfg.N mixed.rxq ∧ mixed.ctx = .idle)
      ∧ (RingOk 10 State.reset.rxq ∧ State.reset.ctx = .idle)
      ∧ (RingOk 10 (withRx [0xFF, 0x07] State.reset).rxq ∧ (withRx [0xFF, 0x07] State.reset).ctx = .idle)
      ∧ RingOk 10 (withRx [0x05] resetN).rxq ∧ (withRx [0x05] resetN).ctx = .idle := by decide

/-- The longest payload, with `NUMBERING`. -/
theorem test_witness_EncodedFrameDecodesBack :
    let s := withRx [0x05, 0x00, 0x01, 0x02, 0x03, 0x04, 0xFF] resetN
    RingOk s.cfg.N s.rxq ∧ s.ctx = .idle ∧ s.cfg.wf ∧ ([0x01, 0x02, 0x03, 0x04] : List Byte).length ≤ s.cfg.L
      ∧ (0x05 : Byte) ≠ s.cfg.opEnd ∧ s.cfg.opEnd ∉ ([0x01, 0x02, 0x03, 0x04] : List Byte)
      ∧ (s.cfg.numbering = true → s.seqOut ≠ s.cfg.opEnd)
      ∧ cont .rxq s = frameBytes s.cfg s.seqOut 0x05 [0x01, 0x02, 0x03, 0x04] := by decide

theorem test_witness_WaitRowRequestsAPauseAndAcknowledges :
    RingOk mixed.cfg.N mixed.rxq ∧ RingOk mixed.cfg.N mixed.txq ∧ IdleReady mixed :=
  ⟨test_mixed_rx, test_mixed_tx, test_mixed_ready⟩

theorem test_witness_ResumeRowClearsThePauseAndKicks :
    RingOk mixed.cfg.N mixed.rxq ∧ RingOk mixed.cfg.N mixed.txq ∧ IdleReady mixed :=
  ⟨test_mixed_rx, test_mixed_tx, test_mixed_ready⟩

theorem test_witness_AckRowClearsWaitingAck : RingOk mixed.cfg.N mixed.rxq := by decide

/-- Two payload bytes, and one. -/
theorem test_witness_ResyncRowAdoptsTheCounters :
    (RingOk 10 (withRx [0x03, 0x05, 0xFF] resetN).rxq ∧ (withRx [0x03, 0x05, 0xFF] resetN).cfg.wf
        ∧ payloadIn 4 (withRx [0x03, 0x05, 0xFF] resetN) = [0x03, 0x05])
      ∧ RingOk 10 (withRx [0x03, 0xFF] resetN).rxq ∧ (withRx [0x03, 0xFF] resetN).cfg.wf
      ∧ payloadIn 4 (withRx [0x03, 0xFF] resetN) = [0x03] := by decide

theorem test_witness_ApplicationRowsReachTheHandler :
    RingOk mixed.cfg.N mixed.rxq ∧ (Instr.app 0x05 = .app 0x05 ∧ ([] : List Condition) = [])
      ∧ (Instr.escapeChar = .escapeChar ∧ (0xFE : Byte) = mixed.cfg.opEscape)
      ∧ (Instr.ackUnsolicited = .ackUnsolicited ∧ (0xF2 : Byte) = mixed.cfg.opAck) := by decide

theorem test_witness_FrameWithoutOpcodeOrStampIsDropped :
    (RingOk 10 State.reset.rxq ∧ cont .rxq State.reset = [])
      ∧ (RingOk 10 (withRx [0xFF, 0x07] State.reset).rxq
        ∧ cont .rxq (withRx [0xFF, 0x07] State.reset) = State.reset.cfg.opEnd :: [0x07])
      ∧ RingOk 10 (withRx [0x05] resetN).rxq ∧ cont .rxq (withRx [0x05] resetN) = [0x05] ∧ (0x05 : Byte) ≠ resetN.cfg.opEnd
      ∧ resetN.cfg.numbering = true := by decide

/-- RX6. -/
theorem test_witness_WrongStampDrawsOneResync :
    let s := withRx [0x07, 0x07, 0x01, 0xFF] { resetN with seqIn := 0x05, seqOut := 0x03 }
    (RingOk s.cfg.N s.rxq ∧ RingOk s.cfg.N s.txq ∧ s.cfg.numbering = true
      ∧ cont .rxq s = 0x07 :: 0x07 :: [0x01, 0xFF] ∧ (0x07 : Byte) ≠ s.cfg.opEnd ∧ (0x07 : Byte) ≠ s.cfg.opResync
      ∧ (0x07 : Byte) ≠ s.seqIn) ∧ IdleReady s := ⟨by decide, fun _ => rfl⟩

/-- A numbered frame in `RXQ`, the peer held. -/
def heldNumbered : State := setPartnerWaiting true (withRx [0x05, 0x00, 0x10, 0xFF] resetN)

/-- Without and with `NUMBERING`, the peer held in the second. -/
theorem test_witness_AcceptedApplicationFrameCompletes :
    (RingOk mixed.cfg.N mixed.rxq ∧ mixed.ctx = .idle ∧ wellFormed mixed.cfg (.app 0x05) = true
        ∧ cont .rxq mixed = 0x05 :: (if mixed.cfg.numbering then [mixed.seqIn] else []) ++ [0x10, 0x22, 0xFF, 0x09])
      ∧ RingOk heldNumbered.cfg.N heldNumbered.rxq ∧ heldNumbered.ctx = .idle
      ∧ wellFormed heldNumbered.cfg (.app 0x05) = true ∧ heldNumbered.ls.partnerWaiting = true
      ∧ cont .rxq heldNumbered = 0x05 :: (if heldNumbered.cfg.numbering then [heldNumbered.seqIn] else []) ++ [0x10, 0xFF] := by
  decide

/-- The terminator arriving, one slot free. -/
def lastSlot : State := arriving 0xFF (withRx (tenBytes.take 9) State.reset)

/-- A byte, and the terminator into the last free slot. -/
theorem test_witness_ReceivedByteIsStored :
    (RingOk 10 (arriving 0x07 mixed).rxq ∧ (arriving 0x07 mixed).ctx = .idle ∧ (arriving 0x07 mixed).periph.rxFull = true
        ∧ (arriving 0x07 mixed).rxq.count < 10 ∧ (arriving 0x07 mixed).periph.rxData ≠ mixed.cfg.opEnd)
      ∧ RingOk lastSlot.cfg.N lastSlot.rxq ∧ lastSlot.ctx = .idle ∧ lastSlot.periph.rxFull = true
      ∧ lastSlot.rxq.count + 1 = lastSlot.cfg.N ∧ lastSlot.periph.rxData = lastSlot.cfg.opEnd := by decide

theorem test_witness_OverflowForcesAWait :
    (arriving 0x33 rxFullState).ctx = .idle ∧ (arriving 0x33 rxFullState).periph.rxFull = true
      ∧ (arriving 0x33 rxFullState).rxq.count = (arriving 0x33 rxFullState).cfg.N := by decide

/-- Program P6. -/
theorem test_witness_ResyncMakesTheTwoSidesAgree :
    let b := withRx [0x07, 0x05, 0x01, 0xFF] { resetN with seqIn := 0x02, seqOut := 0x09 }
    let a := withRx [0xF3, 0x09, 0x09, 0x02, 0xFF] { resetN with seqOut := 0x06, seqIn := 0x09 }
    (b.cfg.wf ∧ b.cfg.numbering = true ∧ a.cfg.numbering = true ∧ a.cfg.L = b.cfg.L ∧ a.cfg.opResync = b.cfg.opResync
      ∧ a.cfg.opEnd = b.cfg.opEnd ∧ a.cfg.reserved.Nodup ∧ RingOk b.cfg.N b.rxq ∧ RingOk b.cfg.N b.txq
      ∧ b.txq.count + 5 ≤ b.cfg.N ∧ cont .rxq b = 0x07 :: 0x05 :: [0x01, 0xFF] ∧ (0x07 : Byte) ≠ b.cfg.opEnd
      ∧ (0x07 : Byte) ≠ b.cfg.opResync ∧ (0x05 : Byte) ≠ b.seqIn ∧ b.seqOut ≠ b.cfg.opEnd ∧ b.seqIn ≠ b.cfg.opEnd
      ∧ RingOk a.cfg.N a.rxq ∧ a.ctx = .idle ∧ a.ls.partnerWaiting = false
      ∧ cont .rxq a = frameBytes b.cfg b.seqOut b.cfg.opResync [b.seqOut, b.seqIn]) ∧ IdleReady b :=
  ⟨by decide, fun _ => rfl⟩

theorem test_witness_TransmitCompleteTakesThePauseBranch :
    RingOk (completed mixed).cfg.N (completed mixed).txq ∧ (completed mixed).ctx = .idle
      ∧ (completed mixed).periph.txcFlag = true := by decide

theorem test_witness_DataEmptyPullsOneByteAndDisarms :
    (RingOk 10 (setDreIe true mixed).txq ∧ (setDreIe true mixed).ctx = .idle ∧ (setDreIe true mixed).dreIe = true
        ∧ (setDreIe true mixed).periph.txBusy = false ∧ cont .txq (setDreIe true mixed) = 0x01 :: [0xFF])
      ∧ RingOk 10 (setDreIe true State.reset).txq ∧ (setDreIe true State.reset).ctx = .idle
      ∧ (setDreIe true State.reset).dreIe = true ∧ (setDreIe true State.reset).periph.txBusy = false
      ∧ cont .txq (setDreIe true State.reset) = [] := by decide

/-- Busy; more bytes; the end of a `RESUME`; an overflow by a byte and by the terminator. -/
theorem test_witness_SpinHandsOffAndResumesTheHandler :
    ((sending (forcingState 0xF0 [0xFF] (.ovf 0x33) State.reset)).ctx = .forcing 0xF0 [0xFF] (.ovf 0x33)
        ∧ (sending (forcingState 0xF0 [0xFF] (.ovf 0x33) State.reset)).periph.txBusy = true)
      ∧ ((forcingState 0xF0 [0xFF] (.ovf 0x33) State.reset).ctx = .forcing 0xF0 [0xFF] (.ovf 0x33)
        ∧ (forcingState 0xF0 [0xFF] (.ovf 0x33) State.reset).periph.txBusy = false)
      ∧ (forcingState 0xFF [] .resumed State.reset).ctx = .forcing 0xFF [] .resumed
      ∧ ((forcingState 0xFF [] (.ovf 0x33) State.reset).ctx = .forcing 0xFF [] (.ovf 0x33)
        ∧ (0x33 : Byte) ≠ State.reset.cfg.opEnd)
      ∧ (forcingState 0xFF [] (.ovf 0xFF) rxFullState).ctx = .forcing 0xFF [] (.ovf 0xFF)
      ∧ (0xFF : Byte) = rxFullState.cfg.opEnd := by decide

theorem test_witness_PeripheralStepsFinishAndDeliver :
    (sending State.reset).periph.txBusy = true ∧ State.reset.periph.rxFull = false
      ∧ { State.reset with linkIn := [0x41] }.linkIn = 0x41 :: [] := by decide

theorem test_witness_PumpDrainsTheTransmitQueue :
    RingOk (sending mixed).cfg.N (sending mixed).txq ∧ (sending mixed).ctx = .idle ∧ (sending mixed).periph.txBusy = true
      ∧ (sending mixed).ls.requestSelfWait = false ∧ (sending mixed).ls.selfWaiting = false := by decide

/-- Program P7. -/
theorem test_witness_ForcedSendLocksUpWithoutTxDone :
    let s := withSched [.spin, .host, .rxc, .deliver, .spin] (sending (forcingState 0xF0 [0xFF] (.ovf 0x33) rxFullState))
    s.ctx ≠ .idle ∧ s.periph.txBusy = true ∧ .txDone ∉ s.sched ∧ .reset ∉ s.sched := by decide

theorem test_witness_HostIsHeldOffWhileSuspended :
    encodeRequest (.tTransmit 0x41) = some { HostReq.plain 0x02 with arg := 0x41 }
      ∧ (forcingState 0xF0 [0xFF] .resumed State.reset).ctx ≠ .idle := by decide

/-- Each source without its request; the spin with no suspended handler; nothing in flight; a byte already waiting, and
another byte first. -/
theorem test_witness_StepsThatAreNotEnabledChangeNothing :
    State.reset.periph.rxFull = false ∧ State.reset.periph.txcFlag = false ∧ State.reset.dreIe = false
      ∧ State.reset.ctx = .idle ∧ State.reset.periph.txBusy = false ∧ (arriving 0x41 State.reset).periph.rxFull = true
      ∧ State.reset.linkIn.head? ≠ some 0x41 ∧ (forcingState 0xF0 [] .resumed State.reset).ctx ≠ .idle
      ∧ (sending State.reset).periph.txBusy = true := by decide

/-- One step for each clause: a flag or a counter that goes up, goes down or moves. -/
theorem test_witness_FlagsAndCountersHaveTheWritersOfTheTables :
    look (exec .peTxc (completed (setRequestSelfWait true (withTx [0xFF] State.reset))))
        (fun t => (t.ls.selfWaiting, t.ls.requestSelfWait, t.dreIe)) = some (true, false, true)
      ∧ look (exec .resume (setSelfWaiting true State.reset)) (·.ls.selfWaiting) = some false
      ∧ look (exec .peRxc (arriving 0x33 rxFullState)) (fun t => (t.ls.partnerWaiting, t.ls.waitingAck, t.seqOut))
        = some (true, true, 0x01)
      ∧ look (exec .spin (forcingState 0xFF [] .resumed State.reset)) (·.ls.partnerWaiting) = some false
      ∧ look (exec .wait State.reset) (·.ls.requestSelfWait) = some true
      ∧ look (exec .ack (setWaitingAck true State.reset)) (·.ls.waitingAck) = some false
      ∧ look (exec .peDre (setDreIe true (setTransmitting true State.reset))) (fun t => (t.ls.transmitting, t.dreIe))
        = some (false, false)
      ∧ look (exec .resync (withRx [0x03, 0x05, 0xFF] State.reset)) (·.seqIn) = some 0x03
      ∧ look (exec (.tTransmit 0x41) State.reset) (fun t => (t.ls.transmitting, t.wireOut)) = some (true, [0x41]) := by
  decide

theorem test_witness_EachContextOwnsItsFrameRegister :
    (encodeRequest (.cfAppend 0x10) = some { HostReq.plain 0x0A with arg := 0x10 }
        ∧ look (exec (.cfAppend 0x10) State.reset) (·.hcf.len) = some 1)
      ∧ encodeOpcode Config.reference (.app 0x05) = some 0x05 ∧ look (exec (.app 0x05) mixed) (·.ret) = some (.frame .completed)
      ∧ look (exec .peFrame mixed) (·.seqIn) = some 0x01 := by decide

theorem test_witness_PausedSideStartsNoByte :
    encodeRequest (.tTransmit 0x41) = some { HostReq.plain 0x02 with arg := 0x41 }
      ∧ (setSelfWaiting true State.reset).ls.selfWaiting = true
      ∧ look (exec (.tTransmit 0x41) (setSelfWaiting true State.reset)) (fun t => cont .txq t) = some [0x41] := by decide

theorem test_witness_EachStepSendsAtMostOneByte :
    look (step (State.reset.withFetchWord 8 0x02)) (·.wireOut) = some [0x00]
      ∧ (State.reset.withFetchWord 8 0x02).sched.head? ≠ some .reset := by decide

theorem test_witness_ResetEventGivesTheTable : { mixed with sched := [.reset] }.sched = .reset :: [] := by decide

theorem test_witness_ResetStateIsInOrder : Config.reference.wf := by decide

/-- A state in order with both queues in use and a `T.STATUS` request next. -/
theorem test_mixed_inv : Inv (placeRequest (.plain 0x01) mixed) :=
  ⟨by decide, by decide, by decide, by decide, by decide, by decide, by decide, fun h => absurd rfl h⟩

theorem test_witness_EveryStepKeepsTheBlockInOrder :
    Inv (placeRequest (.plain 0x01) mixed)
      ∧ look (step (placeRequest (.plain 0x01) mixed)) (·.opAck) = some true := ⟨test_mixed_inv, by decide⟩

theorem test_witness_EveryStepKeepsIdleMeaningReady :
    IdleReady (placeRequest (.plain 0x01) mixed) ∧ ¬ InitInFlight (placeRequest (.plain 0x01) mixed)
      ∧ look (step (placeRequest (.plain 0x01) mixed)) (·.opAck) = some true :=
  ⟨fun _ => rfl, fun h => absurd h.1 (by decide), by decide⟩

theorem test_witness_NoStepFaultsFromAStateInOrder :
    Inv (placeRequest (.plain 0x01) mixed) ∧ IdleReady (placeRequest (.plain 0x01) mixed) :=
  ⟨test_mixed_inv, fun _ => rfl⟩

/-! ### The two-node system and the lock-up -/

/-- What a look at the next pair gives, if there is one. -/
def lookPair {α : Type} (o : Host.Outcome Pair Fault Refusal) (f : Pair → α) : Option α :=
  match o with
  | .next p => some (f p)
  | .fault _ => none
  | .refused _ => none

/-- Node A finishing a byte, with one byte waiting for B to take, and a turn of PEER next at B. -/
def linked : Pair :=
  { a := withSched [.txDone] (sending State.reset)
    b := withSched [.peer 0x55, .deliver] { State.reset with linkIn := [0x41] } }

/-- R271: the finished byte joins the stream; a turn of PEER adds nothing to it. -/
theorem test_pair :
    lookPair (pairStep (.node .a) linked) (fun p => streamBytes p.a p.b) = some [0x41, 0x00]
      ∧ lookPair (pairStep (.node .b) linked) (fun p => (streamBytes p.a p.b, p.b.sched)) = some ([0x41], [.deliver]) := by
  decide

/-- A byte that finishes, a byte that is delivered, a byte that the link carries, and the reset of either node. -/
theorem test_witness_PairStreamsCarryOnlyTheNodesBytes :
    (lookPair (pairStep (.node .a) linked) (fun p => p.a.linkOut) = some [0x00] ∧ linked.a.sched.head? ≠ some .reset)
      ∧ (lookPair (pairStep (.node .b) { linked with b := withSched [.deliver] linked.b }) (fun p => p.b.periph.rxData)
          = some 0x41 ∧ (withSched [.deliver] linked.b).sched.head? ≠ some .reset)
      ∧ lookPair (pairStep (.carry .a) { linked with a := { linked.a with linkOut := [0x42] } }) (fun p => p.b.linkIn)
          = some [0x41, 0x42]
      ∧ ({ linked with a := withSched [.reset] linked.a } : Pair).a.sched.head? = some .reset
      ∧ ({ linked with b := withSched [.reset] linked.b } : Pair).b.sched.head? = some .reset := by decide

/-- A handler suspended with a byte that never finishes is the run of R217. -/
theorem test_lockup : ForceLockup (fun _ => sending (forcingState 0xF0 [0xFF] .resumed State.reset)) :=
  ⟨fun _ => rfl, fun _ h => Ctx.noConfusion h, 0, fun _ _ => rfl⟩

/-- A handler that is given no turn while the peripheral is ready is not locked up (R217, R240). -/
theorem test_no_lockup : ¬ ForceLockup (fun _ => forcingState 0xF0 [0xFF] .resumed State.reset) :=
  fun ⟨_, _, m, h⟩ => Bool.noConfusion (h m (Nat.le_refl m))

end Sys2Proof.Tests
end

section
/-! The decoder on the words and frames of the spec's tables: which of the two code spaces a table word is read in, and
how the bytes of a terminated frame are split. -/

namespace Sys2Proof.Proofs

open Sys2Proof

/-! ### Table words (R85, R100) -/

theorem decodeTableWord_of_lt {w : Nat} (hw : w < 0x20) :
    decodeTableWord 8 w = some (decodeRequest (.plain (BitVec.ofNat 5 w))) := by
  have hok : ¬ (8 = 0 ∨ 8 < 8 ∨ 256 ≤ w) := by omega
  rw [decodeTableWord, if_neg hok, if_pos hw, decode]

theorem decodeTableWord_of_ge {w : Nat} (hlo : 0x20 ≤ w) (hhi : w < 0x100) :
    decodeTableWord 8 w = some (decodeOpcode Config.reference false (BitVec.ofNat 8 w)) := by
  have hok : ¬ (8 = 0 ∨ 8 < 8 ∨ 256 ≤ w) := by omega
  rw [decodeTableWord, if_neg hok, if_neg (by omega), decode]

section Frames
/-! ### Frames (R80 to R83) -/

variable {c : Config} {m : Nat} {op stamp : Byte} {payload rest : List Byte}

theorem bne_opEnd_of_mem (h : c.opEnd ∉ payload) : ∀ b ∈ payload, (b != c.opEnd) = true :=
  fun _ hb => bne_iff_ne.mpr (ne_of_mem_of_not_mem hb h)

theorem beforeEnd_terminated (h : c.opEnd ∉ payload) : beforeEnd c (payload ++ c.opEnd :: rest) = payload := by
  simp [beforeEnd, List.takeWhile_append_of_pos (bne_opEnd_of_mem h)]

theorem afterEnd_terminated (h : c.opEnd ∉ payload) : afterEnd c (payload ++ c.opEnd :: rest) = rest := by
  simp [afterEnd, List.dropWhile_append_of_pos (bne_opEnd_of_mem h)]

/-- R82, R83: a terminated payload within both limits is kept whole, and the frame ends behind its terminator. -/
theorem frameBody_terminated (h : c.opEnd ∉ payload) (hm : payload.length ≤ m) (hL : payload.length ≤ c.L) :
    frameBody c m op stamp (payload ++ c.opEnd :: rest)
      = { opcode := op, stamp, payload, dropped := [], rest } := by
  have hlen : payload.length ≤ min m c.L := le_min hm hL
  rw [frameBody, beforeEnd_terminated h, afterEnd_terminated h, List.take_of_length_le hlen, List.drop_of_length_le hlen]

theorem decodeFrame_unnumbered {l : List Byte} (hop : op ≠ c.opEnd) (hn : c.numbering = false) :
    decodeFrame c m (op :: l) = .ok (frameBody c m op 0x00 l) := by
  simp [decodeFrame, hop, hn]

theorem decodeFrame_numbered {l : List Byte} (hop : op ≠ c.opEnd) (hn : c.numbering = true) :
    decodeFrame c m (op :: stamp :: l) = .ok (frameBody c m op stamp l) := by
  simp [decodeFrame, hop, hn]

end Frames

/-! ### The samples -/

/-- An application frame under the reference values, which have no numbering (R97). -/
theorem decodeFrame_reference_sample :
    decodeFrame Config.reference 4 [0x07, 0x01, 0x02, 0xFF]
      = .ok { opcode := 0x07, stamp := 0x00, payload := [0x01, 0x02], dropped := [], rest := [] } := by
  rw [decodeFrame_unnumbered (by decide) rfl]
  exact congrArg _ (frameBody_terminated (payload := [0x01, 0x02]) (by decide) (by decide) (by decide))

/-- A `RESYNC` frame with its stamp (R97). -/
theorem decodeFrame_referenceNumbered_sample :
    decodeFrame Config.referenceNumbered 4 [0xF3, 0x09, 0x09, 0x04, 0xFF]
      = .ok { opcode := 0xF3, stamp := 0x09, payload := [0x09, 0x04], dropped := [], rest := [] } := by
  rw [decodeFrame_numbered (by decide) rfl]
  exact congrArg _ (frameBody_terminated (payload := [0x09, 0x04]) (by decide) (by decide) (by decide))

/-- Settles O3: each word is read in its code space, each frame is cut behind its header. -/
theorem sampleWordsDecodeAsTheTableSays : Obligations.SampleWordsDecodeAsTheTableSays := by
  unfold Obligations.SampleWordsDecodeAsTheTableSays
  have select : ∀ w < 0x20, decodeTableWord 8 w = some (decodeRequest (.plain (BitVec.ofNat 5 w))) :=
    fun _ => decodeTableWord_of_lt
  have opcode : ∀ w, 0x20 ≤ w → w < 0x100 →
      decodeTableWord 8 w = some (decodeOpcode Config.reference false (BitVec.ofNat 8 w)) :=
    fun _ => decodeTableWord_of_ge
  exact ⟨select 0x00 (by decide), select 0x05 (by decide), select 0x0C (by decide), select 0x06 (by decide),
    opcode 0xF0 (by decide) (by decide), opcode 0xF1 (by decide) (by decide), opcode 0xF3 (by decide) (by decide),
    opcode 0xFF (by decide) (by decide), opcode 0x41 (by decide) (by decide),
    decodeFrame_reference_sample, decodeFrame_referenceNumbered_sample⟩

end Sys2Proof.Proofs
end

section
/-! What a step does, by the agent whose turn it is; and that a suspended handler holds off every request of the command
port. -/

namespace Sys2Proof.Proofs

open Sys2Proof Sys2Proof.Machine

section Turns

variable {s : State} {r : HostReq}

/-! ### The command port while a handler is suspended (R44, R259) -/

theorem hostOp_held {run : State → Except Fault State} (h : s.ctx ≠ .idle) :
    hostOp run s = .next (setAck false s) :=
  if_neg h

/-- A refused range and a held one leave the same state. -/
theorem execTBulkTransmit_held {bytes : List Byte} {start length : Nat} (h : s.ctx ≠ .idle) :
    execTBulkTransmit bytes start length s = .next (setAck false s) := by
  rw [execTBulkTransmit, hostOp_held h, hostRefuse, ite_self]

/-- While a handler is suspended an operation with a select code only withholds `op_ack`: all but two are a `hostOp`
(its second branch), and an unassigned select is refused anyway. -/
theorem exec_held {i : Instr} (hcode : encodeRequest i = some r) (h : s.ctx ≠ .idle) :
    exec i s = .next (setAck false s) := by
  cases i with
  | tInit | tStatus | tTransmit _ | tReceive | tBeginTransmit => exact if_neg h
  | cfInit | cfSetOpcode _ | cfAppend _ | cfEncodeAndEnqueue | cfDecodeFromReceive _ => exact if_neg h
  | tBulkTransmit _ _ _ => exact execTBulkTransmit_held h
  | hostUnassigned _ => rfl
  | _ => cases hcode

theorem exists_encodeRequest_decodeRequest (r : HostReq) : ∃ q, encodeRequest (decodeRequest r) = some q := by
  unfold decodeRequest
  split <;> exact ⟨_, rfl⟩

theorem exec_decodeRequest_held (r : HostReq) (h : s.ctx ≠ .idle) :
    exec (decodeRequest r) s = .next (setAck false s) := by
  obtain ⟨_, hcode⟩ := exists_encodeRequest_decodeRequest r
  exact exec_held hcode h

/-! ### One turn (R9, R68) -/

theorem step_of_sched_nil (h : s.sched = []) : step s = .next s := by
  rw [step, nextTransaction, h]

theorem step_of_sched_cons {a : Agent} {rest : List Agent} (h : s.sched = a :: rest) :
    step s = runAgent a { s with sched := rest } := by
  rw [step, nextTransaction, h]

theorem serveHost_nil (h : s.hostQ = []) : serveHost s = .next s := by
  rw [serveHost, h]

/-- R259, log entries 5, 6: a request is run and withdrawn, or held on the port while a handler is suspended. -/
theorem serveHost_cons {rs : List HostReq} (h : s.hostQ = r :: rs) :
    serveHost s = if s.ctx = .idle then exec (decodeRequest r) { s with hostQ := rs } else .next (setAck false s) := by
  have hserve : serveHost s = exec (decodeRequest r) (if s.ctx = .idle then { s with hostQ := rs } else s) := by
    rw [serveHost, h]
    rfl
  by_cases hctx : s.ctx = .idle
  · rw [hserve, if_pos hctx, if_pos hctx]
  · rw [hserve, if_neg hctx, if_neg hctx, exec_decodeRequest_held r hctx]

theorem serveDeliver_nil (h : s.linkIn = []) : serveDeliver s = .next s := by
  rw [serveDeliver, h]

theorem serveDeliver_cons {b : Byte} {l : List Byte} (h : s.linkIn = b :: l) :
    serveDeliver s = exec (.periphDeliver b) s := by
  rw [serveDeliver, h]

end Turns

/-- Settles O4: the turn is taken off the schedule, and HOST and DELIVER split on what waits for them. -/
theorem stepRunsTheScheduledTransaction : Obligations.StepRunsTheScheduledTransaction := by
  unfold Obligations.StepRunsTheScheduledTransaction
  intro s rest
  refine ⟨step_of_sched_nil, fun ha hq => ?hostIdle, fun r rs ha hq => ?hostRequest, step_of_sched_cons,
    step_of_sched_cons, step_of_sched_cons, step_of_sched_cons, step_of_sched_cons, fun b l ha hl => ?deliver,
    fun ha hl => ?deliverNothing, fun b => step_of_sched_cons⟩
  case hostIdle => exact (step_of_sched_cons ha).trans (serveHost_nil hq)
  case hostRequest => exact (step_of_sched_cons ha).trans (serveHost_cons hq)
  case deliver => exact (step_of_sched_cons ha).trans (serveDeliver_cons hl)
  case deliverNothing => exact (step_of_sched_cons ha).trans (serveDeliver_nil hl)

end Sys2Proof.Proofs
end

section
/-! When an operation answers: the outcome of a computation, a host operation, a served interrupt; and the steps that
are not enabled. -/

namespace Sys2Proof.Proofs

open Sys2Proof Sys2Proof.Machine

section Answers

variable {s t : State}

/-! ### What a computation that answers did -/

theorem map_ok {α β : Type} {x : Except Fault α} {g : α → β} {b : β} (h : x.map g = .ok b) :
    ∃ a, x = .ok a ∧ g a = b := by
  cases x with
  | error e => cases h
  | ok a => exact ⟨a, rfl, Except.ok.inj h⟩

theorem bind_ok {α β : Type} {x : Except Fault α} {g : α → Except Fault β} {b : β} (h : x.bind g = .ok b) :
    ∃ a, x = .ok a ∧ g a = .ok b := by
  cases x with
  | error e => cases h
  | ok a => exact ⟨a, rfl, h⟩

theorem finish_next {x : Except Fault State} (h : finish x = .next t) : x = .ok t := by
  cases x with
  | error e => cases h
  | ok u => exact congrArg Except.ok (Host.Outcome.next.inj h)

theorem finish_map_next {α : Type} {x : Except Fault α} {g : α → State} (h : finish (x.map g) = .next t) :
    ∃ a, x = .ok a ∧ g a = t :=
  map_ok (finish_next h)

theorem hostOp_idle {run : State → Except Fault State} (h : s.ctx = .idle) :
    hostOp run s = finish (run (setAck true s)) :=
  if_pos h

/-- R50, R259: a host operation that answers was held, or it was acknowledged and ran. -/
theorem hostOp_next {run : State → Except Fault State} (h : hostOp run s = .next t) :
    t = setAck false s ∨ (s.ctx = .idle ∧ run (setAck true s) = .ok t) := by
  by_cases hc : s.ctx = .idle
  · rw [hostOp_idle hc] at h
    exact .inr ⟨hc, finish_next h⟩
  · rw [hostOp_held hc] at h
    exact .inl (Host.Outcome.next.inj h).symm

/-- What a host operation does once it is acknowledged (R100); nothing for the other operations. -/
def hostRun : Instr → State → Except Fault State
  | .tInit, t => .ok (setRet .none (tInit t))
  | .tStatus, t => .ok (setRet (.flags (statusByte t)) t)
  | .tTransmit b, t => (tTransmit b t).map noteCount
  | .tReceive, t => .ok (setRet (.byte (rbPop .rxq t).valid (rbPop .rxq t).byte) (rbPop .rxq t).state)
  | .tBulkTransmit bytes start length, t => (tBulkTransmit bytes start length t).map noteCount
  | .tBeginTransmit, t => (tBeginTransmit t).map (setRet .none)
  | .cfInit, t => .ok (setRet .none (cfInit .hcf t))
  | .cfSetOpcode op, t => .ok (setRet .none (cfSetOpcode .hcf op t))
  | .cfAppend b, t => .ok (noteCount (cfAppend .hcf b t))
  | .cfEncodeAndEnqueue, t => (cfEncodeAndEnqueue t.hcf.opcode (framePayload .hcf t) t).map noteCount
  | .cfDecodeFromReceive m, t =>
    .ok (setRet (.stamp (cfDecodeFromReceive m.toNat t).status (cfDecodeFromReceive m.toNat t).stamp)
      (cfDecodeFromReceive m.toNat t).state)
  | _, t => .ok t

/-- R50, R100, R135: an operation with a select code is a host operation, or its request is refused. -/
theorem exec_request_eq {i : Instr} {r : HostReq} (hcode : encodeRequest i = some r) (s : State) :
    exec i s = hostOp (hostRun i) s ∨ exec i s = hostRefuse s := by
  cases i with
  | tInit | tStatus | tTransmit _ | tReceive | tBeginTransmit => exact .inl rfl
  | cfInit | cfSetOpcode _ | cfAppend _ | cfEncodeAndEnqueue | cfDecodeFromReceive _ => exact .inl rfl
  | tBulkTransmit _ _ _ => exact ite_eq_or_eq _ _ _
  | hostUnassigned _ => exact .inr rfl
  | _ => cases hcode

/-- What an operation with a select code does when it answers: only withhold `op_ack`, or run with `ctx` IDLE. -/
theorem exec_request_next {i : Instr} {r : HostReq} (hcode : encodeRequest i = some r) (h : exec i s = .next t) :
    t = setAck false s ∨ (s.ctx = .idle ∧ hostRun i (setAck true s) = .ok t) := by
  rcases exec_request_eq hcode s with heq | heq
  · exact hostOp_next (heq.symm.trans h)
  · exact .inl (Host.Outcome.next.inj (heq.symm.trans h)).symm

/-! ### Interrupt requests (R246 to R250) -/

variable {src : IrqSource} {handler : State → Except Fault State}

theorem serveIrq_disabled (h : irqEnabled src s = false) : serveIrq src handler s = .ok s := by
  rw [serveIrq, h]
  rfl

/-- R246, R252, R253: a served source was not requesting, or its handler was entered and ran. -/
theorem serveIrq_ok (h : serveIrq src handler s = .ok t) :
    t = s ∨ (irqEnabled src s = true ∧ handler (handlerEntry src s) = .ok t) := by
  cases he : irqEnabled src s with
  | false =>
    rw [serveIrq_disabled he] at h
    exact .inl (Except.ok.inj h).symm
  | true =>
    rw [serveIrq, he] at h
    obtain ⟨u, hu, rfl⟩ := map_ok h
    exact .inr ⟨rfl, hu⟩

theorem irqEnabled_rxc : irqEnabled .rxc s = true ↔ s.ctx = .idle ∧ s.periph.rxFull = true := by
  simp [irqEnabled]

theorem irqEnabled_txc : irqEnabled .txc s = true ↔ s.ctx = .idle ∧ s.periph.txcFlag = true := by
  simp [irqEnabled]

theorem irqEnabled_dre :
    irqEnabled .dre s = true ↔ s.ctx = .idle ∧ s.dreIe = true ∧ s.periph.txBusy = false := by
  simp [irqEnabled]

/-! ### Steps that are not enabled (R44, R254, R264, R266) -/

theorem exec_peRxc_disabled (h : s.ctx ≠ .idle ∨ s.periph.rxFull = false) : exec .peRxc s = .next s := by
  have hoff : irqEnabled .rxc s = false := by
    rw [← Bool.not_eq_true, irqEnabled_rxc]
    rcases h with h | h <;> simp [h]
  exact congrArg finish (serveIrq_disabled hoff)

theorem exec_peTxc_disabled (h : s.ctx ≠ .idle ∨ s.periph.txcFlag = false) : exec .peTxc s = .next s := by
  have hoff : irqEnabled .txc s = false := by
    rw [← Bool.not_eq_true, irqEnabled_txc]
    rcases h with h | h <;> simp [h]
  exact congrArg finish (serveIrq_disabled hoff)

theorem exec_peDre_disabled (h : s.ctx ≠ .idle ∨ s.dreIe = false ∨ s.periph.txBusy = true) :
    exec .peDre s = .next s := by
  have hoff : irqEnabled .dre s = false := by
    rw [← Bool.not_eq_true, irqEnabled_dre]
    rcases h with h | h | h <;> simp [h]
  exact congrArg finish (serveIrq_disabled hoff)

theorem spinStep_idle (h : s.ctx = .idle) : spinStep s = .ok s := by
  rw [spinStep, h]

theorem spinStep_forcing {b : Byte} {rest : List Byte} {k : Kont} (h : s.ctx = .forcing b rest k) :
    spinStep s = if isTransmitReady s then (tHandoff b s).bind (spinAdvance rest k) else .ok s := by
  rw [spinStep, h]

/-- R214: a spin at a busy peripheral waits. -/
theorem spinStep_busy (h : s.periph.txBusy = true) : spinStep s = .ok s := by
  cases hc : s.ctx with
  | idle => exact spinStep_idle hc
  | forcing b rest k => simp [spinStep_forcing hc, isTransmitReady, h]

theorem exec_spin_idle (h : s.ctx = .idle) : exec .spin s = .next s := congrArg finish (spinStep_idle h)

theorem exec_spin_busy (h : s.periph.txBusy = true) : exec .spin s = .next s := congrArg finish (spinStep_busy h)

theorem exec_periphTxDone_ready (h : s.periph.txBusy = false) : exec .periphTxDone s = .next s :=
  if_neg (by simp [h])

theorem exec_periphDeliver_disabled {b : Byte} (h : s.periph.rxFull = true ∨ s.linkIn.head? ≠ some b) :
    exec (.periphDeliver b) s = .next s :=
  if_neg (by rcases h with h | h <;> simp [h])

/-- R266: the delivery of a byte takes it, or is not enabled. -/
theorem exec_periphDeliver_cases (b : Byte) (s : State) :
    exec (.periphDeliver b) s = .next (periphReceive b s) ∨ exec (.periphDeliver b) s = .next s :=
  ite_eq_or_eq _ _ _

end Answers

/-- Settles O48: every operation with a select code is held. -/
theorem hostIsHeldOffWhileSuspended : Obligations.HostIsHeldOffWhileSuspended := by
  unfold Obligations.HostIsHeldOffWhileSuspended
  intro i r s hcode hctx
  exact exec_held hcode hctx

/-- Settles O49: each agent's own condition, one lemma each. -/
theorem stepsThatAreNotEnabledChangeNothing : Obligations.StepsThatAreNotEnabledChangeNothing := by
  unfold Obligations.StepsThatAreNotEnabledChangeNothing
  intro s
  exact ⟨exec_peRxc_disabled, exec_peTxc_disabled, exec_peDre_disabled, exec_spin_idle, exec_periphTxDone_ready,
    fun _ => exec_periphDeliver_disabled⟩

theorem lsByte_clear : lsByte LinkStatus.clear = 0x00 := by decide

/-- Settles O55: the reset event is the agent's whole turn, and every clause is a field of the state it leaves. -/
theorem resetEventGivesTheTable : Obligations.ResetEventGivesTheTable := by
  unfold Obligations.ResetEventGivesTheTable
  intro s rest hsched
  refine ⟨resetEvent { s with sched := rest }, step_of_sched_cons hsched, ?_⟩
  exact ⟨rfl, rfl, rfl, lsByte_clear, rfl, rfl, rfl, rfl, rfl, rfl, rfl, rfl, rfl, rfl, rfl, rfl, rfl⟩

section Building

variable {s : State} {b : Byte}

/-! ### Building `HCF` (R152) -/

theorem cfAppend_room {f : FrameId} (h : (frame f s).len < s.cfg.L) :
    cfAppend f b s = (s.cfg.L - ((frame f s).len + 1), setFrame f ((frame f s).appended b) s) :=
  if_neg (Nat.ne_of_lt h)

theorem cfAppend_full {f : FrameId} (h : (frame f s).len = s.cfg.L) : cfAppend f b s = (0, signal .appendFull s) :=
  if_pos h

theorem exec_cfAppend_idle (h : s.ctx = .idle) :
    exec (.cfAppend b) s = .next (noteCount (cfAppend .hcf b (setAck true s))) :=
  if_pos h

theorem storeRead_appended_other {f : FrameReg} {i : Nat} (h : i ≠ f.len) :
    storeRead (f.appended b).payload i = storeRead f.payload i :=
  storeRead_write_other f.payload b h

end Building

/-- Settles O23: the first two rewrite the register alone; an append below `L` writes the slot at `len`. -/
theorem frameRegisterIsBuiltByteByByte : Obligations.FrameRegisterIsBuiltByteByByte := by
  unfold Obligations.FrameRegisterIsBuiltByteByByte
  intro s hctx
  refine ⟨if_pos hctx, fun op => if_pos hctx, fun b hroom => ?room, fun b hfull => ?full⟩
  case room =>
    refine ⟨_, exec_cfAppend_idle hctx, ?_⟩
    rw [cfAppend_room (f := .hcf) (s := setAck true s) hroom]
    exact ⟨payloadOf_appended, rfl, rfl, fun i hi => storeRead_appended_other hi, rfl⟩
  case full =>
    rw [exec_cfAppend_idle hctx, cfAppend_full (f := .hcf) (s := setAck true s) hfull]
    rfl

section InOrderAtReset

/-! ### The state after reset (R21, R36, R47) -/

theorem frameOk_empty {l : Nat} {m : Store} (hm : Store.wf m) (hb : ∀ c ∈ m, c.1 < l) : FrameOk l (FrameReg.empty m) :=
  ⟨hm, hb, Nat.zero_le _, fun i hi => absurd hi (Nat.not_lt_zero i)⟩

theorem storeWf_nil : Store.wf [] := List.Pairwise.nil

theorem storeBound_nil (n : Nat) : ∀ c ∈ ([] : Store), c.1 < n := fun _ h => absurd h List.not_mem_nil

theorem inv_resetWith {c : Config} (h : c.wf) : Inv (State.resetWith c) where
  cfg := h
  rxq := ringOk_empty h.1 storeWf_nil (storeBound_nil _)
  txq := ringOk_empty h.1 storeWf_nil (storeBound_nil _)
  hcf := frameOk_empty storeWf_nil (storeBound_nil _)
  ecf := frameOk_empty storeWf_nil (storeBound_nil _)
  exclusive := rfl
  short := Nat.zero_le _
  held := fun hc => absurd rfl hc

theorem idleReady_resetWith (c : Config) : IdleReady (State.resetWith c) := fun _ => rfl

end InOrderAtReset

/-- Settles O56: the reference parameters are one legal choice. -/
theorem resetStateIsInOrder : Obligations.ResetStateIsInOrder := by
  unfold Obligations.ResetStateIsInOrder
  have href : Config.reference.wf := by decide
  exact ⟨inv_resetWith href, idleReady_resetWith _, fun c hc => ⟨inv_resetWith hc, idleReady_resetWith c⟩⟩

section Rings

/-! ### Both buffers at once (R20, R21) -/

variable {s : State}

/-- Both ring buffers are in order. -/
def RingsOk (s : State) : Prop := ∀ q, RingOk s.cfg.N (ring q s)

theorem ringsOk_iff : RingsOk s ↔ RingOk s.cfg.N s.rxq ∧ RingOk s.cfg.N s.txq :=
  ⟨fun h => ⟨h .rxq, h .txq⟩, fun ⟨hr, ht⟩ q => by cases q <;> assumption⟩

theorem RingsOk.setRing {q : QueueId} {r : Ring} (h : RingsOk s) (hr : RingOk s.cfg.N r) :
    RingsOk (setRing q r s) := by
  obtain ⟨hrx, htx⟩ := ringsOk_iff.mp h
  rw [ringsOk_iff]
  cases q with
  | rxq => exact ⟨hr, htx⟩
  | txq => exact ⟨hrx, hr⟩

theorem RingsOk.rbInit {q : QueueId} (h : RingsOk s) : RingsOk (rbInit q s) := by
  obtain ⟨hwf, hbound, hhead, -⟩ := h q
  exact h.setRing (ringOk_empty (Nat.one_le_of_lt hhead) hwf hbound)

theorem RingsOk.rbPush {q : QueueId} {b : Byte} (h : RingsOk s) : RingsOk (rbPush q b s).2 := by
  obtain ⟨-, -, -, -, hcount, -⟩ := h q
  rcases Nat.lt_or_eq_of_le hcount with hroom | hfull
  · rw [rbPush_room hroom]
    exact h.setRing ((h q).pushed hroom)
  · rwa [rbPush_full hfull]

theorem RingsOk.rbPop {q : QueueId} (h : RingsOk s) : RingsOk (rbPop q s).state := by
  cases hc : cont q s with
  | nil => rw [rbPop_empty hc]; exact h
  | cons x l =>
    obtain ⟨hpop, -, hring⟩ := rbPop_cons (h q) hc
    rw [hpop]
    exact h.setRing hring

theorem rbPush_cfg (q : QueueId) (b : Byte) (s : State) : (rbPush q b s).2.cfg = s.cfg := by
  unfold rbPush
  split
  · rfl
  · exact setRing_cfg s q _

theorem rbPop_cfg (q : QueueId) (s : State) : (rbPop q s).state.cfg = s.cfg := by
  rw [rbPop_fields]
  exact setRing_cfg s q _

end Rings

/-- Settles O10: `RB.INIT`, `RB.PUSH` and `RB.POP` have a law each; the other four only note a result. -/
theorem ringOperationsKeepTheBuffersInOrder : Obligations.RingOperationsKeepTheBuffersInOrder := by
  unfold Obligations.RingOperationsKeepTheBuffersInOrder
  intro q i s t hi hrx htx ht
  have hs : RingsOk s := ringsOk_iff.mpr ⟨hrx, htx⟩
  suffices hkept : t.cfg = s.cfg ∧ RingsOk t from ⟨hkept.1, ringsOk_iff.mp hkept.2⟩
  rcases hi with rfl | ⟨b, rfl⟩ | rfl | rfl | rfl | rfl | rfl
  · obtain rfl := Host.Outcome.next.inj ht
    exact ⟨setRing_cfg s q _, hs.rbInit⟩
  · obtain rfl := Host.Outcome.next.inj ht
    exact ⟨rbPush_cfg q b s, hs.rbPush⟩
  · obtain rfl := Host.Outcome.next.inj ht
    exact ⟨rbPop_cfg q s, hs.rbPop⟩
  all_goals
    obtain rfl := Host.Outcome.next.inj ht
    exact ⟨rfl, hs⟩

end Sys2Proof.Proofs
end

section
/-! The lock-up of a forced send (R217): while the peripheral finishes no byte, no agent can move a suspended handler. -/

namespace Sys2Proof.Proofs

open Sys2Proof Sys2Proof.Machine

section Lockup

variable {s t u : State} {a : Agent}

/-- A handler is suspended on a busy peripheral. -/
def Locked (s : State) : Prop := s.ctx ≠ .idle ∧ s.periph.txBusy = true

/-- All that can move while a handler is locked up: `op_ack`, the receive side of the peripheral with the inbound stream,
and the schedule, which loses agents. -/
structure OnlyPasses (s t : State) : Prop where
  rest : t = { s with periph := t.periph, linkIn := t.linkIn, opAck := t.opAck, sched := t.sched }
  busy : t.periph.txBusy = s.periph.txBusy
  sched : t.sched ⊆ s.sched

theorem OnlyPasses.refl (s : State) : OnlyPasses s s := ⟨rfl, rfl, List.Subset.refl _⟩

theorem OnlyPasses.trans (h : OnlyPasses s t) (h' : OnlyPasses t u) : OnlyPasses s u where
  rest := by
    conv_lhs => rw [h'.rest]
    conv_lhs => rw [h.rest]
  busy := h'.busy.trans h.busy
  sched := List.Subset.trans h'.sched h.sched

theorem OnlyPasses.ctx_eq (h : OnlyPasses s t) : t.ctx = s.ctx := by rw [h.rest]

theorem OnlyPasses.locked (h : OnlyPasses s t) (hs : Locked s) : Locked t :=
  ⟨h.ctx_eq ▸ hs.1, h.busy.trans hs.2⟩

/-- A request stays on the port and is not acknowledged (R259). -/
theorem serveHost_locked (h : Locked s) : ∃ t, serveHost s = .next t ∧ OnlyPasses s t := by
  cases hq : s.hostQ with
  | nil => exact ⟨s, serveHost_nil hq, .refl s⟩
  | cons r rs =>
    refine ⟨setAck false s, ?_, ⟨rfl, rfl, List.Subset.refl _⟩⟩
    rw [serveHost_cons hq, if_neg h.1]

theorem serveDeliver_passes (s : State) : ∃ t, serveDeliver s = .next t ∧ OnlyPasses s t := by
  cases hl : s.linkIn with
  | nil => exact ⟨s, serveDeliver_nil hl, .refl s⟩
  | cons b l =>
    rw [serveDeliver_cons hl]
    rcases exec_periphDeliver_cases b s with h | h
    · exact ⟨_, h, ⟨rfl, rfl, List.Subset.refl _⟩⟩
    · exact ⟨s, h, .refl s⟩

/-- R217: the handlers are masked, the spin waits, the host is held off; `TX_DONE` and reset are the two ways out. -/
theorem runAgent_locked (h : Locked s) (hdone : a ≠ .txDone) (hreset : a ≠ .reset) :
    ∃ t, runAgent a s = .next t ∧ OnlyPasses s t := by
  cases a with
  | host => exact serveHost_locked h
  | rxc => exact ⟨s, exec_peRxc_disabled (.inl h.1), .refl s⟩
  | txc => exact ⟨s, exec_peTxc_disabled (.inl h.1), .refl s⟩
  | dre => exact ⟨s, exec_peDre_disabled (.inl h.1), .refl s⟩
  | spin => exact ⟨s, exec_spin_busy h.2, .refl s⟩
  | deliver => exact serveDeliver_passes s
  | peer b => exact ⟨peerSend b s, rfl, ⟨rfl, rfl, List.Subset.refl _⟩⟩
  | txDone => exact absurd rfl hdone
  | reset => exact absurd rfl hreset

theorem step_locked (h : Locked s) (hdone : .txDone ∉ s.sched) (hreset : .reset ∉ s.sched) :
    ∃ t, step s = .next t ∧ OnlyPasses s t := by
  cases hs : s.sched with
  | nil => exact ⟨s, step_of_sched_nil hs, .refl s⟩
  | cons a rest =>
    rw [hs] at hdone hreset
    have taken : OnlyPasses s { s with sched := rest } := ⟨rfl, rfl, hs ▸ List.subset_cons_self a rest⟩
    obtain ⟨t, ht, hpass⟩ := runAgent_locked (taken.locked h) (List.ne_of_not_mem_cons hdone).symm
      (List.ne_of_not_mem_cons hreset).symm
    exact ⟨t, (step_of_sched_cons hs).trans ht, taken.trans hpass⟩

theorem run_succ {M : Host.Core} {x y : M.State} {n : Nat} (h : M.step x = .next y) :
    M.run (n + 1) x = M.run n y := by
  rw [Host.Core.run, h]

theorem run_locked (n : Nat) (h : Locked s) (hdone : .txDone ∉ s.sched) (hreset : .reset ∉ s.sched) :
    ∃ t, Host.Core.run Sys2Proof.core n s = .next t ∧ OnlyPasses s t := by
  induction n generalizing s with
  | zero => exact ⟨s, rfl, .refl s⟩
  | succ n ih =>
    obtain ⟨u, hu, hpass⟩ := step_locked h hdone hreset
    obtain ⟨t, ht, hpass'⟩ := ih (hpass.locked h) (fun hm => hdone (hpass.sched hm)) (fun hm => hreset (hpass.sched hm))
    exact ⟨t, (run_succ hu).trans ht, hpass.trans hpass'⟩

end Lockup

/-- Settles O47: by induction on the steps, each of which only passes time. -/
theorem forcedSendLocksUpWithoutTxDone : Obligations.ForcedSendLocksUpWithoutTxDone := by
  unfold Obligations.ForcedSendLocksUpWithoutTxDone
  intro n s hctx hbusy hdone hreset
  obtain ⟨t, hrun, hpass⟩ := run_locked n ⟨hctx, hbusy⟩ hdone hreset
  refine ⟨t, hrun, ?_⟩
  rw [hpass.busy, hpass.rest]
  exact ⟨rfl, rfl, rfl, rfl, rfl, rfl, rfl, rfl, rfl, hbusy⟩

end Sys2Proof.Proofs
end

section
/-! The invariant of the block over a step of any agent: the handlers and the spin end in a state that meets it (`Ends`,
which also carries R140), the host's operations keep the block in order, and the environment's steps do not touch it. -/

namespace Sys2Proof.Proofs

open Sys2Proof Sys2Proof.Machine

section Invariant

variable {s t : State} {b : Byte} {x : Except Fault State}

/-! ### Going over from one state to the next -/

theorem inv_of_ends (h : Ends s x) (ht : finish x = .next t) : Inv t := by
  have hx := finish_next ht
  rcases h with ⟨u, hu, hinv, -⟩ | ⟨herr, -⟩
  · rw [hu] at hx
    exact Except.ok.inj hx ▸ hinv
  · rw [herr] at hx
    cases hx

theorem ends_ok (h : Inv s) : Ends s (.ok s) := .inl ⟨s, rfl, h, id⟩

/-- A computation from a state that is ready where this one is. -/
theorem ends_of_idleReady (h : Ends t x) (hready : IdleReady s → IdleReady t) : Ends s x := by
  rcases h with ⟨u, hu, hinv, hu'⟩ | ⟨herr, hn⟩
  · exact .inl ⟨u, hu, hinv, hu' ∘ hready⟩
  · exact .inr ⟨herr, hn ∘ hready⟩

theorem keptBy_then_setRet (r : OpResult) (h : KeptBy s t) : KeptBy s (setRet r t) :=
  h.trans (keptBy_setRet r h.inOrder)

/-- What the invariant speaks of. -/
def block (s : State) : Config × Ring × Ring × FrameReg × FrameReg × LinkStatus × Ctx :=
  (s.cfg, s.rxq, s.txq, s.hcf, s.ecf, s.ls, s.ctx)

theorem inv_of_block_eq (h : Inv s) (hb : block t = block s) : Inv t := by
  simp only [block, Prod.mk.injEq] at hb
  obtain ⟨hcfg, hrxq, htxq, hhcf, hecf, hls, hctx⟩ := hb
  constructor <;> simp only [hcfg, hrxq, htxq, hhcf, hecf, hls, hctx]
  exacts [h.cfg, h.rxq, h.txq, h.hcf, h.ecf, h.exclusive, h.short, h.held]

/-! ### The transmit handlers (R210, R211) -/

theorem keptBy_setDreIe (d : Bool) (h : InOrder s) : KeptBy s (setDreIe d s) :=
  ⟨⟨h.cfg, h.rxq, h.txq, h.hcf, h.ecf, h.exclusive⟩, rfl, rfl, rfl, id⟩

theorem keptBy_clearTransmitting (h : InOrder s) (hb : s.periph.txBusy = false) : KeptBy s (setTransmitting false s) :=
  ⟨⟨h.cfg, h.rxq, h.txq, h.hcf, h.ecf, h.exclusive⟩, rfl, rfl, rfl, fun _ _ => hb⟩

/-- R34, R210: the pause that was requested begins; the two flags change together. -/
theorem keptBy_beginPause (h : InOrder s) : KeptBy s (setSelfWaiting true (setRequestSelfWait false s)) :=
  ⟨⟨h.cfg, h.rxq, h.txq, h.hcf, h.ecf, rfl⟩, rfl, rfl, rfl, id⟩

theorem keptBy_txcHandler (h : InOrder s) : KeptBy s (txcHandler s) := by
  unfold txcHandler
  split
  · split
    · have hp := keptBy_beginPause h
      exact hp.trans (keptBy_setDreIe true hp.inOrder)
    · exact keptBy_setDreIe true h
  · split
    · split
      · rename_i hready
        exact keptBy_clearTransmitting h (by simpa [isTransmitReady] using hready)
      · exact .refl h
    · exact keptBy_setDreIe true h

theorem keptBy_handed (b : Byte) (h : InOrder s) : KeptBy s (handed b s) :=
  ⟨⟨h.cfg, h.rxq, h.txq, h.hcf, h.ecf, h.exclusive⟩, rfl, rfl, rfl, fun _ ht => Bool.noConfusion ht⟩

theorem keeps_tDriveTx (h : InOrder s) (hb : s.periph.txBusy = false) : Keeps s (tDriveTx s) := by
  cases hc : cont .txq s with
  | nil =>
    rw [tDriveTx_nil hc]
    exact (keptBy_clearTransmitting h hb).keeps
  | cons x l =>
    obtain ⟨hdrive, -, hring⟩ := tDriveTx_cons h.txq hc hb
    have hpop := keptBy_setRing .txq h hring
    rw [hdrive]
    exact (hpop.trans (keptBy_handed x hpop.inOrder)).keeps

theorem keeps_dreHandler (h : InOrder s) (hb : s.periph.txBusy = false) : Keeps s (dreHandler s) :=
  (keeps_tDriveTx h hb).map fun _ _ ht => keptBy_setDreIe false ht.inOrder

/-! ### The receive-complete handler (R170 to R172) -/

theorem keptBy_receiveByte (h : InOrder s) : KeptBy s (receiveByte s) :=
  ⟨⟨h.cfg, h.rxq, h.txq, h.hcf, h.ecf, h.exclusive⟩, rfl, rfl, rfl, id⟩

theorem rxcHandler_room (hf : s.periph.rxFull = true) (hroom : s.rxq.count < s.cfg.N) :
    rxcHandler s
      = rxcStored s.periph.rxData (setRing .rxq (s.rxq.pushed s.cfg.N s.periph.rxData) (receiveByte s)) := by
  rw [rxcHandler, tDriveRx_room hf hroom]
  rfl

theorem rxcHandler_full (hf : s.periph.rxFull = true) (hfull : s.rxq.count = s.cfg.N) :
    rxcHandler s = rxcOverflow s.periph.rxData (receiveByte s) := by
  rw [rxcHandler, tDriveRx_full hf hfull]
  rfl

theorem ends_rxcStored (b : Byte) (h : InOrder s) (hc : s.ctx = .idle) : Ends s (rxcStored b s) := by
  unfold rxcStored
  split
  · exact ends_peFrame h hc
  · exact ends_ok (h.inv_idle hc)

/-- R172: the handler that suspends has marked the peer as held. -/
theorem ends_rxcOverflow (b : Byte) (h : InOrder s) (hc : s.ctx = .idle) : Ends s (rxcOverflow b s) := by
  have hmarked : InOrder (setWaitingAck true (setPartnerWaiting true (signal (.rxqOverflow b) s))) :=
    ⟨h.cfg, h.rxq, h.txq, h.hcf, h.ecf, h.exclusive⟩
  exact ends_of_idleReady (ends_cfEncodeAndForce s.cfg.opWait [] (.ovf b) hmarked hc rfl (Nat.zero_le _)) id

theorem ends_rxcHandler (h : InOrder s) (hc : s.ctx = .idle) (hf : s.periph.rxFull = true) :
    Ends s (rxcHandler s) := by
  have hread := keptBy_receiveByte h
  obtain ⟨-, -, -, -, hcount, -⟩ := h.rxq
  rcases Nat.lt_or_eq_of_le hcount with hroom | hfull
  · have hstored := hread.trans (keptBy_setRing .rxq hread.inOrder (h.rxq.pushed (b := s.periph.rxData) hroom))
    rw [rxcHandler_room hf hroom]
    exact (ends_rxcStored _ hstored.inOrder hc).after hstored
  · rw [rxcHandler_full hf hfull]
    exact (ends_rxcOverflow _ hread.inOrder hc).after hread

/-! ### The forced send (R173, R187, R214, R215) -/

theorem ends_kontOvf (b : Byte) (h : InOrder s) (hc : s.ctx = .idle) : Ends s (kontOvf b s) := by
  unfold kontOvf
  split
  · exact ends_peFrame h hc
  · split
    · exact (keptBy_bumpSeqIn h).keeps.ends hc
    · exact ends_ok (h.inv_idle hc)

theorem ends_kontResumed (h : InOrder s) (hc : s.ctx = .idle) : Ends s (kontResumed s) := by
  rcases keeps_tKick h with ⟨u, hu, hkept⟩ | ⟨herr, hn⟩
  · have ho := hkept.inOrder
    have hreleased : InOrder (setPartnerWaiting false u) := ⟨ho.cfg, ho.rxq, ho.txq, ho.hcf, ho.ecf, ho.exclusive⟩
    refine .inl ⟨setPartnerWaiting false u, ?_, hreleased.inv_idle (hkept.ctx.trans hc), hkept.idleReady⟩
    rw [kontResumed, tBeginTransmit, hu]
    rfl
  · refine .inr ⟨?_, hn⟩
    rw [kontResumed, tBeginTransmit, herr]
    rfl

theorem ends_runKont (k : Kont) (h : InOrder s) (hc : s.ctx = .idle) : Ends s (runKont k s) := by
  cases k with
  | ovf b => exact ends_kontOvf b h hc
  | resumed => exact ends_kontResumed h hc

theorem spinStep_ready {rest : List Byte} {k : Kont} (hc : s.ctx = .forcing b rest k) (hb : s.periph.txBusy = false) :
    spinStep s = spinAdvance rest k (handed b s) := by
  rw [spinStep_forcing hc, tHandoff_ready hb, if_pos (by simp [isTransmitReady, hb])]
  rfl

/-- R214: a forced byte leaves, and the list that is left is shorter or the handler resumes. -/
theorem ends_spinStep (h : Inv s) : Ends s (spinStep s) := by
  cases hc : s.ctx with
  | idle =>
    rw [spinStep_idle hc]
    exact ends_ok h
  | forcing b rest k =>
    cases hb : s.periph.txBusy with
    | true =>
      rw [spinStep_busy hb]
      exact ends_ok h
    | false =>
      have ho : InOrder (handed b s) := (keptBy_handed b h.inOrder).inOrder
      have hset : ∀ c, InOrder { handed b s with ctx := c } :=
        fun _ => ⟨ho.cfg, ho.rxq, ho.txq, ho.hcf, ho.ecf, ho.exclusive⟩
      have hbusy : ∀ c, IdleReady { handed b s with ctx := c } := fun _ ht => Bool.noConfusion ht
      rw [spinStep_ready hc hb]
      cases rest with
      | nil => exact ends_of_idleReady (ends_runKont k (hset .idle) rfl) fun _ => hbusy .idle
      | cons b' rest' =>
        have hshort : ctxLength (.forcing b (b' :: rest') k) ≤ s.cfg.flen 2 := hc ▸ h.short
        have hheld : s.ls.partnerWaiting = true := h.held (by rw [hc]; exact Ctx.noConfusion)
        exact .inl ⟨_, rfl, (hset _).inv (Nat.le_of_succ_le hshort) fun _ => hheld, fun _ => hbusy _⟩

/-! ### Serving a request -/

theorem ends_serveIrq {src : IrqSource} {handler : State → Except Fault State} (h : Inv s)
    (hrun : irqEnabled src s = true → Ends s (handler (handlerEntry src s))) : Ends s (serveIrq src handler s) := by
  cases he : irqEnabled src s with
  | false =>
    rw [serveIrq_disabled he]
    exact ends_ok h
  | true =>
    have hserve : serveIrq src handler s = handler (handlerEntry src s) := by
      rw [serveIrq, he]
      cases handler (handlerEntry src s) <;> rfl
    exact hserve ▸ hrun he

theorem ends_serve_rxc (h : Inv s) : Ends s (serveIrq .rxc rxcHandler s) :=
  ends_serveIrq h fun he =>
    have ⟨hc, hf⟩ := irqEnabled_rxc.mp he
    ends_rxcHandler h.inOrder hc hf

theorem keptBy_txcEntry (h : InOrder s) : KeptBy s (handlerEntry .txc s) :=
  ⟨⟨h.cfg, h.rxq, h.txq, h.hcf, h.ecf, h.exclusive⟩, rfl, rfl, rfl, id⟩

theorem ends_serve_txc (h : Inv s) : Ends s (serveIrq .txc (fun t => .ok (txcHandler t)) s) :=
  ends_serveIrq h fun he =>
    have hentry := keptBy_txcEntry h.inOrder
    (hentry.trans (keptBy_txcHandler hentry.inOrder)).keeps.ends (irqEnabled_txc.mp he).1

theorem ends_serve_dre (h : Inv s) : Ends s (serveIrq .dre dreHandler s) :=
  ends_serveIrq h fun he =>
    have ⟨hc, _, hb⟩ := irqEnabled_dre.mp he
    (keeps_dreHandler h.inOrder hb).ends hc

/-! ### The host's operations -/

/-- Noting the count that a computation returned. -/
theorem keeps_noteCount {y : Except Fault (Nat × State)} (h : Keeps s (y.map Prod.snd)) : Keeps s (y.map noteCount) := by
  cases y with
  | error e => exact h
  | ok p => exact h.map (g := setRet (.count p.1)) fun u _ hu => keptBy_setRet _ hu.inOrder

/-- `T.INIT` (R131) keeps the block in order; with a byte in flight it breaks R140 (R293). -/
theorem inOrder_tInit (h : InOrder s) : InOrder (tInit s) := by
  have hrx := keptBy_rbInit .rxq h
  have htx := keptBy_rbInit .txq hrx.inOrder
  have ho := htx.inOrder
  exact ⟨ho.cfg, ho.rxq, ho.txq, ho.hcf, ho.ecf, ho.exclusive⟩

theorem keeps_hostRun {i : Instr} (hi : i ≠ .tInit) (h : InOrder s) : Keeps s (hostRun i s) := by
  cases i with
  | tInit => exact absurd rfl hi
  | tStatus => exact (keptBy_setRet _ h).keeps
  | tTransmit b => exact keeps_noteCount (keeps_tTransmit b h)
  | tReceive => exact (keptBy_then_setRet _ (keptBy_rbPop .rxq h)).keeps
  | tBulkTransmit bytes start length => exact keeps_noteCount (keeps_tBulkTransmit bytes start length h)
  | tBeginTransmit => exact (keeps_tKick h).map fun _ _ hu => keptBy_setRet _ hu.inOrder
  | cfInit => exact (keptBy_then_setRet _ (keptBy_cfInit .hcf h)).keeps
  | cfSetOpcode op => exact (keptBy_then_setRet _ (keptBy_cfSetOpcode .hcf op h)).keeps
  | cfAppend b => exact (keptBy_then_setRet _ (keptBy_cfAppend .hcf b h)).keeps
  | cfEncodeAndEnqueue => exact keeps_noteCount (keeps_cfEncodeAndEnqueue _ _ h)
  | cfDecodeFromReceive m => exact (keptBy_then_setRet _ (keptBy_cfDecodeFromReceive m.toNat h)).keeps
  | _ => exact (KeptBy.refl h).keeps

theorem inv_hostRun {i : Instr} (h : InOrder s) (hc : s.ctx = .idle) (ht : hostRun i s = .ok t) : Inv t := by
  by_cases hi : i = .tInit
  · subst hi
    exact Except.ok.inj ht ▸ (keptBy_setRet .none (inOrder_tInit h)).inOrder.inv_idle hc
  · exact inv_of_ends ((keeps_hostRun hi h).ends hc) (congrArg finish ht)

theorem inv_exec_request {i : Instr} {r : HostReq} (hcode : encodeRequest i = some r) (h : Inv s)
    (ht : exec i s = .next t) : Inv t := by
  rcases exec_request_next hcode ht with rfl | ⟨hc, hrun⟩
  · exact inv_of_block_eq h rfl
  · exact inv_hostRun (keptBy_setAck true h.inOrder).inOrder hc hrun

theorem inv_serveHost (h : Inv s) (ht : serveHost s = .next t) : Inv t := by
  cases hq : s.hostQ with
  | nil =>
    rw [serveHost_nil hq] at ht
    exact Host.Outcome.next.inj ht ▸ h
  | cons r rs =>
    rw [serveHost_cons hq] at ht
    split at ht
    · obtain ⟨_, hcode⟩ := exists_encodeRequest_decodeRequest r
      have htaken : Inv { s with hostQ := rs } := inv_of_block_eq h rfl
      exact inv_exec_request hcode htaken ht
    · exact Host.Outcome.next.inj ht ▸ inv_of_block_eq h rfl

/-! ### The environment's steps -/

theorem inv_exec_periphTxDone (h : Inv s) (ht : exec .periphTxDone s = .next t) : Inv t := by
  change execPeriphTxDone s = .next t at ht
  unfold execPeriphTxDone at ht
  split at ht <;> exact Host.Outcome.next.inj ht ▸ inv_of_block_eq h rfl

theorem inv_serveDeliver (h : Inv s) (ht : serveDeliver s = .next t) : Inv t := by
  obtain ⟨u, hu, hpass⟩ := serveDeliver_passes s
  obtain rfl := Host.Outcome.next.inj (hu.symm.trans ht)
  exact inv_of_block_eq h (by rw [hpass.rest]; rfl)

theorem inv_resetEvent (h : Inv s) : Inv (resetEvent s) where
  cfg := h.cfg
  rxq := ringOk_empty h.cfg.1 h.rxq.1 h.rxq.2.1
  txq := ringOk_empty h.cfg.1 h.txq.1 h.txq.2.1
  hcf := frameOk_empty h.hcf.1 h.hcf.2.1
  ecf := frameOk_empty h.ecf.1 h.ecf.2.1
  exclusive := rfl
  short := Nat.zero_le _
  held := fun hc => absurd rfl hc

theorem inv_runAgent {a : Agent} (h : Inv s) (ht : runAgent a s = .next t) : Inv t := by
  cases a with
  | host => exact inv_serveHost h ht
  | rxc => exact inv_of_ends (ends_serve_rxc h) ht
  | txc => exact inv_of_ends (ends_serve_txc h) ht
  | dre => exact inv_of_ends (ends_serve_dre h) ht
  | spin => exact inv_of_ends (ends_spinStep h) ht
  | txDone => exact inv_exec_periphTxDone h ht
  | deliver => exact inv_serveDeliver h ht
  | peer b => exact Host.Outcome.next.inj ht ▸ inv_of_block_eq h rfl
  | reset => exact Host.Outcome.next.inj ht ▸ inv_resetEvent h

end Invariant

/-- Settles O57: the turn is taken off the schedule, which the invariant does not read; then one lemma per agent. -/
theorem everyStepKeepsTheBlockInOrder : Obligations.EveryStepKeepsTheBlockInOrder := by
  unfold Obligations.EveryStepKeepsTheBlockInOrder
  intro s t hinv hstep
  cases hs : s.sched with
  | nil =>
    rw [step_of_sched_nil hs] at hstep
    exact Host.Outcome.next.inj hstep ▸ hinv
  | cons a rest =>
    rw [step_of_sched_cons hs] at hstep
    have htaken : Inv { s with sched := rest } := inv_of_block_eq hinv rfl
    exact inv_runAgent htaken hstep

end Sys2Proof.Proofs
end

section
/-! What each operation can change: the frame register of its context, the wire while this side is paused, and the flags
and counters of the tables of R41 and R191. -/

namespace Sys2Proof.Proofs

open Sys2Proof Sys2Proof.Machine

section Inversion

variable {s t u : State} {i : Instr} {r : HostReq} {n : Nat} {b : Byte}

/-! ### What a host operation can change -/

/-- The peripheral and the wire of a state in which this side is paused stay (R29). -/
def QuietIfPaused (s t : State) : Prop := s.ls.selfWaiting = true → t.wireOut = s.wireOut ∧ t.periph = s.periph

/-- What a host operation did to the state in which it was acknowledged, its result aside: `T.INIT`, a read of `RXQ` or a
change of `HCF`, or a send. -/
inductive HostRan (i : Instr) (s t : State) : Prop
  | init (h : i = .tInit) (ht : t = tInit s)
  | read (h : ReadsOnly .hcf s t)
  | sent (h : SendsOnly { s with seqOut := t.seqOut } t) (hseq : t.seqOut ≠ s.seqOut → i = .cfEncodeAndEnqueue)
      (hquiet : QuietIfPaused s t)

/-- A send that does not advance `SEQ_OUT`. -/
theorem hostRan_of_sends (h : SendsOnly s t) (hquiet : QuietIfPaused s t) : HostRan i s t := by
  have hseq : t.seqOut = s.seqOut := by rw [h.1]
  exact .sent (by rwa [hseq]) (fun hne => absurd hseq hne) hquiet

theorem quiet_kick {v : State} (hls : u.ls = s.ls) (hw : u.wireOut = s.wireOut) (hp : u.periph = s.periph)
    (h : tKick u = .ok v) : QuietIfPaused s v := by
  intro hpaused
  rw [tKick_paused (hls ▸ hpaused)] at h
  obtain rfl := Except.ok.inj h
  exact ⟨hw, hp⟩

theorem rbPush_txq_fields (b : Byte) (s : State) :
    (rbPush .txq b s).2 = { s with txq := (rbPush .txq b s).2.txq } :=
  pushAll_fields [b] s

theorem quiet_tTransmit (h : tTransmit b s = .ok (n, t)) : QuietIfPaused s t := by
  unfold tTransmit at h
  split at h
  · cases h
    exact fun _ => ⟨rfl, rfl⟩
  · obtain ⟨u, hu, he⟩ := map_ok h
    cases he
    refine quiet_kick ?_ ?_ ?_ hu <;> rw [rbPush_txq_fields]

theorem quiet_tBulkTransmit {bytes : List Byte} {start length : Nat}
    (h : tBulkTransmit bytes start length s = .ok (n, t)) : QuietIfPaused s t := by
  obtain ⟨u, hu, he⟩ := map_ok h
  cases he
  have hkick : QuietIfPaused s u := by
    refine quiet_kick ?_ ?_ ?_ hu <;> rw [pushAll_fields]
  rw [QuietIfPaused, noteShort_fields]
  exact hkick

theorem quiet_enqueue {op : Byte} {pl : List Byte} (h : cfEncodeAndEnqueue op pl s = .ok (n, t)) :
    QuietIfPaused s t := by
  obtain ⟨⟨k, u⟩, hu, he⟩ := map_ok h
  have hbulk := quiet_tBulkTransmit hu
  dsimp only at he
  split at he <;> cases he <;> exact hbulk

theorem noteCount_ok {y : Except Fault (Nat × State)} (h : y.map noteCount = .ok t) :
    ∃ k u, y = .ok (k, u) ∧ t = setRet (.count k) u := by
  obtain ⟨⟨k, u⟩, hu, rfl⟩ := map_ok h
  exact ⟨k, u, hu, rfl⟩

theorem readsOnly_cfAppend (b : Byte) (s : State) : ReadsOnly .hcf s (cfAppend .hcf b s).2 := by
  unfold cfAppend
  split <;> rfl

/-- R100: the classes of the host operations. -/
theorem hostRun_ok (h : hostRun i s = .ok t) : ∃ r u, t = setRet r u ∧ HostRan i s u := by
  cases i with
  | tInit => exact ⟨_, _, (Except.ok.inj h).symm, .init rfl rfl⟩
  | tStatus => exact ⟨_, _, (Except.ok.inj h).symm, .read (.refl _ s)⟩
  | tReceive => exact ⟨_, _, (Except.ok.inj h).symm, .read (readsOnly_pop _ s)⟩
  | cfInit => exact ⟨_, _, (Except.ok.inj h).symm, .read rfl⟩
  | cfSetOpcode op => exact ⟨_, _, (Except.ok.inj h).symm, .read rfl⟩
  | cfAppend b => exact ⟨_, _, (Except.ok.inj h).symm, .read (readsOnly_cfAppend b s)⟩
  | cfDecodeFromReceive m => exact ⟨_, _, (Except.ok.inj h).symm, .read (cfDecodeFromReceive_fields m.toNat s)⟩
  | tTransmit b =>
    obtain ⟨k, u, hu, rfl⟩ := noteCount_ok h
    exact ⟨_, u, rfl, hostRan_of_sends (tTransmit_fields hu) (quiet_tTransmit hu)⟩
  | tBulkTransmit bytes start length =>
    obtain ⟨k, u, hu, rfl⟩ := noteCount_ok h
    exact ⟨_, u, rfl, hostRan_of_sends (tBulkTransmit_fields hu) (quiet_tBulkTransmit hu)⟩
  | tBeginTransmit =>
    obtain ⟨u, hu, rfl⟩ := map_ok h
    exact ⟨_, u, rfl, hostRan_of_sends (tKick_fields hu) (quiet_kick rfl rfl rfl hu)⟩
  | cfEncodeAndEnqueue =>
    obtain ⟨k, u, hu, rfl⟩ := noteCount_ok h
    exact ⟨_, u, rfl, .sent (cfEncodeAndEnqueue_fields hu).2 (fun _ => rfl) (quiet_enqueue hu)⟩
  | _ => exact ⟨s.ret, s, (Except.ok.inj h).symm, .read (.refl _ s)⟩

theorem tInit_ecf (s : State) : (tInit s).ecf = s.ecf := rfl

theorem HostRan.ecf_eq (h : HostRan i s t) : t.ecf = s.ecf := by
  cases h with
  | init _ ht => rw [ht, tInit_ecf]
  | read h => rw [h]; rfl
  | sent h _ _ => rw [h.1]

theorem HostRan.quiet (h : HostRan i s t) : QuietIfPaused s t := by
  cases h with
  | init _ ht => exact fun _ => by rw [ht]; exact ⟨rfl, rfl⟩
  | read h => exact fun _ => by rw [h]; exact ⟨rfl, rfl⟩
  | sent _ _ hquiet => exact hquiet

/-! ### What a handler can change -/

/-- A row of the opcode map is the engine at work on `ECF` (R178). -/
theorem exec_row_next {c : Config} {op : Byte} (hcode : encodeOpcode c i = some op) (h : exec i s = .next t) :
    ∃ r u, t = setRet r u ∧ EngineOnly s u := by
  have named : ∀ x, EngineOnly s (cfSetOpcode .ecf x s) := fun _ => ReadsOnly.engine rfl
  cases i with
  | wait =>
    obtain ⟨⟨r, u⟩, hu, rfl⟩ := finish_map_next h
    exact ⟨_, u, rfl, engineOnly_handleWait hu⟩
  | resume =>
    obtain ⟨⟨r, u⟩, hu, rfl⟩ := finish_map_next h
    exact ⟨_, u, rfl, engineOnly_handleResume hu⟩
  | ack => exact ⟨_, _, (Host.Outcome.next.inj h).symm, engineOnly_handleAck s⟩
  | ackUnsolicited =>
    exact ⟨_, _, (Host.Outcome.next.inj h).symm,
      ((named _).trans (engineOnly_signal _ _)).trans (engineOnly_handleApp _)⟩
  | resync => exact ⟨_, _, (Host.Outcome.next.inj h).symm, engineOnly_handleResync s⟩
  | escapeChar => exact ⟨_, _, (Host.Outcome.next.inj h).symm, (named _).trans (engineOnly_handleApp _)⟩
  | endMark => exact ⟨_, _, (Host.Outcome.next.inj h).symm, .refl s⟩
  | app op => exact ⟨_, _, (Host.Outcome.next.inj h).symm, (named _).trans (engineOnly_handleApp _)⟩
  | _ => cases hcode

theorem exec_peFrame_next (h : exec .peFrame s = .next t) : ∃ r u, t = setRet r u ∧ EngineOnly s u := by
  obtain ⟨u, hu, rfl⟩ := finish_map_next h
  exact ⟨_, u, rfl, engineOnly_peFrame hu⟩

theorem rxcStored_ok (h : rxcStored b s = .ok t) : EngineOnly s t := by
  unfold rxcStored at h
  split at h
  · exact engineOnly_peFrame h
  · exact Except.ok.inj h ▸ .refl s

/-- R170 to R172: the byte is read, and the engine runs on the longer `RXQ` or after the peer was marked as held. -/
theorem rxcHandler_ok (h : rxcHandler s = .ok t) :
    (∃ r, EngineOnly (setRing .rxq r (receiveByte s)) t) ∨
      EngineOnly (setWaitingAck true (setPartnerWaiting true (receiveByte s))) t := by
  obtain ⟨⟨⟨b, stored⟩, u⟩, hu, hrest⟩ := bind_ok h
  unfold tDriveRx at hu
  split at hu
  · unfold rbPush at hu
    split at hu
    · cases hu
      exact .inr ((engineOnly_signal _ _).trans (engineOnly_force hrest))
    · cases hu
      exact .inl ⟨_, rxcStored_ok hrest⟩
  · cases hu

theorem tDriveTx_ok (h : tDriveTx s = .ok t) : t = setTransmitting false s ∨ SendsOnly s t := by
  unfold tDriveTx at h
  split at h
  · exact .inl (Except.ok.inj h).symm
  · exact .inr (popAndHandoff_fields h).1

theorem dreHandler_ok (h : dreHandler s = .ok t) :
    ∃ u, t = setDreIe false u ∧ (u = setTransmitting false s ∨ SendsOnly s u) := by
  obtain ⟨u, hu, rfl⟩ := map_ok h
  exact ⟨u, rfl, tDriveTx_ok hu⟩

theorem engineOnly_setCtx (c : Ctx) (s : State) : EngineOnly s { s with ctx := c } :=
  ⟨rfl, id, rfl, id, id, .inl ⟨rfl, rfl, rfl⟩⟩

theorem engineOnly_handed (hb : s.periph.txBusy = false) : EngineOnly s (handed b s) :=
  ⟨rfl, id, rfl, id, fun _ => rfl, .inr ⟨b, rfl, hb, rfl, rfl⟩⟩

theorem kontOvf_ok (h : kontOvf b s = .ok t) : EngineOnly s t := by
  unfold kontOvf at h
  split at h
  · exact engineOnly_peFrame h
  · split at h
    · exact Except.ok.inj h ▸ engineOnly_bumpSeqIn s
    · exact Except.ok.inj h ▸ .refl s

/-- R173, R187, R215: the continuation is the engine again, and the end of `K_RESUMED` releases the peer. -/
theorem runKont_ok {k : Kont} (h : runKont k s = .ok t) :
    EngineOnly s t ∨ ∃ u, EngineOnly s u ∧ t = setPartnerWaiting false u := by
  cases k with
  | ovf b => exact .inl (kontOvf_ok h)
  | resumed =>
    obtain ⟨u, hu, rfl⟩ := map_ok h
    exact .inr ⟨u, (tKick_fields hu).engine, rfl⟩

theorem spinAdvance_ok {rest : List Byte} {k : Kont} (h : spinAdvance rest k s = .ok t) :
    EngineOnly s t ∨ ∃ u, EngineOnly s u ∧ t = setPartnerWaiting false u := by
  cases rest with
  | nil =>
    have hidle := engineOnly_setCtx .idle s
    rcases runKont_ok h with hrun | ⟨u, hrun, ht⟩
    · exact .inl (hidle.trans hrun)
    · exact .inr ⟨u, hidle.trans hrun, ht⟩
  | cons b rest => exact .inl (Except.ok.inj h ▸ engineOnly_setCtx _ s)

/-- R214: what a spin can change. -/
theorem spinStep_ok (h : spinStep s = .ok t) :
    EngineOnly s t ∨ ∃ u, EngineOnly s u ∧ t = setPartnerWaiting false u := by
  cases hc : s.ctx with
  | idle =>
    rw [spinStep_idle hc] at h
    exact .inl (Except.ok.inj h ▸ .refl s)
  | forcing b rest k =>
    cases hb : s.periph.txBusy with
    | true =>
      rw [spinStep_busy hb] at h
      exact .inl (Except.ok.inj h ▸ .refl s)
    | false =>
      rw [spinStep_ready hc hb] at h
      have hsent := engineOnly_handed (b := b) hb
      rcases spinAdvance_ok h with hrun | ⟨u, hrun, ht⟩
      · exact .inl (hsent.trans hrun)
      · exact .inr ⟨u, hsent.trans hrun, ht⟩

theorem exec_peRxc_next (h : exec .peRxc s = .next t) : t = s ∨ rxcHandler s = .ok t :=
  (serveIrq_ok (finish_next h)).imp_right And.right

theorem exec_peTxc_next (h : exec .peTxc s = .next t) : t = s ∨ t = txcHandler (handlerEntry .txc s) :=
  (serveIrq_ok (finish_next h)).imp_right fun he => (Except.ok.inj he.2).symm

theorem exec_peDre_next (h : exec .peDre s = .next t) : t = s ∨ dreHandler s = .ok t :=
  (serveIrq_ok (finish_next h)).imp_right And.right

/-! ### The host's frame register -/

theorem engineOnly_hcf (h : EngineOnly s t) : t.hcf = s.hcf := by rw [h.rest]

theorem sendsOnly_hcf (h : SendsOnly s t) : t.hcf = s.hcf := by rw [h.1]

theorem txcHandler_hcf (s : State) : (txcHandler s).hcf = s.hcf := by
  unfold txcHandler
  split
  · split <;> rfl
  · split
    · split <;> rfl
    · rfl

theorem exec_row_hcf {c : Config} {op : Byte} (hcode : encodeOpcode c i = some op) (h : exec i s = .next t) :
    t.hcf = s.hcf := by
  obtain ⟨r, u, rfl, hu⟩ := exec_row_next hcode h
  exact (engineOnly_hcf hu :)

theorem exec_peFrame_hcf (h : exec .peFrame s = .next t) : t.hcf = s.hcf := by
  obtain ⟨r, u, rfl, hu⟩ := exec_peFrame_next h
  exact (engineOnly_hcf hu :)

theorem exec_peRxc_hcf (h : exec .peRxc s = .next t) : t.hcf = s.hcf := by
  rcases exec_peRxc_next h with rfl | h
  · rfl
  · rcases rxcHandler_ok h with ⟨r, hu⟩ | hu <;> exact (engineOnly_hcf hu :)

theorem exec_peTxc_hcf (h : exec .peTxc s = .next t) : t.hcf = s.hcf := by
  rcases exec_peTxc_next h with rfl | rfl
  · rfl
  · exact txcHandler_hcf _

theorem exec_peDre_hcf (h : exec .peDre s = .next t) : t.hcf = s.hcf := by
  rcases exec_peDre_next h with rfl | h
  · rfl
  · obtain ⟨u, rfl, rfl | hu⟩ := dreHandler_ok h
    · rfl
    · exact (sendsOnly_hcf hu :)

theorem exec_spin_hcf (h : exec .spin s = .next t) : t.hcf = s.hcf := by
  rcases spinStep_ok (finish_next h) with hu | ⟨u, hu, rfl⟩ <;> exact (engineOnly_hcf hu :)

theorem exec_request_ecf (hcode : encodeRequest i = some r) (h : exec i s = .next t) : t.ecf = s.ecf := by
  rcases exec_request_next hcode h with rfl | ⟨-, hrun⟩
  · rfl
  · obtain ⟨_, u, rfl, hu⟩ := hostRun_ok hrun
    exact hu.ecf_eq

end Inversion

/-- Settles O51: host operations by what they can change, interrupt context by the engine's part of the state. -/
theorem eachContextOwnsItsFrameRegister : Obligations.EachContextOwnsItsFrameRegister := by
  unfold Obligations.EachContextOwnsItsFrameRegister
  intro i s t h
  refine ⟨fun ⟨r, hcode⟩ => exec_request_ecf hcode h, ?_⟩
  rintro (⟨c, op, hcode⟩ | hi)
  · exact exec_row_hcf hcode h
  · simp only [List.mem_cons, List.not_mem_nil, or_false] at hi
    rcases hi with rfl | rfl | rfl | rfl | rfl
    · exact exec_peFrame_hcf h
    · exact exec_peRxc_hcf h
    · exact exec_peTxc_hcf h
    · exact exec_peDre_hcf h
    · exact exec_spin_hcf h

/-- Settles O52: each send of the host goes through a kick, which a pause stops. -/
theorem pausedSideStartsNoByte : Obligations.PausedSideStartsNoByte := by
  unfold Obligations.PausedSideStartsNoByte
  intro i r s t hcode hpaused h
  rcases exec_request_next hcode h with rfl | ⟨-, hrun⟩
  · exact ⟨rfl, rfl⟩
  · obtain ⟨_, u, rfl, hu⟩ := hostRun_ok hrun
    exact hu.quiet hpaused

end Sys2Proof.Proofs
end

section
/-! Who moves the flags and the counters (R41, R191): the moves each operation can make, composed along its meaning, and
the hand-off that every rise of `LS.TRANSMITTING` comes with. -/

namespace Sys2Proof.Proofs

open Sys2Proof Sys2Proof.Machine

section Moves

/-! ### Moves of the flags and the counters -/

/-- The flags with setters and clearers of their own. `LS.TRANSMITTING` is not among them: a hand-off sets it. -/
inductive Flag where
  | selfWaiting | partnerWaiting | requestSelfWait | waitingAck | dreIe

def Flag.read : Flag → State → Bool
  | .selfWaiting, s => s.ls.selfWaiting
  | .partnerWaiting, s => s.ls.partnerWaiting
  | .requestSelfWait, s => s.ls.requestSelfWait
  | .waitingAck, s => s.ls.waitingAck
  | .dreIe, s => s.dreIe

def Flag.write : Flag → Bool → State → State
  | .selfWaiting => setSelfWaiting
  | .partnerWaiting => setPartnerWaiting
  | .requestSelfWait => setRequestSelfWait
  | .waitingAck => setWaitingAck
  | .dreIe => setDreIe

/-- What the tables of R41 and R191 record: a flag that takes the value `b`, `LS.TRANSMITTING` cleared, a counter
written. -/
inductive Move where
  | flag (f : Flag) (b : Bool)
  | stop
  | seqIn
  | seqOut

def Move.Happened : Move → State → State → Prop
  | .flag f b, s, t => f.read s = !b ∧ f.read t = b
  | .stop, s, t => s.ls.transmitting = true ∧ t.ls.transmitting = false
  | .seqIn, s, t => s.seqIn ≠ t.seqIn
  | .seqOut, s, t => s.seqOut ≠ t.seqOut

variable {s t u : State} {i : Instr} {l : List Move} {n : Nat} {b : Byte}

/-- A move between two states happened before or after any state in between. -/
theorem Move.Happened.before_or_after {m : Move} (h : m.Happened s u) (t : State) :
    m.Happened s t ∨ m.Happened t u := by
  cases m with
  | flag f b =>
    obtain ⟨hs, hu⟩ := h
    rcases Bool.eq_or_eq_not (f.read t) b with ht | ht
    · exact .inl ⟨hs, ht⟩
    · exact .inr ⟨ht, hu⟩
  | stop =>
    obtain ⟨hs, hu⟩ := h
    cases ht : t.ls.transmitting with
    | true => exact .inr ⟨ht, hu⟩
    | false => exact .inl ⟨hs, ht⟩
  | seqIn | seqOut => exact (Ne.ne_or_ne _ h).imp_right Ne.symm

/-- At most one byte was handed off (R139), and without one `LS.TRANSMITTING` did not rise. -/
def HandOff (s t : State) : Prop :=
  (t.wireOut = s.wireOut ∧ t.periph.txBusy = s.periph.txBusy ∧ t.periph.txData = s.periph.txData
      ∧ (t.ls.transmitting = true → s.ls.transmitting = true)) ∨
    ∃ b, t.wireOut = s.wireOut ++ [b] ∧ s.periph.txBusy = false ∧ t.periph.txBusy = true ∧ t.periph.txData = b

/-- Two hand-offs do not follow each other: the first leaves the peripheral busy. -/
theorem HandOff.trans (h : HandOff s t) (h' : HandOff t u) : HandOff s u := by
  rcases h with ⟨hw, hb, hd, htr⟩ | ⟨x, hw, hb, hb', hd⟩
  · rcases h' with ⟨hw', hb', hd', htr'⟩ | ⟨y, hw', hb', hrest⟩
    · exact .inl ⟨hw'.trans hw, hb'.trans hb, hd'.trans hd, htr ∘ htr'⟩
    · exact .inr ⟨y, hw ▸ hw', hb ▸ hb', hrest⟩
  · rcases h' with ⟨hw', hbu, hdu, -⟩ | ⟨y, -, hbt, -⟩
    · exact .inr ⟨x, hw'.trans hw, hb, hbu.trans hb', hdu.trans hd⟩
    · exact absurd (hb'.symm.trans hbt) Bool.noConfusion

/-- From `s` to `t` only the listed moves happened, and at most one hand-off. -/
structure Effect (l : List Move) (s t : State) : Prop where
  moves : ∀ m : Move, m.Happened s t → m ∈ l
  handOff : HandOff s t

theorem Effect.trans (h : Effect l s t) (h' : Effect l t u) : Effect l s u where
  moves m hm := (hm.before_or_after t).elim (h.moves m) (h'.moves m)
  handOff := h.handOff.trans h'.handOff

/-! ### The moves of the shared operations -/

/-- What the moves and the hand-off speak of. -/
def watched (s : State) : LinkStatus × Bool × Byte × Byte × List Byte × Bool × Byte :=
  (s.ls, s.dreIe, s.seqIn, s.seqOut, s.wireOut, s.periph.txBusy, s.periph.txData)

theorem effect_of_kept (hflag : ∀ f : Flag, f.read t = f.read s)
    (htr : s.ls.transmitting = true → t.ls.transmitting = true) (hin : t.seqIn = s.seqIn) (hout : t.seqOut = s.seqOut)
    (hand : HandOff s t) : Effect l s t where
  moves m hm := by
    cases m with
    | flag f b => exact absurd (hm.1.symm.trans ((hflag f).symm.trans hm.2)) (Bool.not_ne_self b)
    | stop => exact absurd ((htr hm.1).symm.trans hm.2) Bool.noConfusion
    | seqIn => exact absurd hin.symm hm
    | seqOut => exact absurd hout.symm hm
  handOff := hand

theorem effect_of_watched_eq (h : watched t = watched s) : Effect l s t := by
  simp only [watched, Prod.mk.injEq] at h
  obtain ⟨hls, hdre, hin, hout, hw, hb, hd⟩ := h
  refine effect_of_kept (fun f => ?_) (by rw [hls]; exact id) hin hout (.inl ⟨hw, hb, hd, by rw [hls]; exact id⟩)
  cases f <;> simp only [Flag.read, hls, hdre]

theorem watched_setRing (q : QueueId) (r : Ring) (s : State) : watched (setRing q r s) = watched s := by
  cases q <;> rfl

theorem watched_rbPop (q : QueueId) (s : State) : watched (rbPop q s).state = watched s := by
  unfold rbPop
  split
  · rfl
  · exact watched_setRing q _ s

theorem watched_rbPush (q : QueueId) (b : Byte) (s : State) : watched (rbPush q b s).2 = watched s := by
  unfold rbPush
  split
  · rfl
  · exact watched_setRing q _ s

theorem effect_of_readsOnly {f : FrameId} (h : ReadsOnly f s t) : Effect l s t := by
  refine effect_of_watched_eq ?_
  rw [h]
  cases f <;> rfl

theorem effect_cfDiscard (s : State) : Effect l s (cfDiscard s) :=
  effect_of_readsOnly (discardLoop_fields .ecf _ s)

theorem handOff_of_sent (h : Sent s t) : HandOff s t := by
  rcases h with ⟨hw, hls, hp⟩ | ⟨b, hw, hb, -, hp⟩
  · exact .inl ⟨hw, by rw [hp], by rw [hp], by rw [hls]; exact id⟩
  · exact .inr ⟨b, hw, hb, by rw [hp], by rw [hp]⟩

/-- A send sets `LS.TRANSMITTING` or moves no flag at all. -/
theorem effect_of_sendsOnly (h : SendsOnly s t) : Effect l s t := by
  obtain ⟨hrest, hsent⟩ := h
  have hls : t.ls = s.ls ∨ t.ls = { s.ls with transmitting := true } := by
    rcases hsent with ⟨-, hls, -⟩ | ⟨_, -, -, hls, -⟩
    · exact .inl hls
    · exact .inr hls
  have hdre : t.dreIe = s.dreIe := by rw [hrest]
  refine effect_of_kept (fun f => ?_) (fun htr => ?_) (by rw [hrest]) (by rw [hrest]) (handOff_of_sent hsent)
  · rcases hls with hls | hls <;> cases f <;> simp only [Flag.read, hls, hdre]
  · rcases hls with hls | hls <;> simp only [hls, htr]

theorem sendsOnly_handed (hb : s.periph.txBusy = false) : SendsOnly s (handed b s) :=
  ⟨rfl, .inr ⟨b, rfl, hb, rfl, rfl⟩⟩

theorem Flag.read_write_other {f g : Flag} (h : g ≠ f) (b : Bool) (s : State) : g.read (f.write b s) = g.read s := by
  cases f <;> cases g <;> try rfl
  all_goals exact absurd rfl h

theorem Flag.read_write_same (f : Flag) (b : Bool) (s : State) : f.read (f.write b s) = b := by
  cases f <;> rfl

theorem Flag.write_rest (f : Flag) (b : Bool) (s : State) :
    f.write b s = { s with ls := (f.write b s).ls, dreIe := (f.write b s).dreIe } ∧
      (f.write b s).ls.transmitting = s.ls.transmitting := by
  cases f <;> exact ⟨rfl, rfl⟩

theorem effect_write {f : Flag} (b : Bool) (hl : .flag f b ∈ l) (s : State) : Effect l s (f.write b s) := by
  obtain ⟨hrest, htr⟩ := f.write_rest b s
  refine ⟨fun m hm => ?_, .inl ⟨by rw [hrest], by rw [hrest], by rw [hrest], htr ▸ id⟩⟩
  cases m with
  | flag g c =>
    by_cases hg : g = f
    · subst hg
      obtain rfl : b = c := (g.read_write_same b s).symm.trans hm.2
      exact hl
    · exact absurd (hm.1.symm.trans ((Flag.read_write_other hg b s).symm.trans hm.2)) (Bool.not_ne_self c)
  | stop => exact absurd (hm.1.symm.trans (htr.symm.trans hm.2)) Bool.noConfusion
  | seqIn => exact absurd (by rw [hrest]) hm
  | seqOut => exact absurd (by rw [hrest]) hm

theorem effect_setSelfWaiting (b : Bool) (hl : .flag .selfWaiting b ∈ l) (s : State) :
    Effect l s (setSelfWaiting b s) := effect_write b hl s

theorem effect_setPartnerWaiting (b : Bool) (hl : .flag .partnerWaiting b ∈ l) (s : State) :
    Effect l s (setPartnerWaiting b s) := effect_write b hl s

theorem effect_setRequestSelfWait (b : Bool) (hl : .flag .requestSelfWait b ∈ l) (s : State) :
    Effect l s (setRequestSelfWait b s) := effect_write b hl s

theorem effect_setWaitingAck (b : Bool) (hl : .flag .waitingAck b ∈ l) (s : State) :
    Effect l s (setWaitingAck b s) := effect_write b hl s

theorem effect_setDreIe (b : Bool) (hl : .flag .dreIe b ∈ l) (s : State) :
    Effect l s (setDreIe b s) := effect_write b hl s

theorem effect_clearTransmitting (hl : .stop ∈ l) (s : State) : Effect l s (setTransmitting false s) where
  moves m hm := by
    cases m with
    | stop => exact hl
    | flag f b =>
      have hkept : f.read (setTransmitting false s) = f.read s := by cases f <;> rfl
      exact absurd (hm.1.symm.trans (hkept.symm.trans hm.2)) (Bool.not_ne_self b)
    | seqIn | seqOut => exact absurd rfl hm
  handOff := .inl ⟨rfl, rfl, rfl, fun h => Bool.noConfusion h⟩

/-- Writes of the counters alone. -/
theorem effect_setCounters {a c : Byte} (hin : a ≠ s.seqIn → .seqIn ∈ l) (hout : c ≠ s.seqOut → .seqOut ∈ l) :
    Effect l s { s with seqIn := a, seqOut := c } where
  moves m hm := by
    cases m with
    | flag f b =>
      have hkept : f.read { s with seqIn := a, seqOut := c } = f.read s := by cases f <;> rfl
      exact absurd (hm.1.symm.trans (hkept.symm.trans hm.2)) (Bool.not_ne_self b)
    | stop => exact absurd (hm.1.symm.trans hm.2) Bool.noConfusion
    | seqIn => exact hin (Ne.symm hm)
    | seqOut => exact hout (Ne.symm hm)
  handOff := .inl ⟨rfl, rfl, rfl, id⟩

theorem effect_setSeqOut {c : Byte} (hout : c ≠ s.seqOut → .seqOut ∈ l) : Effect l s { s with seqOut := c } :=
  effect_setCounters (fun h => absurd rfl h) hout

theorem effect_enqueue {op : Byte} {pl : List Byte} (hl : .seqOut ∈ l) (h : cfEncodeAndEnqueue op pl s = .ok (n, t)) :
    Effect l s t :=
  (effect_setSeqOut fun _ => hl).trans (effect_of_sendsOnly (cfEncodeAndEnqueue_fields h).2)

theorem peForce_ok {first : Byte} {rest : List Byte} {k : Kont} (h : peForce first rest k s = .ok t) :
    t = { s with ctx := .forcing first rest k } := by
  unfold peForce at h
  split at h
  · exact (Except.ok.inj h).symm
  · cases h

theorem effect_force {op : Byte} {pl : List Byte} {k : Kont} (hl : .seqOut ∈ l)
    (h : cfEncodeAndForce op pl k s = .ok t) : Effect l s t := by
  have hbump : Effect l s (bumpSeqOut s) := effect_setSeqOut fun _ => hl
  rw [peForce_ok h]
  exact hbump.trans (effect_of_watched_eq rfl)

/-! ### The rows of the opcode map -/

theorem effect_handleApp (s : State) : Effect l s (handleApp s).2 := by
  have hread : Effect l s (cfRdPayload .ecf s.cfg.L s) := effect_of_readsOnly (cfRdPayload_fields .ecf _ s)
  exact hread.trans (effect_of_watched_eq rfl)

theorem effect_handleWait {r : FrameResult} (hset : .flag .requestSelfWait true ∈ l) (hseq : .seqOut ∈ l)
    (h : handleWait s = .ok (r, t)) : Effect l s t := by
  have hmark : Effect l s (if s.ls.selfWaiting then s else setRequestSelfWait true s) := by
    split
    · exact effect_of_watched_eq rfl
    · exact effect_setRequestSelfWait true hset s
  obtain ⟨⟨k, u⟩, hu, he⟩ := map_ok h
  cases he
  exact (hmark.trans (effect_enqueue hseq hu)).trans (effect_cfDiscard u)

theorem effect_handleResume {r : FrameResult} (hself : .flag .selfWaiting false ∈ l)
    (hreq : .flag .requestSelfWait false ∈ l) (h : handleResume s = .ok (r, t)) : Effect l s t := by
  obtain ⟨u, hu, he⟩ := map_ok h
  cases he
  have hcleared := (effect_setSelfWaiting false hself s).trans (effect_setRequestSelfWait false hreq _)
  exact (hcleared.trans (effect_of_sendsOnly (tKick_fields hu))).trans (effect_cfDiscard u)

theorem effect_handleAck (hl : .flag .waitingAck false ∈ l) (s : State) : Effect l s (handleAck s).2 :=
  (effect_setWaitingAck false hl s).trans (effect_cfDiscard _)

theorem effect_handleResync (hin : .seqIn ∈ l) (hout : .seqOut ∈ l) (s : State) : Effect l s (handleResync s).2 := by
  have hread : Effect l s (cfRdPayload .ecf s.cfg.L s) := effect_of_readsOnly (cfRdPayload_fields .ecf _ s)
  unfold handleResync
  dsimp only
  split
  · exact hread.trans (effect_of_watched_eq rfl)
  · exact hread.trans (effect_setCounters (fun _ => hin) fun _ => hout)

/-! ### The engine and the handlers -/

/-- The moves the engine can make while it handles a frame. -/
def engineMoves : List Move :=
  [.flag .selfWaiting false, .flag .requestSelfWait true, .flag .requestSelfWait false, .flag .waitingAck false,
    .seqIn, .seqOut]

theorem engineOnly_moves (h : EngineOnly s t) (m : Move) (hm : m.Happened s t) : m ∈ engineMoves := by
  have hdre : t.dreIe = s.dreIe := by rw [h.rest]
  cases m with
  | seqIn | seqOut => simp [engineMoves]
  | stop => exact absurd ((h.transmitting hm.1).symm.trans hm.2) Bool.noConfusion
  | flag f b =>
    obtain ⟨hs, ht⟩ := hm
    cases f with
    | requestSelfWait => cases b <;> simp [engineMoves]
    | partnerWaiting => exact absurd (hs.symm.trans (h.partner.symm.trans ht)) (Bool.not_ne_self b)
    | dreIe => exact absurd (hs.symm.trans (hdre.symm.trans ht)) (Bool.not_ne_self b)
    | selfWaiting =>
      cases b with
      | true => exact absurd ((h.self ht).symm.trans hs) Bool.noConfusion
      | false => simp [engineMoves]
    | waitingAck =>
      cases b with
      | true => exact absurd ((h.waitingAck ht).symm.trans hs) Bool.noConfusion
      | false => simp [engineMoves]

theorem effect_of_engineOnly (hl : engineMoves ⊆ l) (h : EngineOnly s t) : Effect l s t := by
  refine ⟨fun m hm => hl (engineOnly_moves h m hm), ?_⟩
  rcases h.sent with ⟨hw, hp, htr⟩ | ⟨b, hw, hb, hp, -⟩
  · exact .inl ⟨hw, by rw [hp], by rw [hp], by rw [htr]; exact id⟩
  · exact .inr ⟨b, hw, hb, by rw [hp], by rw [hp]⟩

/-- The moves each operation can make (R41, R191). -/
def writes : Instr → List Move
  | .wait => [.flag .requestSelfWait true, .seqOut]
  | .resume => [.flag .selfWaiting false, .flag .requestSelfWait false]
  | .ack => [.flag .waitingAck false]
  | .resync => [.seqIn, .seqOut]
  | .tInit => [.stop, .flag .dreIe false]
  | .cfEncodeAndEnqueue => [.seqOut]
  | .cfEncodeAndForce _ _ _ => [.seqOut]
  | .tDriveTx => [.stop]
  | .peFrame => engineMoves
  | .peRxc => .flag .partnerWaiting true :: .flag .waitingAck true :: engineMoves
  | .spin => .flag .partnerWaiting false :: engineMoves
  | .peTxc => [.flag .selfWaiting true, .flag .requestSelfWait false, .flag .dreIe true, .stop]
  | .peDre => [.stop, .flag .dreIe false]
  | _ => []

theorem effect_tInit (hstop : .stop ∈ l) (hdre : .flag .dreIe false ∈ l) (s : State) : Effect l s (tInit s) := by
  have hinit : Effect l s (rbInit .txq (rbInit .rxq s)) := effect_of_watched_eq rfl
  exact (hinit.trans (effect_clearTransmitting hstop _)).trans (effect_setDreIe false hdre _)

theorem effect_hostRan (h : HostRan i s t) : Effect (writes i) s t := by
  cases h with
  | init hi ht =>
    subst hi ht
    exact effect_tInit (by simp [writes]) (by simp [writes]) s
  | read h => exact effect_of_readsOnly h
  | sent h hseq _ =>
    refine (effect_setSeqOut fun hne => ?_).trans (effect_of_sendsOnly h)
    rw [hseq hne]
    exact List.mem_singleton.mpr rfl

theorem effect_setRet (r : OpResult) (h : Effect l s t) : Effect l s (setRet r t) :=
  h.trans (effect_of_watched_eq rfl)

theorem effect_request {r : HostReq} (hcode : encodeRequest i = some r) (h : exec i s = .next t) :
    Effect (writes i) s t := by
  rcases exec_request_next hcode h with rfl | ⟨-, hrun⟩
  · exact effect_of_watched_eq rfl
  · obtain ⟨res, u, rfl, hu⟩ := hostRun_ok hrun
    have hack : Effect (writes i) s (setAck true s) := effect_of_watched_eq rfl
    exact effect_setRet res (hack.trans (effect_hostRan hu))

theorem effect_tDriveTx (hl : .stop ∈ l) (h : tDriveTx s = .ok t) : Effect l s t := by
  rcases tDriveTx_ok h with rfl | h
  · exact effect_clearTransmitting hl s
  · exact effect_of_sendsOnly h

theorem effect_tDriveRx {p : Byte × Bool} (h : tDriveRx s = .ok (p, t)) : Effect l s t := by
  unfold tDriveRx at h
  split at h
  · cases h
    exact effect_of_watched_eq (watched_rbPush .rxq _ _)
  · cases h

theorem effect_peRxc (h : exec .peRxc s = .next t) : Effect (writes .peRxc) s t := by
  have hl : engineMoves ⊆ writes .peRxc := by simp [writes]
  rcases exec_peRxc_next h with rfl | h
  · exact effect_of_watched_eq rfl
  · rcases rxcHandler_ok h with ⟨r, hu⟩ | hu
    · have hstored : Effect (writes .peRxc) s (setRing .rxq r (receiveByte s)) := effect_of_watched_eq rfl
      exact hstored.trans (effect_of_engineOnly hl hu)
    · have hread : Effect (writes .peRxc) s (receiveByte s) := effect_of_watched_eq rfl
      have hheld := (hread.trans (effect_setPartnerWaiting true (by simp [writes]) _)).trans
        (effect_setWaitingAck true (by simp [writes]) _)
      exact hheld.trans (effect_of_engineOnly hl hu)

theorem effect_txcHandler (s : State) : Effect (writes .peTxc) s (txcHandler s) := by
  have harm : ∀ u, Effect (writes .peTxc) u (setDreIe true u) := effect_setDreIe true (by simp [writes])
  unfold txcHandler
  split
  · split
    · have hpause := (effect_setRequestSelfWait (l := writes .peTxc) false (by simp [writes]) s).trans
        (effect_setSelfWaiting true (by simp [writes]) _)
      exact hpause.trans (harm _)
    · exact harm s
  · split
    · split
      · exact effect_clearTransmitting (by simp [writes]) s
      · exact effect_of_watched_eq rfl
    · exact harm s

theorem effect_peTxc (h : exec .peTxc s = .next t) : Effect (writes .peTxc) s t := by
  rcases exec_peTxc_next h with rfl | rfl
  · exact effect_of_watched_eq rfl
  · have hentry : Effect (writes .peTxc) s (handlerEntry .txc s) := effect_of_watched_eq rfl
    exact hentry.trans (effect_txcHandler _)

theorem effect_peDre (h : exec .peDre s = .next t) : Effect (writes .peDre) s t := by
  rcases exec_peDre_next h with rfl | h
  · exact effect_of_watched_eq rfl
  · obtain ⟨u, hu, rfl⟩ := map_ok h
    exact (effect_tDriveTx (by simp [writes]) hu).trans (effect_setDreIe false (by simp [writes]) u)

theorem effect_spin (h : exec .spin s = .next t) : Effect (writes .spin) s t := by
  have hl : engineMoves ⊆ writes .spin := by simp [writes]
  rcases spinStep_ok (finish_next h) with hu | ⟨u, hu, rfl⟩
  · exact effect_of_engineOnly hl hu
  · exact (effect_of_engineOnly hl hu).trans (effect_setPartnerWaiting false (by simp [writes]) u)

end Moves

section Writers

variable {s t : State} {i : Instr}

/-- Each operation makes only its moves and hands off at most one byte. `TX_DONE` is told apart: it ends a byte in flight,
which no operation of the block does. -/
theorem exec_effect (hi : i ≠ .periphTxDone) (h : exec i s = .next t) : Effect (writes i) s t := by
  cases i with
  | wait =>
    obtain ⟨⟨r, u⟩, hu, rfl⟩ := finish_map_next h
    exact effect_setRet _ (effect_handleWait (by simp [writes]) (by simp [writes]) hu)
  | resume =>
    obtain ⟨⟨r, u⟩, hu, rfl⟩ := finish_map_next h
    exact effect_setRet _ (effect_handleResume (by simp [writes]) (by simp [writes]) hu)
  | ack =>
    obtain rfl := Host.Outcome.next.inj h
    exact effect_setRet _ (effect_handleAck (by simp [writes]) s)
  | resync =>
    obtain rfl := Host.Outcome.next.inj h
    exact effect_setRet _ (effect_handleResync (by simp [writes]) (by simp [writes]) s)
  | ackUnsolicited =>
    obtain rfl := Host.Outcome.next.inj h
    have hnamed : Effect [] s (signal .unsolicitedAck (cfSetOpcode .ecf s.cfg.opAck s)) := effect_of_watched_eq rfl
    exact effect_setRet _ (hnamed.trans (effect_handleApp _))
  | escapeChar =>
    obtain rfl := Host.Outcome.next.inj h
    have hnamed : Effect [] s (cfSetOpcode .ecf s.cfg.opEscape s) := effect_of_watched_eq rfl
    exact effect_setRet _ (hnamed.trans (effect_handleApp _))
  | app op =>
    obtain rfl := Host.Outcome.next.inj h
    have hnamed : Effect [] s (cfSetOpcode .ecf op s) := effect_of_watched_eq rfl
    exact effect_setRet _ (hnamed.trans (effect_handleApp _))
  | endMark | rbIsEmpty _ | rbIsFull _ | rbPeekHead _ | rbPeekTail _ | cfFrameBytes _ _ =>
    obtain rfl := Host.Outcome.next.inj h
    exact effect_of_watched_eq rfl
  | tInit | tStatus | tTransmit _ | tReceive | tBulkTransmit _ _ _ | tBeginTransmit => exact effect_request rfl h
  | cfInit | cfSetOpcode _ | cfAppend _ | cfEncodeAndEnqueue | cfDecodeFromReceive _ | hostUnassigned _ =>
    exact effect_request rfl h
  | rbInit q =>
    obtain rfl := Host.Outcome.next.inj h
    exact effect_setRet _ (effect_of_watched_eq (watched_setRing q _ s))
  | rbPush q b =>
    obtain rfl := Host.Outcome.next.inj h
    exact effect_setRet _ (effect_of_watched_eq (watched_rbPush q b s))
  | rbPop q =>
    obtain rfl := Host.Outcome.next.inj h
    exact effect_setRet _ (effect_of_watched_eq (watched_rbPop q s))
  | tKick =>
    obtain ⟨u, hu, rfl⟩ := finish_map_next h
    exact effect_setRet _ (effect_of_sendsOnly (tKick_fields hu))
  | tHandoff b =>
    obtain ⟨u, hu, rfl⟩ := finish_map_next h
    obtain ⟨hb, rfl⟩ := tHandoff_ok hu
    exact effect_setRet _ (effect_of_sendsOnly (sendsOnly_handed hb))
  | tDriveTx =>
    obtain ⟨u, hu, rfl⟩ := finish_map_next h
    exact effect_setRet _ (effect_tDriveTx (by simp [writes]) hu)
  | tDriveRx =>
    obtain ⟨⟨p, u⟩, hu, rfl⟩ := finish_map_next h
    exact effect_setRet _ (effect_tDriveRx hu)
  | cfEncodeAndForce op pl k =>
    obtain ⟨u, hu, rfl⟩ := finish_map_next h
    exact effect_setRet _ (effect_force (by simp [writes]) hu)
  | cfRdOpcode f =>
    obtain rfl := Host.Outcome.next.inj h
    exact effect_setRet _ (effect_of_readsOnly (cfRdOpcode_fields f s))
  | cfRdSeq =>
    obtain rfl := Host.Outcome.next.inj h
    exact effect_setRet _ (effect_of_readsOnly (cfRdSeq_fields .ecf s))
  | cfRdPayload f m =>
    obtain rfl := Host.Outcome.next.inj h
    exact effect_setRet _ (effect_of_readsOnly (cfRdPayload_fields f m s))
  | cfDiscard =>
    obtain rfl := Host.Outcome.next.inj h
    exact effect_setRet _ (effect_cfDiscard s)
  | peFrame =>
    obtain ⟨_, u, rfl, hu⟩ := exec_peFrame_next h
    exact effect_setRet _ (effect_of_engineOnly (List.Subset.refl _) hu)
  | peForce b bs k =>
    obtain ⟨u, hu, rfl⟩ := finish_map_next h
    rw [peForce_ok hu]
    exact effect_of_watched_eq rfl
  | peRxc => exact effect_peRxc h
  | peTxc => exact effect_peTxc h
  | peDre => exact effect_peDre h
  | spin => exact effect_spin h
  | periphTxDone => exact absurd rfl hi
  | periphDeliver b =>
    rcases exec_periphDeliver_cases b s with he | he
    · exact Host.Outcome.next.inj (he.symm.trans h) ▸ effect_of_watched_eq rfl
    · exact Host.Outcome.next.inj (he.symm.trans h) ▸ effect_of_watched_eq rfl

theorem exec_periphTxDone_next (h : exec .periphTxDone s = .next t) : t = periphFinish s ∨ t = s := by
  rcases ite_eq_or_eq (s.periph.txBusy = true) (Host.Outcome.next (periphFinish s)) (.next s) with he | he
  · exact .inl (Host.Outcome.next.inj (he.symm.trans h)).symm
  · exact .inr (Host.Outcome.next.inj (he.symm.trans h)).symm

/-- The moves of `TX_DONE`: none. -/
theorem not_happened_txDone (h : exec .periphTxDone s = .next t) (m : Move) : ¬ m.Happened s t := by
  have hkept : Effect [] s { t with periph := s.periph } := by
    rcases exec_periphTxDone_next h with rfl | rfl <;> exact effect_of_watched_eq rfl
  intro hm
  refine List.not_mem_nil (hkept.moves m ?_)
  cases m with
  | flag f b => cases f <;> exact hm
  | _ => exact hm

theorem exec_moves (h : exec i s = .next t) (m : Move) (hm : m.Happened s t) : m ∈ writes i := by
  by_cases hi : i = .periphTxDone
  · subst hi
    exact absurd hm (not_happened_txDone h m)
  · exact (exec_effect hi h).moves m hm

/-- R139: an operation that answers left the wire and did not set `LS.TRANSMITTING`, or it handed off one byte. -/
theorem exec_handOff (h : exec i s = .next t) :
    (t.wireOut = s.wireOut ∧ (t.ls.transmitting = true → s.ls.transmitting = true)) ∨
      ∃ b, t.wireOut = s.wireOut ++ [b] ∧ s.periph.txBusy = false ∧ t.periph.txBusy = true ∧ t.periph.txData = b := by
  by_cases hi : i = .periphTxDone
  · subst hi
    rcases exec_periphTxDone_next h with rfl | rfl <;> exact .inl ⟨rfl, id⟩
  · exact (exec_effect hi h).handOff.imp_left fun ⟨hw, _, _, htr⟩ => ⟨hw, htr⟩

/-- The tables of R41 and R191 read the other way: the operations that may make a move. -/
def Writer : Move → Instr → Prop
  | .flag .selfWaiting true, i => i = .peTxc
  | .flag .selfWaiting false, i => i ∈ [.resume, .peFrame, .peRxc, .spin]
  | .flag .partnerWaiting true, i => i = .peRxc
  | .flag .partnerWaiting false, i => i = .spin
  | .flag .requestSelfWait true, i => i ∈ [.wait, .peFrame, .peRxc, .spin]
  | .flag .requestSelfWait false, i => i ∈ [.peTxc, .resume, .peFrame, .peRxc, .spin]
  | .flag .waitingAck true, i => i = .peRxc
  | .flag .waitingAck false, i => i ∈ [.ack, .peFrame, .peRxc, .spin]
  | .flag .dreIe true, i => i = .peTxc
  | .flag .dreIe false, i => i ∈ [.peDre, .tInit]
  | .stop, i => i ∈ [.tDriveTx, .peDre, .peTxc, .tInit]
  | .seqIn, i => i ∈ [.resync, .peFrame, .peRxc, .spin]
  | .seqOut, i =>
    i ∈ [.cfEncodeAndEnqueue, .wait, .resync, .peFrame, .peRxc, .spin] ∨ ∃ op pl k, i = .cfEncodeAndForce op pl k

/-- The two readings of the tables agree. -/
theorem writer_of_mem_writes (i : Instr) : ∀ m ∈ writes i, Writer m i := by
  cases i <;> simp [writes, engineMoves, Writer]

theorem exec_writer (h : exec i s = .next t) (m : Move) (hm : m.Happened s t) : Writer m i :=
  writer_of_mem_writes i m (exec_moves h m hm)

end Writers

/-- Settles O50: each clause is one move, or the hand-off. -/
theorem flagsAndCountersHaveTheWritersOfTheTables : Obligations.FlagsAndCountersHaveTheWritersOfTheTables := by
  unfold Obligations.FlagsAndCountersHaveTheWritersOfTheTables
  intro i s t h
  have moved : ∀ f b, f.read s = !b → f.read t = b → Writer (.flag f b) i :=
    fun f b hs ht => exec_writer h (.flag f b) ⟨hs, ht⟩
  refine ⟨moved .selfWaiting true, moved .selfWaiting false, moved .partnerWaiting true, moved .partnerWaiting false,
    moved .requestSelfWait true, moved .requestSelfWait false, moved .waitingAck true, moved .waitingAck false,
    fun hs ht => ?handOff, fun hs ht => exec_writer h .stop ⟨hs, ht⟩, moved .dreIe true, moved .dreIe false,
    exec_writer h .seqIn, exec_writer h .seqOut⟩
  case handOff =>
    rcases exec_handOff h with ⟨-, hkept⟩ | hsent
    · exact absurd ((hkept ht).symm.trans hs) Bool.noConfusion
    · exact hsent

end Sys2Proof.Proofs
end

section
/-! Bytes that leave a node: the wire over a step of any agent (R139), and the link of a two-node system (R74, R271). -/

namespace Sys2Proof.Proofs

open Sys2Proof Sys2Proof.Machine

section Wire

variable {s t : State} {a : Agent} {i : Instr}

/-! ### The wire over one turn (R64, R139, R263) -/

/-- The wire is as it was, or it gained one byte, which a peripheral that was ready now has in flight. -/
def SentAtMostOne (s t : State) : Prop :=
  t.wireOut = s.wireOut ∨
    ∃ b, t.wireOut = s.wireOut ++ [b] ∧ s.periph.txBusy = false ∧ t.periph.txBusy = true ∧ t.periph.txData = b

theorem exec_sentAtMostOne (h : exec i s = .next t) : SentAtMostOne s t := (exec_handOff h).imp_left And.left

/-- HOST's turn: taking the request off the port does not touch the wire, so the operation decides. -/
theorem serveHost_sentAtMostOne (h : serveHost s = .next t) : SentAtMostOne s t := by
  cases hq : s.hostQ with
  | nil =>
    rw [serveHost_nil hq] at h
    exact Host.Outcome.next.inj h ▸ .inl rfl
  | cons r rs =>
    rw [serveHost_cons hq] at h
    split at h
    case isTrue =>
      have hran : SentAtMostOne { s with hostQ := rs } t := exec_sentAtMostOne h
      exact hran
    case isFalse => exact Host.Outcome.next.inj h ▸ .inl rfl

theorem serveDeliver_wireOut (h : serveDeliver s = .next t) : t.wireOut = s.wireOut := by
  obtain ⟨u, hu, hpass⟩ := serveDeliver_passes s
  obtain rfl := Host.Outcome.next.inj (hu.symm.trans h)
  rw [hpass.rest]

/-- A reset is the one turn that empties the wire. -/
theorem runAgent_sentAtMostOne (hreset : a ≠ .reset) (h : runAgent a s = .next t) : SentAtMostOne s t := by
  cases a with
  | host => exact serveHost_sentAtMostOne h
  | rxc => exact exec_sentAtMostOne (i := .peRxc) h
  | txc => exact exec_sentAtMostOne (i := .peTxc) h
  | dre => exact exec_sentAtMostOne (i := .peDre) h
  | spin => exact exec_sentAtMostOne (i := .spin) h
  | txDone => exact exec_sentAtMostOne (i := .periphTxDone) h
  | deliver => exact .inl (serveDeliver_wireOut h)
  | peer b => exact Host.Outcome.next.inj h ▸ .inl rfl
  | reset => exact absurd rfl hreset

end Wire

/-- Settles O53: the turn is taken off the schedule, which leaves the wire; then the agents one by one. -/
theorem eachStepSendsAtMostOneByte : Obligations.EachStepSendsAtMostOneByte := by
  unfold Obligations.EachStepSendsAtMostOneByte
  intro s t hstep hreset
  cases hs : s.sched with
  | nil =>
    rw [step_of_sched_nil hs] at hstep
    exact Host.Outcome.next.inj hstep ▸ .inl rfl
  | cons a rest =>
    rw [step_of_sched_cons hs] at hstep
    have ha : a ≠ .reset := fun h => hreset (by rw [hs, h, List.head?_cons])
    have hturn : SentAtMostOne { s with sched := rest } t := runAgent_sentAtMostOne ha hstep
    exact hturn

/-! ### The link (R74, R270, R271) -/

theorem linkGiven_eq (sender receiver : State) :
    linkGiven sender receiver = { receiver with linkIn := receiver.linkIn ++ sender.linkOut.take 1 } := by
  cases h : sender.linkOut with
  | nil => rw [linkGiven, h, List.take_nil, List.append_nil]
  | cons x l => rw [linkGiven, h]; rfl

/-- What the link takes from the sender is what it gives to the receiver. -/
theorem link_carries (sender receiver : State) :
    ∃ out inn, linkTaken sender = { sender with linkOut := out }
      ∧ linkGiven sender receiver = { receiver with linkIn := inn }
      ∧ inn ++ out = receiver.linkIn ++ sender.linkOut ∧ out.length = sender.linkOut.length - 1 := by
  refine ⟨sender.linkOut.drop 1, receiver.linkIn ++ sender.linkOut.take 1, rfl, linkGiven_eq sender receiver, ?_,
    List.length_drop⟩
  rw [List.append_assoc, List.take_append_drop]

theorem pairStep_carry_a (p : Pair) :
    pairStep (.carry .a) p = .next { a := linkTaken p.a, b := linkGiven p.a p.b } := rfl

theorem pairStep_carry_b (p : Pair) :
    pairStep (.carry .b) p = .next { a := linkGiven p.b p.a, b := linkTaken p.b } := rfl

/-- Settles O54: either direction is one carry from a sender to a receiver. -/
theorem linkCarriesBytesInOrder : Obligations.LinkCarriesBytesInOrder := by
  unfold Obligations.LinkCarriesBytesInOrder
  intro p
  constructor
  · obtain ⟨out, inn, htaken, hgiven, horder, hlen⟩ := link_carries p.a p.b
    exact ⟨out, inn, by rw [pairStep_carry_a, htaken, hgiven], horder, hlen⟩
  · obtain ⟨out, inn, htaken, hgiven, horder, hlen⟩ := link_carries p.b p.a
    exact ⟨inn, out, by rw [pairStep_carry_b, htaken, hgiven], horder, hlen⟩

end Sys2Proof.Proofs
end

section
/-! The opcode map and the select codes, read in both directions: the code of an operation decodes to it, and what a code
decodes to is well formed and has that code. -/

namespace Sys2Proof.Proofs

open Sys2Proof

section Codes

variable {c : Config} {w : Bool} {i : Instr} {op : Byte} {r : HostReq} {code : Code}

/-! ### The opcode map (R85, R92, R178) -/

/-- R15, one row for each reserved opcode: it differs from the ones that `classify` compares with before it. -/
theorem reserved_distinct (h : c.wf) :
    c.opWait ≠ c.opEnd
      ∧ (c.opResume ≠ c.opEnd ∧ c.opResume ≠ c.opWait)
      ∧ (c.opAck ≠ c.opEnd ∧ c.opAck ≠ c.opWait ∧ c.opAck ≠ c.opResume)
      ∧ (c.opResync ≠ c.opEnd ∧ c.opResync ≠ c.opWait ∧ c.opResync ≠ c.opResume ∧ c.opResync ≠ c.opAck)
      ∧ (c.opEscape ≠ c.opEnd ∧ c.opEscape ≠ c.opWait ∧ c.opEscape ≠ c.opResume ∧ c.opEscape ≠ c.opAck
        ∧ c.opEscape ≠ c.opResync) := by
  obtain ⟨-, -, -, hnodup⟩ := h
  simp only [Config.reserved, List.nodup_cons, List.mem_cons, not_or] at hnodup
  simp [hnodup, Ne.symm]

theorem classify_opEnd : classify c w c.opEnd = .endMark := if_pos rfl

theorem classify_opWait (h : c.wf) : classify c w c.opWait = .wait := by
  obtain ⟨hwait, -⟩ := reserved_distinct h
  simp [classify, hwait]

theorem classify_opResume (h : c.wf) : classify c w c.opResume = .resume := by
  obtain ⟨-, hresume, -⟩ := reserved_distinct h
  simp [classify, hresume]

theorem classify_opAck (h : c.wf) : classify c w c.opAck = if w then .ack else .ackUnsolicited := by
  obtain ⟨-, -, hack, -⟩ := reserved_distinct h
  simp [classify, hack]

theorem classify_opResync (h : c.wf) : classify c w c.opResync = .resync := by
  obtain ⟨-, -, -, hresync, -⟩ := reserved_distinct h
  simp [classify, hresync]

theorem classify_opEscape (h : c.wf) : classify c w c.opEscape = .escapeChar := by
  obtain ⟨-, -, -, -, hescape⟩ := reserved_distinct h
  simp [classify, hescape]

theorem classify_app (h : op ∉ c.reserved) : classify c w op = .app op := by
  simp only [Config.reserved, List.mem_cons, not_or] at h
  simp [classify, h]

/-- R85, R178: the row of an opcode is read back from it; the flag tells the two rows of `OP_ACK` apart. -/
theorem decodeOpcode_encodeOpcode (hc : c.wf) (hi : wellFormed c i = true) (hcode : encodeOpcode c i = some op)
    (hack : i = .ack → w = true) (hun : i = .ackUnsolicited → w = false) : decodeOpcode c w op = i := by
  cases i with
  | wait => obtain rfl := Option.some.inj hcode; exact congrArg _ (classify_opWait hc)
  | resume => obtain rfl := Option.some.inj hcode; exact congrArg _ (classify_opResume hc)
  | ack =>
    obtain rfl := Option.some.inj hcode
    obtain rfl := hack rfl
    exact congrArg _ (classify_opAck hc)
  | ackUnsolicited =>
    obtain rfl := Option.some.inj hcode
    obtain rfl := hun rfl
    exact congrArg _ (classify_opAck hc)
  | resync => obtain rfl := Option.some.inj hcode; exact congrArg _ (classify_opResync hc)
  | escapeChar => obtain rfl := Option.some.inj hcode; exact congrArg _ (classify_opEscape hc)
  | endMark => obtain rfl := Option.some.inj hcode; exact congrArg _ classify_opEnd
  | app op =>
    obtain rfl := Option.some.inj hcode
    have hop : op ∉ c.reserved := by simpa [wellFormed] using hi
    exact congrArg _ (classify_app hop)
  | _ => cases hcode

/-- R93: every opcode is the code of its row, the application opcodes being the ones that are not reserved. -/
theorem decodeOpcode_spec (c : Config) (w : Bool) (op : Byte) :
    wellFormed c (decodeOpcode c w op) = true ∧ encodeOpcode c (decodeOpcode c w op) = some op := by
  unfold decodeOpcode classify
  split_ifs with hend hwait hresume hack _ hresync hescape
  · exact ⟨rfl, congrArg some hend.symm⟩
  · exact ⟨rfl, congrArg some hwait.symm⟩
  · exact ⟨rfl, congrArg some hresume.symm⟩
  · exact ⟨rfl, congrArg some hack.symm⟩
  · exact ⟨rfl, congrArg some hack.symm⟩
  · exact ⟨rfl, congrArg some hresync.symm⟩
  · exact ⟨rfl, congrArg some hescape.symm⟩
  · have hop : op ∉ c.reserved := by simp [Config.reserved, *]
    exact ⟨by simpa [wellFormed, FrameKind.toInstr] using hop, rfl⟩

/-! ### The command port (R100) -/

theorem contains_assignedSelects (sel : BitVec 5) :
    assignedSelects.contains sel = decide (sel.toNat ∈ [0x00, 0x01, 0x02, 0x03, 0x04, 0x05, 0x08, 0x09, 0x0A, 0x0B, 0x0C]) := by
  revert sel; decide

theorem decodeRequest_unassigned (h : assignedSelects.contains r.sel = false) :
    decodeRequest r = .hostUnassigned r.sel := by
  simp only [contains_assignedSelects, decide_eq_false_iff_not, List.mem_cons, not_or] at h
  unfold decodeRequest
  split
  case h_12 => rfl
  all_goals simp_all

/-- R100: a host operation and its operands are read back from its request. -/
theorem decodeRequest_encodeRequest (hi : wellFormed c i = true) (hcode : encodeRequest i = some r) :
    decodeRequest r = i := by
  cases i with
  | tInit | tStatus | tTransmit _ | tReceive | tBulkTransmit _ _ _ | tBeginTransmit =>
    obtain rfl := Option.some.inj hcode; rfl
  | cfInit | cfSetOpcode _ | cfAppend _ | cfEncodeAndEnqueue | cfDecodeFromReceive _ =>
    obtain rfl := Option.some.inj hcode; rfl
  | hostUnassigned sel =>
    obtain rfl := Option.some.inj hcode
    exact decodeRequest_unassigned (by simpa [wellFormed, HostReq.plain] using hi)
  | _ => cases hcode

/-- R100: what a request decodes to is well formed and has the select code of the request. -/
theorem decodeRequest_spec (c : Config) (r : HostReq) :
    wellFormed c (decodeRequest r) = true ∧ ∃ r', encodeRequest (decodeRequest r) = some r' ∧ r'.sel = r.sel := by
  have hsel {n : Nat} (hr : r.sel.toNat = n) : BitVec.ofNat 5 n = r.sel := by
    rw [← hr, BitVec.ofNat_toNat, BitVec.setWidth_eq]
  by_cases h : assignedSelects.contains r.sel = true
  case neg =>
    rw [Bool.not_eq_true] at h
    rw [decodeRequest_unassigned h]
    exact ⟨by rw [wellFormed, h]; rfl, .plain r.sel, rfl, rfl⟩
  case pos =>
    simp only [contains_assignedSelects, decide_eq_true_eq, List.mem_cons, List.not_mem_nil, or_false] at h
    unfold decodeRequest
    split
    case h_12 => simp_all -- the default branch, which no assigned select reaches
    all_goals exact ⟨rfl, _, rfl, hsel ‹_›⟩

/-! ### Both code spaces (R80, R100, R101) -/

theorem encode_of_encodeOpcode (h : encodeOpcode c i = some op) : encode c i = some (.opcode op) := by
  rw [encode, h]

/-- No host operation is a row of the opcode map. -/
theorem encode_of_encodeRequest (h : encodeRequest i = some r) : encode c i = some (.request r) := by
  cases i with
  | wait | resume | ack | ackUnsolicited | resync | escapeChar | endMark | app _ => cases h
  | _ => exact congrArg (Option.map Code.request) h

/-- The code of an operation is its opcode or its request. -/
theorem encode_eq_some (h : encode c i = some code) :
    (∃ op, code = .opcode op ∧ encodeOpcode c i = some op) ∨ (∃ r, code = .request r ∧ encodeRequest i = some r) := by
  cases hop : encodeOpcode c i with
  | some op =>
    rw [encode_of_encodeOpcode hop] at h
    exact .inl ⟨op, (Option.some.inj h).symm, rfl⟩
  | none =>
    rw [encode, hop] at h
    obtain ⟨r, hr, rfl⟩ := Option.map_eq_some_iff.1 h
    exact .inr ⟨r, rfl, hr⟩

end Codes

/-- Settles O1: the code is an opcode or a request, and either decoder reads back what its encoder wrote. -/
theorem decodingAnEncodingGivesItBack : Obligations.DecodingAnEncodingGivesItBack := by
  unfold Obligations.DecodingAnEncodingGivesItBack
  intro c w i code hc hi hcode hack hun
  rcases encode_eq_some hcode with ⟨op, rfl, hop⟩ | ⟨r, rfl, hr⟩
  · exact decodeOpcode_encodeOpcode hc hi hop hack hun
  · exact decodeRequest_encodeRequest hi hr

/-- Settles O2: opcode by opcode of the map and select by select of the port. -/
theorem everyCodeHasOneWellFormedMeaning : Obligations.EveryCodeHasOneWellFormedMeaning := by
  unfold Obligations.EveryCodeHasOneWellFormedMeaning
  intro c w _
  refine ⟨fun code => ?wellFormed, fun op => ?opcode, fun r => ?request⟩
  case wellFormed =>
    cases code with
    | opcode op => exact (decodeOpcode_spec c w op).1
    | request r => exact (decodeRequest_spec c r).1
  case opcode => exact encode_of_encodeOpcode (decodeOpcode_spec c w op).2
  case request =>
    obtain ⟨-, r', hr', hsel⟩ := decodeRequest_spec c r
    exact ⟨r', encode_of_encodeRequest hr', hsel⟩

end Sys2Proof.Proofs
end

section
/-! Frames that reach the message handler, frames that are dropped before the dispatch, and two answers of the command
port. -/

namespace Sys2Proof.Proofs

open Sys2Proof Sys2Proof.Machine

section Handler

variable {s u : State} {l : List Byte} {op : Byte}

/-! ### The message handler (R183, R184) -/

/-- R83, R159, R183, R184: the application handler takes the payload into `ECF`, gives the frame to the message handler
and consumes it. -/
theorem handleApp_spec (ho : RingOk s.cfg.N s.rxq) :
    ∃ t, handleApp s = (.completed, t) ∧ FrameConsumed s t ∧ PayloadTaken .ecf s.cfg.L s t
      ∧ t = { s with
          rxq := t.rxq
          ecf := t.ecf
          handlerOut := s.handlerOut ++ [(s.ecf.opcode, payloadIn s.cfg.L s)]
          conds := s.conds ++ List.replicate (excessIn s.cfg.L s) .payloadTruncated } := by
  obtain ⟨r, g, hread, -, hstore, hcont, hpayload, hlen, hopcode, hslots, -⟩ := cfRdPayload_spec .ecf s.cfg.L ho
  refine ⟨emitHandler (cfRdPayload .ecf s.cfg.L s), rfl, ?_⟩
  rw [hread]
  refine ⟨⟨hcont, hstore⟩, ⟨hpayload, hlen, hopcode, fun i hi => hslots i (hlen.trans_le hi)⟩, ?_⟩
  have hvalue : frameValue .ecf (setFrame .ecf g s) = (s.ecf.opcode, payloadIn s.cfg.L s) :=
    Prod.ext hopcode hpayload
  rw [← hvalue]
  rfl

/-- The state in which a row of R183 enters the application handler: `ECF.opcode` is set (log entry 19) and what the row
names is signalled. -/
def rowEntry (op : Byte) (named : List Condition) (s : State) : State := logged named (cfSetOpcode .ecf op s)

theorem logged_nil (s : State) : logged [] s = s := by simp [logged]

theorem exec_app (op : Byte) (s : State) : exec (.app op) s = .next (noteFrame (handleApp (rowEntry op [] s))) := by
  rw [rowEntry, logged_nil]; rfl

theorem exec_escapeChar (s : State) :
    exec .escapeChar s = .next (noteFrame (handleApp (rowEntry s.cfg.opEscape [] s))) := by
  rw [rowEntry, logged_nil]; rfl

theorem exec_ackUnsolicited (s : State) :
    exec .ackUnsolicited s = .next (noteFrame (handleApp (rowEntry s.cfg.opAck [.unsolicitedAck] s))) := rfl

/-- R183: what a row that enters the application handler does. -/
theorem handleApp_rowEntry (op : Byte) (named : List Condition) (ho : RingOk s.cfg.N s.rxq) :
    ∃ t, noteFrame (handleApp (rowEntry op named s)) = t ∧ FrameConsumed s t
      ∧ PayloadTaken .ecf s.cfg.L { s with ecf := { s.ecf with opcode := op } } t
      ∧ t = { s with
          rxq := t.rxq
          ecf := t.ecf
          handlerOut := s.handlerOut ++ [(op, payloadIn s.cfg.L s)]
          conds := s.conds ++ named ++ List.replicate (excessIn s.cfg.L s) .payloadTruncated
          ret := .frame .completed } := by
  obtain ⟨t, happ, hconsumed, htaken, hrest⟩ := handleApp_spec (s := rowEntry op named s) ho
  refine ⟨setRet (.frame .completed) t, by rw [happ]; rfl, hconsumed, htaken, ?_⟩
  exact congrArg (setRet (.frame .completed)) hrest

/-! ### Frames that `PE.FRAME` drops (R91, R175, R176) -/

theorem peFrame_noOpcode (h : cfRdOpcode .ecf s = (.absent, u)) : peFrame s = .ok u := by
  simp only [peFrame, h]

theorem peFrame_noStamp (h : cfRdOpcode .ecf s = (.ok, u)) (hn : s.cfg.numbering = true) (hu : cont .rxq u = []) :
    peFrame s = .ok u := by
  simp only [peFrame, h, hn, cfRdSeq_nil hu, if_true]

theorem exec_peFrame_ok (h : peFrame s = .ok u) : exec .peFrame s = .next (setRet .none u) := by
  have hexec : exec .peFrame s = finish ((peFrame s).map (setRet .none)) := rfl
  rw [hexec, h]; rfl

end Handler

/-- Settles O35: the three rows enter the same handler, each with its opcode and the conditions it names. -/
theorem applicationRowsReachTheHandler : Obligations.ApplicationRowsReachTheHandler := by
  unfold Obligations.ApplicationRowsReachTheHandler
  intro i op named s ho hrow
  obtain ⟨t, ht, hspec⟩ := handleApp_rowEntry op named ho
  refine ⟨t, ?_, hspec⟩
  rw [← ht]
  rcases hrow with ⟨rfl, rfl⟩ | ⟨rfl, rfl, rfl⟩ | ⟨rfl, rfl, rfl⟩
  · exact exec_app op s
  · exact exec_escapeChar s
  · exact exec_ackUnsolicited s

/-- Settles O36: `PE.FRAME` ends at the read of the opcode, or at the read of the stamp. -/
theorem frameWithoutOpcodeOrStampIsDropped : Obligations.FrameWithoutOpcodeOrStampIsDropped := by
  unfold Obligations.FrameWithoutOpcodeOrStampIsDropped
  intro s ho
  refine ⟨rfl, fun hnil => ?nothingBuffered, fun l hcont => ?emptyFrame, fun op hcont hop hn => ?noStamp⟩
  case nothingBuffered => exact exec_peFrame_ok (peFrame_noOpcode (cfRdOpcode_nil hnil))
  case emptyFrame =>
    have hread := (cfRdOpcode_cons (f := .ecf) ho hcont).trans (if_pos rfl)
    exact ⟨_, exec_peFrame_ok (peFrame_noOpcode hread), contents_popped_of_cont ho hcont, rfl⟩
  case noStamp =>
    have hread := (cfRdOpcode_cons (f := .ecf) ho hcont).trans (if_neg hop)
    have hempty := contents_popped_of_cont ho hcont
    exact ⟨_, exec_peFrame_ok (peFrame_noStamp hread hn hempty), hempty, rfl⟩

/-! ### Two answers of the command port (R95, R100, R132, R135) -/

theorem getLsbD_flagBit (b : Bool) (mask : Byte) (i : Nat) : (flagBit b mask).getLsbD i = (b && mask.getLsbD i) := by
  cases b <;> simp [flagBit]

/-- R95: each bit of `STATUS` is the one flag whose mask has it. -/
theorem getLsbD_statusByte (s : State) (i : Nat) :
    (statusByte s).getLsbD i
      = (s.periph.txBusy && (0x01 : Byte).getLsbD i || !s.periph.rxFull && (0x02 : Byte).getLsbD i
        || s.txq.count == 0 && (0x04 : Byte).getLsbD i || s.txq.count == s.cfg.N && (0x08 : Byte).getLsbD i
        || s.rxq.count == 0 && (0x10 : Byte).getLsbD i || s.rxq.count == s.cfg.N && (0x20 : Byte).getLsbD i) := by
  simp only [statusByte, BitVec.getLsbD_or, getLsbD_flagBit, isTransmitReady, Bool.not_not, isReceiveReady, rbIsEmpty,
    rbIsFull, ring_txq, ring_rxq]

theorem exec_tStatus_idle {s : State} (h : s.ctx = .idle) :
    exec .tStatus s = .next { s with opAck := true, ret := .flags (statusByte s) } :=
  if_pos h

/-- Settles O15: bit by bit, every mask but one is zero there. -/
theorem statusReportsTheSixFlags : Obligations.StatusReportsTheSixFlags := by
  unfold Obligations.StatusReportsTheSixFlags
  intro s hctx
  refine ⟨statusByte s, exec_tStatus_idle hctx, ?_⟩
  simp only [getLsbD_statusByte]
  simp

theorem bulkInRange_eq_false {bytes : List Byte} {start length : Nat} (h : bytes.length < start + length) :
    bulkInRange bytes start length = false :=
  decide_eq_false (Nat.not_le.2 h)

/-- Settles O19: both are refused, which only withholds `op_ack`. -/
theorem refusedRequestsChangeNothing : Obligations.RefusedRequestsChangeNothing := by
  unfold Obligations.RefusedRequestsChangeNothing
  intro s
  refine ⟨fun sel => rfl, fun bytes start length hrange => ?bulk⟩
  case bulk =>
    have hexec : exec (.tBulkTransmit bytes start length) s = execTBulkTransmit bytes start length s := rfl
    rw [hexec, execTBulkTransmit, bulkInRange_eq_false hrange]
    rfl

end Sys2Proof.Proofs
end

section
/-! The ring-buffer operations on the contents of a buffer in order, the queue law over any calls of push and pop, and
the bulk transmit that queues what fits. -/

namespace Sys2Proof.Proofs

open Sys2Proof Sys2Proof.Machine

section Queue

variable {q : QueueId} {s t : State} {b x : Byte} {l : List Byte}

/-! ### One operation (R111 to R116) -/

theorem exec_rbPush (q : QueueId) (b : Byte) (s : State) :
    exec (.rbPush q b) s = .next (setRet (.bit (rbPush q b s).1) (rbPush q b s).2) := rfl

theorem exec_rbPop (q : QueueId) (s : State) :
    exec (.rbPop q) s = .next (setRet (.byte (rbPop q s).valid (rbPop q s).byte) (rbPop q s).state) := rfl

theorem exec_rbPeekHead (q : QueueId) (s : State) :
    exec (.rbPeekHead q) s = .next (setRet (.byte (rbPeekHead q s).1 (rbPeekHead q s).2) s) := rfl

theorem exec_rbPeekTail (q : QueueId) (s : State) :
    exec (.rbPeekTail q) s = .next (setRet (.byte (rbPeekTail q s).1 (rbPeekTail q s).2) s) := rfl

theorem exec_rbPush_room (hroom : (ring q s).count < s.cfg.N) :
    exec (.rbPush q b) s = .next (setRet (.bit true) (setRing q ((ring q s).pushed s.cfg.N b) s)) := by
  rw [exec_rbPush, rbPush_room hroom]

theorem exec_rbPush_full (hfull : (ring q s).count = s.cfg.N) :
    exec (.rbPush q b) s = .next (setRet (.bit false) s) := by
  rw [exec_rbPush, rbPush_full hfull]

theorem exec_rbPop_cons (ho : RingOk s.cfg.N (ring q s)) (h : cont q s = x :: l) :
    exec (.rbPop q) s = .next (setRet (.byte true x) (setRing q ((ring q s).popped s.cfg.N) s)) := by
  obtain ⟨hpop, -, -⟩ := rbPop_cons ho h
  rw [exec_rbPop, hpop]

theorem exec_rbPop_empty (h : cont q s = []) :
    exec (.rbPop q) s = .next (setRet (.byte false 0x00) (signal (.popEmpty q) s)) := by
  rw [exec_rbPop, rbPop_empty h]

theorem rbIsFull_eq : rbIsFull q s = ((cont q s).length == s.cfg.N) := by
  rw [rbIsFull, cont_length]

theorem rbPeekHead_eq (ho : RingOk s.cfg.N (ring q s)) :
    rbPeekHead q s = (!(cont q s).isEmpty, (cont q s).headD 0x00) := by
  cases h : cont q s with
  | nil => exact rbPeekHead_nil h
  | cons x l => exact rbPeekHead_cons ho h

/-- R116: the slot before `tail` holds the newest byte. -/
theorem rbPeekTail_eq (ho : RingOk s.cfg.N (ring q s)) :
    rbPeekTail q s = (!(cont q s).isEmpty, (cont q s).getLastD 0x00) := by
  rw [rbPeekTail, rbIsEmpty_eq]
  cases h : cont q s with
  | nil => rfl
  | cons x l =>
    have hlast : (cont q s).getLast? = _ := contents_last (id := queueStore q) ho (count_ne_zero h)
    rw [← h, List.getLastD_eq_getLast?, hlast, h]
    rfl

/-! ### Any sequence of calls (R119, R121) -/

/-- The queue law of one call: what came out and then what is left is what was held and then what went in. -/
theorem exec_call (c : RingCall) (ho : RingOk s.cfg.N (ring q s)) :
    ∃ t, exec (callInstr q c) s = .next t ∧ bytesOut c t.ret ++ cont q t = cont q s ++ bytesIn c t.ret
      ∧ RingOk t.cfg.N (ring q t) := by
  cases c with
  | push b =>
    have ⟨_, _, _, _, hcount, _⟩ := ho
    rcases Nat.lt_or_eq_of_le hcount with hroom | hfull
    · refine ⟨_, exec_rbPush_room hroom, ?_, ?_⟩
      · exact cont_setRing.trans (contents_pushed ho hroom)
      · simpa using ho.pushed hroom
    · exact ⟨_, exec_rbPush_full hfull, (List.append_nil _).symm, ho⟩
  | pop =>
    cases h : cont q s with
    | nil => exact ⟨_, exec_rbPop_empty h, h, ho⟩
    | cons x l =>
      obtain ⟨-, hrest, hring⟩ := rbPop_cons ho h
      refine ⟨_, exec_rbPop_cons ho h, ?_, ?_⟩
      · exact (congrArg (x :: ·) hrest).trans (List.append_nil _).symm
      · simpa using hring

theorem ringHistory_cons {c : RingCall} {calls : List RingCall} {h : RingHistory}
    (hcall : exec (callInstr q c) s = .next t) (hcalls : ringHistory q calls t = some h) :
    ringHistory q (c :: calls) s
      = some { h with pushed := bytesIn c t.ret ++ h.pushed, popped := bytesOut c t.ret ++ h.popped } := by
  rw [ringHistory, hcall]
  exact congrArg (Option.map _) hcalls

/-- The queue law of a sequence of calls. -/
theorem ringHistory_fifo (calls : List RingCall) (s : State) (ho : RingOk s.cfg.N (ring q s)) :
    ∃ h, ringHistory q calls s = some h ∧ h.popped ++ cont q h.state = cont q s ++ h.pushed
      ∧ RingOk h.state.cfg.N (ring q h.state) := by
  induction calls generalizing s with
  | nil => exact ⟨_, rfl, (List.append_nil _).symm, ho⟩
  | cons c calls ih =>
    obtain ⟨t, hcall, hone, hot⟩ := exec_call c ho
    obtain ⟨h, hcalls, hfifo, hoh⟩ := ih t hot
    refine ⟨_, ringHistory_cons hcall hcalls, ?_, hoh⟩
    calc (bytesOut c t.ret ++ h.popped) ++ cont q h.state
        = bytesOut c t.ret ++ (cont q t ++ h.pushed) := by rw [List.append_assoc, hfifo]
      _ = cont q s ++ (bytesIn c t.ret ++ h.pushed) := by rw [← List.append_assoc, hone, List.append_assoc]

/-- The count law is the queue law in lengths. -/
theorem count_law {popped pushed : List Byte} (h : popped ++ cont q t = cont q s ++ pushed) :
    (ring q t).count + popped.length = (ring q s).count + pushed.length := by
  have hlen := congrArg List.length h
  rwa [List.length_append, List.length_append, cont_length, cont_length, Nat.add_comm] at hlen

end Queue

/-- Settles O11: the calls one after another; the count law is read off the queue law. -/
theorem queueIsFirstInFirstOut : Obligations.QueueIsFirstInFirstOut := by
  unfold Obligations.QueueIsFirstInFirstOut
  intro q calls s ho
  obtain ⟨h, hrun, hfifo, hoh⟩ := ringHistory_fifo calls s ho
  exact ⟨h, hrun, hfifo, count_law hfifo, hoh⟩

/-- Settles O6: the store is kept as it is. -/
theorem ringInitEmptiesTheBuffer : Obligations.RingInitEmptiesTheBuffer := by
  unfold Obligations.RingInitEmptiesTheBuffer
  intro q s
  rfl

/-- Settles O7: with room the buffer is the pushed one, whose only write is at `tail`. -/
theorem pushAppendsOrChangesNothing : Obligations.PushAppendsOrChangesNothing := by
  unfold Obligations.PushAppendsOrChangesNothing
  intro q b s ho
  refine ⟨fun hroom => ?room, exec_rbPush_full⟩
  case room =>
    exact ⟨_, exec_rbPush_room hroom, contents_pushed ho hroom, rfl, rfl, rfl, fun i => storeRead_write _ _ i b⟩

/-- Settles O8: a buffer that holds a byte becomes the popped one, which keeps its store. -/
theorem popTakesTheOldestByte : Obligations.PopTakesTheOldestByte := by
  unfold Obligations.PopTakesTheOldestByte
  intro q s ho
  refine ⟨fun x l h => ?held, exec_rbPop_empty⟩
  case held =>
    obtain ⟨-, hrest, -⟩ := rbPop_cons ho h
    exact ⟨_, exec_rbPop_cons ho h, cont_setRing.symm.trans hrest, rfl, rfl,
      Nat.sub_one_add_one (count_ne_zero h), rfl⟩

/-- Settles O9: each test and each peek as the contents have it. -/
theorem ringTestsAndPeeksReadOnly : Obligations.RingTestsAndPeeksReadOnly := by
  unfold Obligations.RingTestsAndPeeksReadOnly
  intro q s ho
  refine ⟨?isEmpty, ?isFull, ?peekHead, ?peekTail⟩
  case isEmpty =>
    rw [← rbIsEmpty_eq]
    rfl
  case isFull =>
    rw [← rbIsFull_eq]
    rfl
  case peekHead =>
    rw [exec_rbPeekHead, rbPeekHead_eq ho]
    rfl
  case peekTail =>
    rw [exec_rbPeekTail, rbPeekTail_eq ho]
    rfl

/-- R50, R135: a bulk transmit whose range lies inside its list is acknowledged and answers the count it queued. -/
theorem exec_tBulkTransmit_idle {s : State} {bytes : List Byte} {start length : Nat} (hctx : s.ctx = .idle)
    (hrange : start + length ≤ bytes.length) :
    exec (.tBulkTransmit bytes start length) s
      = finish ((tBulkTransmit bytes start length (setAck true s)).map noteCount) :=
  (if_pos (decide_eq_true hrange)).trans (hostOp_idle hctx)

/-- Settles O18: the acknowledged state has the queue and the wire of the first one, so the law of the bulk transmit
there is the statement. -/
theorem bulkTransmitQueuesWhatFits : Obligations.BulkTransmitQueuesWhatFits := by
  unfold Obligations.BulkTransmitQueuesWhatFits
  intro bytes start length s ho hready hctx hrange k
  obtain ⟨t, hrun, hkick, hslots, -, -, hrest⟩ :=
    tBulkTransmit_spec (s := setAck true s) bytes start length ho hready hrange
  refine ⟨noteCount (k, t), ?_, hkick, hslots, ?_⟩
  · rw [exec_tBulkTransmit_idle hctx hrange, hrun]
    rfl
  · exact congrArg (setRet (.count k)) hrest

end Sys2Proof.Proofs
end

section
/-! R140 over a step of any agent: what each agent does to "not transmitting implies not busy", on every state; and that
from a state in order, where R140 holds, every agent answers. -/

namespace Sys2Proof.Proofs

open Sys2Proof Sys2Proof.Machine

section Ready

variable {s t : State} {a : Agent} {i : Instr} {r : HostReq}

/-! ### Going over from one state to the next (R140) -/

theorem idleReady_of_eq (htr : t.ls.transmitting = s.ls.transmitting) (hb : t.periph.txBusy = s.periph.txBusy)
    (h : IdleReady s) : IdleReady t :=
  fun ht => hb.trans (h (htr.symm.trans ht))

theorem idleReady_of_ready (hb : t.periph.txBusy = false) : IdleReady t := fun _ => hb

theorem idleReady_of_transmitting (htr : t.ls.transmitting = true) : IdleReady t :=
  fun ht => absurd (htr.symm.trans ht) Bool.noConfusion

theorem idleReady_of_sent (hsent : Sent s t) (h : IdleReady s) : IdleReady t := by
  rcases hsent with ⟨-, hls, hp⟩ | ⟨_, -, -, hls, -⟩
  · exact idleReady_of_eq (by rw [hls]) (by rw [hp]) h
  · exact idleReady_of_transmitting (by rw [hls])

theorem idleReady_of_readsOnly {f : FrameId} (hread : ReadsOnly f s t) (h : IdleReady s) : IdleReady t := by
  have hls : t.ls = s.ls := by rw [hread]; exact setFrame_ls s f _
  have hp : t.periph = s.periph := by rw [hread]; exact setFrame_periph s f _
  exact idleReady_of_eq (by rw [hls]) (by rw [hp]) h

theorem idleReady_of_engineOnly (hengine : EngineOnly s t) (h : IdleReady s) : IdleReady t := by
  rcases hengine.sent with ⟨-, hp, htr⟩ | ⟨_, -, -, -, htr⟩
  · exact idleReady_of_eq htr (by rw [hp]) h
  · exact idleReady_of_transmitting htr

/-! ### The host's operations (R131, R293) -/

/-- If `T.INIT` is the request that HOST's turn would run, no byte is in flight (R293, U16). -/
def InitFindsReady (s : State) : Prop :=
  ∀ r, s.hostQ.head? = some r → s.ctx = .idle → decodeRequest r = .tInit → s.periph.txBusy = false

theorem initFindsReady_of_not_initInFlight {rest : List Agent} (h : ¬ InitInFlight s) (hs : s.sched = .host :: rest) :
    InitFindsReady s := by
  intro r hr hctx hdecode
  by_contra hbusy
  exact h ⟨Bool.eq_true_of_not_eq_false hbusy, hctx, by rw [hs]; rfl, r, hr, hdecode⟩

theorem idleReady_of_hostRan (hinit : i = .tInit → s.periph.txBusy = false) (hran : HostRan i s t) (h : IdleReady s) :
    IdleReady t := by
  cases hran with
  | init hi ht =>
    subst ht
    exact idleReady_of_ready (hinit hi)
  | read hread => exact idleReady_of_readsOnly hread h
  | sent hsends _ _ =>
    have hsent : Sent s t := hsends.2
    exact idleReady_of_sent hsent h

theorem idleReady_of_exec_request (hcode : encodeRequest i = some r)
    (hinit : s.ctx = .idle → i = .tInit → s.periph.txBusy = false) (ht : exec i s = .next t) (h : IdleReady s) :
    IdleReady t := by
  rcases exec_request_next hcode ht with rfl | ⟨hctx, hrun⟩
  · exact h
  · obtain ⟨_, u, rfl, hran⟩ := hostRun_ok hrun
    have hu : IdleReady u := idleReady_of_hostRan (s := setAck true s) (hinit hctx) hran h
    exact hu

theorem idleReady_of_serveHost (hinit : InitFindsReady s) (ht : serveHost s = .next t) (h : IdleReady s) :
    IdleReady t := by
  cases hq : s.hostQ with
  | nil =>
    rw [serveHost_nil hq] at ht
    exact Host.Outcome.next.inj ht ▸ h
  | cons r rs =>
    rw [serveHost_cons hq] at ht
    split at ht
    · obtain ⟨_, hcode⟩ := exists_encodeRequest_decodeRequest r
      have hport : s.hostQ.head? = some r := by rw [hq]; rfl
      exact idleReady_of_exec_request (s := { s with hostQ := rs }) hcode (hinit r hport) ht h
    · exact Host.Outcome.next.inj ht ▸ h

/-! ### The handlers and the spin (R170, R210, R211, R214) -/

theorem idleReady_of_rxcHandler (ht : rxcHandler s = .ok t) (h : IdleReady s) : IdleReady t := by
  rcases rxcHandler_ok ht with ⟨r, hengine⟩ | hengine
  · have hstored : IdleReady (setRing .rxq r (receiveByte s)) := h
    exact idleReady_of_engineOnly hengine hstored
  · have hheld : IdleReady (setWaitingAck true (setPartnerWaiting true (receiveByte s))) := h
    exact idleReady_of_engineOnly hengine hheld

/-- R210: the handler marks the transport idle only where it finds the peripheral ready. -/
theorem idleReady_txcHandler (h : IdleReady s) : IdleReady (txcHandler s) := by
  unfold txcHandler
  split
  · split <;> exact h
  · split
    · split
      · rename_i hready
        have hb : s.periph.txBusy = false := by simpa [isTransmitReady] using hready
        exact idleReady_of_ready hb
      · exact h
    · exact h

/-- R211: the handler runs only with the peripheral ready (R249). -/
theorem idleReady_of_dreHandler (hb : s.periph.txBusy = false) (ht : dreHandler s = .ok t) (h : IdleReady s) :
    IdleReady t := by
  obtain ⟨u, rfl, rfl | hsends⟩ := dreHandler_ok ht
  · exact idleReady_of_ready hb
  · have hu : IdleReady u := idleReady_of_sent hsends.2 h
    exact hu

theorem idleReady_of_exec_peRxc (ht : exec .peRxc s = .next t) (h : IdleReady s) : IdleReady t := by
  rcases exec_peRxc_next ht with rfl | hrun
  · exact h
  · exact idleReady_of_rxcHandler hrun h

theorem idleReady_of_exec_peTxc (ht : exec .peTxc s = .next t) (h : IdleReady s) : IdleReady t := by
  rcases exec_peTxc_next ht with rfl | rfl
  · exact h
  · have hentry : IdleReady (handlerEntry .txc s) := h
    exact idleReady_txcHandler hentry

theorem idleReady_of_exec_peDre (ht : exec .peDre s = .next t) (h : IdleReady s) : IdleReady t := by
  rcases serveIrq_ok (finish_next ht) with rfl | ⟨henabled, hrun⟩
  · exact h
  · obtain ⟨-, -, hb⟩ := irqEnabled_dre.mp henabled
    exact idleReady_of_dreHandler hb hrun h

theorem idleReady_of_exec_spin (ht : exec .spin s = .next t) (h : IdleReady s) : IdleReady t := by
  rcases spinStep_ok (finish_next ht) with hengine | ⟨u, hengine, rfl⟩
  · exact idleReady_of_engineOnly hengine h
  · have hu : IdleReady u := idleReady_of_engineOnly hengine h
    exact hu

/-! ### The environment's steps (R264, R266) -/

theorem idleReady_of_exec_periphTxDone (ht : exec .periphTxDone s = .next t) (h : IdleReady s) : IdleReady t := by
  rcases exec_periphTxDone_next ht with rfl | rfl
  · exact idleReady_of_ready rfl
  · exact h

theorem idleReady_of_serveDeliver (ht : serveDeliver s = .next t) (h : IdleReady s) : IdleReady t := by
  obtain ⟨u, hu, hpass⟩ := serveDeliver_passes s
  obtain rfl := Host.Outcome.next.inj (hu.symm.trans ht)
  exact idleReady_of_eq (by rw [hpass.rest]) hpass.busy h

theorem idleReady_of_runAgent (hinit : a = .host → InitFindsReady s) (ht : runAgent a s = .next t) (h : IdleReady s) :
    IdleReady t := by
  cases a with
  | host => exact idleReady_of_serveHost (hinit rfl) ht h
  | rxc => exact idleReady_of_exec_peRxc ht h
  | txc => exact idleReady_of_exec_peTxc ht h
  | dre => exact idleReady_of_exec_peDre ht h
  | spin => exact idleReady_of_exec_spin ht h
  | txDone => exact idleReady_of_exec_periphTxDone ht h
  | deliver => exact idleReady_of_serveDeliver ht h
  | peer b => exact Host.Outcome.next.inj ht ▸ h
  | reset => exact Host.Outcome.next.inj ht ▸ idleReady_of_ready rfl

end Ready

/-- Settles O58: the turn is taken off the schedule, which R140 does not read; then one lemma per agent. -/
theorem everyStepKeepsIdleMeaningReady : Obligations.EveryStepKeepsIdleMeaningReady := by
  unfold Obligations.EveryStepKeepsIdleMeaningReady
  intro s t hready hinit hstep
  cases hs : s.sched with
  | nil =>
    rw [step_of_sched_nil hs] at hstep
    exact Host.Outcome.next.inj hstep ▸ hready
  | cons a rest =>
    rw [step_of_sched_cons hs] at hstep
    have hport : a = .host → InitFindsReady s := by
      rintro rfl
      exact initFindsReady_of_not_initInFlight hinit hs
    exact idleReady_of_runAgent (s := { s with sched := rest }) hport hstep hready

section Progress

variable {s : State} {i : Instr} {r : HostReq} {x : Except Fault State}

/-! ### Every agent answers (R139, R213, R267) -/

/-- R139, R140: the one fault that `Ends` leaves open needs a state where R140 fails. -/
theorem finish_of_ends (h : Ends s x) (hready : IdleReady s) : ∃ t, finish x = .next t := by
  rcases h with ⟨t, rfl, -, -⟩ | ⟨-, hn⟩
  · exact ⟨t, rfl⟩
  · exact absurd hready hn

theorem hostRun_answers (i : Instr) (h : InOrder s) (hctx : s.ctx = .idle) (hready : IdleReady s) :
    ∃ t, finish (hostRun i s) = .next t := by
  by_cases hi : i = .tInit
  · subst hi
    exact ⟨_, rfl⟩
  · exact finish_of_ends ((keeps_hostRun hi h).ends hctx) hready

theorem exec_request_answers (hcode : encodeRequest i = some r) (h : InOrder s) (hready : IdleReady s) :
    ∃ t, exec i s = .next t := by
  rcases exec_request_eq hcode s with heq | heq
  · rw [heq]
    by_cases hctx : s.ctx = .idle
    · rw [hostOp_idle hctx]
      exact hostRun_answers i (keptBy_setAck true h).inOrder hctx hready
    · exact ⟨_, hostOp_held hctx⟩
  · exact ⟨_, heq⟩

theorem serveHost_answers (h : Inv s) (hready : IdleReady s) : ∃ t, serveHost s = .next t := by
  cases hq : s.hostQ with
  | nil => exact ⟨s, serveHost_nil hq⟩
  | cons r rs =>
    rw [serveHost_cons hq]
    split
    · obtain ⟨_, hcode⟩ := exists_encodeRequest_decodeRequest r
      have htaken : Inv { s with hostQ := rs } := inv_of_block_eq h rfl
      exact exec_request_answers hcode htaken.inOrder hready
    · exact ⟨_, rfl⟩

theorem exec_periphTxDone_answers (s : State) : ∃ t, exec .periphTxDone s = .next t := by
  cases hb : s.periph.txBusy with
  | true => exact ⟨periphFinish s, if_pos hb⟩
  | false => exact ⟨s, exec_periphTxDone_ready hb⟩

theorem runAgent_answers (a : Agent) (h : Inv s) (hready : IdleReady s) : ∃ t, runAgent a s = .next t := by
  cases a with
  | host => exact serveHost_answers h hready
  | rxc => exact finish_of_ends (ends_serve_rxc h) hready
  | txc => exact finish_of_ends (ends_serve_txc h) hready
  | dre => exact finish_of_ends (ends_serve_dre h) hready
  | spin => exact finish_of_ends (ends_spinStep h) hready
  | txDone => exact exec_periphTxDone_answers s
  | deliver =>
    obtain ⟨t, ht, -⟩ := serveDeliver_passes s
    exact ⟨t, ht⟩
  | peer b => exact ⟨_, rfl⟩
  | reset => exact ⟨_, rfl⟩

end Progress

/-- Settles O59: a handler ends in a state of the block unless R140 fails, and the other agents always answer. -/
theorem noStepFaultsFromAStateInOrder : Obligations.NoStepFaultsFromAStateInOrder := by
  unfold Obligations.NoStepFaultsFromAStateInOrder
  intro s hinv hready
  cases hs : s.sched with
  | nil => exact ⟨s, step_of_sched_nil hs⟩
  | cons a rest =>
    rw [step_of_sched_cons hs]
    have htaken : Inv { s with sched := rest } := inv_of_block_eq hinv rfl
    exact runAgent_answers a htaken hready

end Sys2Proof.Proofs
end

section
/-! The transport operations as operations of their own: the outcome of each from the law of the shared operation it
runs, on the state in which it was acknowledged if it is a host operation. -/

namespace Sys2Proof.Proofs

open Sys2Proof Sys2Proof.Machine

section Transport

variable {s t : State} {b : Byte}

/-! ### The internal operations (R130, R137 to R139) -/

theorem exec_tHandoff (b : Byte) (s : State) : exec (.tHandoff b) s = finish ((tHandoff b s).map (setRet .none)) := rfl

theorem exec_tDriveRx (s : State) :
    exec .tDriveRx s = finish ((tDriveRx s).map fun p => setRet (.received p.1.1 p.1.2) p.2) := rfl

theorem exec_tKick_ok (h : tKick s = .ok t) : exec .tKick s = .next (setRet .none t) := by
  have hexec : exec .tKick s = finish ((tKick s).map (setRet .none)) := rfl
  rw [hexec, h]
  rfl

theorem exec_tDriveTx_ok (h : tDriveTx s = .ok t) : exec .tDriveTx s = .next (setRet .none t) := by
  have hexec : exec .tDriveTx s = finish ((tDriveTx s).map (setRet .none)) := rfl
  rw [hexec, h]
  rfl

theorem exec_tDriveRx_ok {stored : Bool} (h : tDriveRx s = .ok ((b, stored), t)) :
    exec .tDriveRx s = .next (setRet (.received b stored) t) := by
  rw [exec_tDriveRx, h]
  rfl

theorem tDriveRx_nothing (h : s.periph.rxFull = false) : tDriveRx s = .error .receiveNothing :=
  if_neg (by simp [isReceiveReady, h])

/-! ### The host operations (R50, R131, R133, R134, R136) -/

/-- R50: a host operation runs on the state in which it was acknowledged. -/
theorem exec_hostOp_idle {i : Instr} (heq : exec i s = hostOp (hostRun i) s) (hctx : s.ctx = .idle) :
    exec i s = finish (hostRun i (setAck true s)) :=
  heq.trans (hostOp_idle hctx)

theorem exec_tTransmit_idle (hctx : s.ctx = .idle) :
    exec (.tTransmit b) s = finish ((tTransmit b (setAck true s)).map noteCount) :=
  exec_hostOp_idle rfl hctx

theorem tTransmit_full (h : s.txq.count = s.cfg.N) : tTransmit b s = .ok (0, signal .txqFull s) :=
  if_pos (rbIsFull_iff (q := .txq).mpr h)

theorem exec_tReceive_idle (hctx : s.ctx = .idle) :
    exec .tReceive s
      = .next (setRet (.byte (rbPop .rxq (setAck true s)).valid (rbPop .rxq (setAck true s)).byte)
          (rbPop .rxq (setAck true s)).state) :=
  exec_hostOp_idle rfl hctx

theorem exec_tBeginTransmit_idle (hctx : s.ctx = .idle) (h : tKick (setAck true s) = .ok t) :
    exec .tBeginTransmit s = .next (setRet .none t) := by
  have hexec : exec .tBeginTransmit s = finish ((tKick (setAck true s)).map (setRet .none)) :=
    exec_hostOp_idle rfl hctx
  rw [hexec, h]
  rfl

end Transport

/-- Settles O12: the peripheral is ready or busy. -/
theorem handoffSendsTheByteOrFaults : Obligations.HandoffSendsTheByteOrFaults := by
  unfold Obligations.HandoffSendsTheByteOrFaults
  intro b s
  refine ⟨fun hready => ?ready, fun hbusy => ?busy⟩
  case ready =>
    rw [exec_tHandoff, tHandoff_ready hready]
    rfl
  case busy =>
    rw [exec_tHandoff, tHandoff_busy hbusy]
    rfl

/-- Settles O14: the operation runs, and every field of the state it leaves is as stated. -/
theorem transportInitEmptiesBothQueues : Obligations.TransportInitEmptiesBothQueues := by
  unfold Obligations.TransportInitEmptiesBothQueues
  intro s hctx
  exact exec_hostOp_idle rfl hctx

/-- Settles O13: the law of the kick, with no result noted. -/
theorem kickStartsAtMostOneByte : Obligations.KickStartsAtMostOneByte := by
  unfold Obligations.KickStartsAtMostOneByte
  intro s ho hready
  obtain ⟨t, hrun, hkick, hstore, -, -, -, hrest⟩ := tKick_spec ho hready
  exact ⟨setRet .none t, exec_tKick_ok hrun, hkick, hstore, congrArg (setRet .none) hrest⟩

/-- Settles O20: the acknowledged state has the queue and the wire of the first one, so the law of the kick there is the
statement. -/
theorem beginTransmitKicks : Obligations.BeginTransmitKicks := by
  unfold Obligations.BeginTransmitKicks
  intro s ho hready hctx
  obtain ⟨t, hrun, hkick, hstore, -, -, -, hrest⟩ := tKick_spec (s := setAck true s) ho hready
  exact ⟨setRet .none t, exec_tBeginTransmit_idle hctx hrun, hkick, hstore, congrArg (setRet .none) hrest⟩

/-- Settles O16: with room the law of the push and the kick, on a full queue the rejection. -/
theorem transmitQueuesTheByteAndKicks : Obligations.TransmitQueuesTheByteAndKicks := by
  unfold Obligations.TransmitQueuesTheByteAndKicks
  intro b s ho hready hctx
  refine ⟨fun hroom => ?room, fun hfull => ?full⟩
  case room =>
    obtain ⟨t, hrun, hkick, hslots, -, -, hrest⟩ := tTransmit_room (b := b) (s := setAck true s) ho hready hroom
    refine ⟨noteCount (1, t), ?_, hkick, hslots, congrArg (setRet (.count 1)) hrest⟩
    rw [exec_tTransmit_idle hctx, hrun]
    rfl
  case full =>
    rw [exec_tTransmit_idle hctx, tTransmit_full (s := setAck true s) hfull]
    rfl

/-- Settles O17: the pop of `RXQ` in the acknowledged state, whose store the popped buffer keeps. -/
theorem receiveTakesTheOldestByte : Obligations.ReceiveTakesTheOldestByte := by
  unfold Obligations.ReceiveTakesTheOldestByte
  intro s ho hctx
  refine ⟨fun x l hcont => ?held, fun hnil => ?empty⟩
  case held =>
    obtain ⟨hpop, hrest, -⟩ := rbPop_cons (q := .rxq) (s := setAck true s) ho hcont
    refine ⟨_, exec_tReceive_idle hctx, ?_⟩
    rw [hpop]
    exact ⟨hrest, rfl, rfl⟩
  case empty =>
    rw [exec_tReceive_idle hctx, rbPop_empty (s := setAck true s) hnil]
    rfl

/-- Settles O21: the oldest byte is popped and handed off, or only `LS.TRANSMITTING` is cleared. -/
theorem driveTxPullsOneByteOrGoesIdle : Obligations.DriveTxPullsOneByteOrGoesIdle := by
  unfold Obligations.DriveTxPullsOneByteOrGoesIdle
  intro s ho
  refine ⟨fun x l hcont hready => ?held, fun hnil => exec_tDriveTx_ok (tDriveTx_nil hnil)⟩
  case held =>
    obtain ⟨hrun, hrest, -⟩ := tDriveTx_cons ho hcont hready
    exact ⟨_, exec_tDriveTx_ok hrun, hrest, rfl, rfl⟩

/-- Settles O22: the byte is read in both cases of the push, and with nothing waiting there is no byte to read. -/
theorem driveRxReadsTheWaitingByte : Obligations.DriveRxReadsTheWaitingByte := by
  unfold Obligations.DriveRxReadsTheWaitingByte
  intro s ho
  refine ⟨fun hfull hroom => ?room, fun hfull hcount => exec_tDriveRx_ok (tDriveRx_full hfull hcount),
    fun hnone => ?nothing⟩
  case room =>
    exact ⟨_, exec_tDriveRx_ok (tDriveRx_room hfull hroom), contents_pushed ho hroom,
      fun i hi => pushed_slots (q := .rxq) ho hi, rfl⟩
  case nothing =>
    rw [exec_tDriveRx, tDriveRx_nothing hnone]
    rfl

end Sys2Proof.Proofs
end

section
/-! The command-frame operations: a frame value laid out on the wire and queued, a forced send, the reads of a frame's
parts, and the decode of a whole frame from `RXQ` as the decode of its contents as a byte list. -/

namespace Sys2Proof.Proofs

open Sys2Proof Sys2Proof.Machine

section Sending

variable {s : State} {first : Byte} {rest : List Byte} {k : Kont}

/-! ### Sending a frame value (R154 to R156, R213) -/

theorem exec_cfFrameBytes (op : Byte) (pl : List Byte) (s : State) :
    exec (.cfFrameBytes op pl) s = .next (setRet (.bytes (frameBytes s.cfg s.seqOut op pl)) s) := rfl

theorem exec_cfEncodeAndEnqueue_idle (hctx : s.ctx = .idle) :
    exec .cfEncodeAndEnqueue s
      = finish ((cfEncodeAndEnqueue s.hcf.opcode (framePayload .hcf s) (setAck true s)).map noteCount) :=
  exec_hostOp_idle rfl hctx

theorem exec_peForce (first : Byte) (rest : List Byte) (k : Kont) (s : State) :
    exec (.peForce first rest k) s = finish ((peForce first rest k s).map (setRet .none)) := rfl

theorem exec_cfEncodeAndForce (op : Byte) (pl : List Byte) (k : Kont) (s : State) :
    exec (.cfEncodeAndForce op pl k) s
      = finish ((peForce op (frameTail s.cfg s.seqOut pl) k (bumpSeqOut s)).map (setRet .none)) := rfl

theorem peForce_idle (hctx : s.ctx = .idle) :
    peForce first rest k s = .ok { s with ctx := .forcing first rest k } :=
  if_pos hctx

theorem peForce_nested (hctx : s.ctx ≠ .idle) :
    peForce first rest k s = .error .forceNested :=
  if_neg hctx

end Sending

/-- Settles O24: the bytes are those of the wire format's encoder. -/
theorem frameBytesHaveTheWireLayout : Obligations.FrameBytesHaveTheWireLayout := by
  unfold Obligations.FrameBytesHaveTheWireLayout
  intro op pl s
  exact ⟨_, exec_cfFrameBytes op pl s, rfl, frameBytes_length s.cfg s.seqOut op pl⟩

/-- Settles O26: both operations are a forced send, the second one in the state whose `SEQ_OUT` has advanced. -/
theorem forcedSendSuspendsTheHandler : Obligations.ForcedSendSuspendsTheHandler := by
  unfold Obligations.ForcedSendSuspendsTheHandler
  intro s k
  refine ⟨fun hidle => ⟨fun b rest => ?force, fun op pl => ?encode⟩,
    fun hbusy => ⟨fun b rest => ?forceNested, fun op pl => ?encodeNested⟩⟩
  case force =>
    rw [exec_peForce, peForce_idle hidle]
    rfl
  case encode =>
    rw [exec_cfEncodeAndForce, peForce_idle (s := bumpSeqOut s) hidle]
    rfl
  case forceNested =>
    rw [exec_peForce, peForce_nested hbusy]
    rfl
  case encodeNested =>
    rw [exec_cfEncodeAndForce, peForce_nested (s := bumpSeqOut s) hbusy]
    rfl

/-- Settles O25: the acknowledged state has the queue, the register and the wire of the first one, so the law of the
enqueued frame there is the statement. -/
theorem encodeAndEnqueueSendsWhatFits : Obligations.EncodeAndEnqueueSendsWhatFits := by
  unfold Obligations.EncodeAndEnqueueSendsWhatFits
  intro s ho hready hctx bs k
  obtain ⟨t, hrun, hkick, hslots, -, -, hrest⟩ :=
    cfEncodeAndEnqueue_spec (s := setAck true s) s.hcf.opcode (framePayload .hcf s) ho hready
  refine ⟨noteCount (k, t), ?_, hkick, hslots, ?_⟩
  · rw [exec_cfEncodeAndEnqueue_idle hctx, hrun]
    rfl
  · exact congrArg (setRet (.count k)) hrest

/-! ### Reading the parts of a frame (R157 to R159, R161) -/

theorem exec_cfRdOpcode (f : FrameId) (s : State) :
    exec (.cfRdOpcode f) s = .next (setRet (.status (cfRdOpcode f s).1) (cfRdOpcode f s).2) := rfl

theorem exec_cfRdSeq (s : State) :
    exec .cfRdSeq s = .next (setRet (.stamp (cfRdSeq s).status (cfRdSeq s).stamp) (cfRdSeq s).state) := rfl

theorem exec_cfRdPayload (f : FrameId) (m : Nat) (s : State) :
    exec (.cfRdPayload f m) s = .next (setRet .none (cfRdPayload f m s)) := rfl

theorem exec_cfDiscard (s : State) : exec .cfDiscard s = .next (setRet .none (cfDiscard s)) := rfl

/-- Settles O27: one pop of `RXQ`, or none; a popped buffer keeps its store. -/
theorem opcodeAndStampAreReadFromTheQueue : Obligations.OpcodeAndStampAreReadFromTheQueue := by
  unfold Obligations.OpcodeAndStampAreReadFromTheQueue
  intro f s ho
  refine ⟨fun hnil => ⟨?opcodeNone, ?stampNone⟩, fun x l hcont => ⟨?opcode, ?stamp⟩⟩
  case opcodeNone =>
    rw [exec_cfRdOpcode, cfRdOpcode_nil hnil]
    rfl
  case stampNone =>
    rw [exec_cfRdSeq, cfRdSeq_nil hnil]
    rfl
  case opcode =>
    have hleft := contents_popped_of_cont ho hcont
    refine ⟨_, exec_cfRdOpcode f s, ?_⟩
    rw [cfRdOpcode_cons ho hcont]
    split
    · exact ⟨hleft, rfl, rfl⟩
    · cases f <;> exact ⟨hleft, rfl, rfl⟩
  case stamp =>
    refine ⟨_, exec_cfRdSeq s, ?_⟩
    rw [cfRdSeq_cons ho hcont]
    exact ⟨contents_popped_of_cont ho hcont, rfl, rfl⟩

/-- Settles O28: the laws of the two loops, with no result noted. -/
theorem payloadIsCollectedAndTheRestDropped : Obligations.PayloadIsCollectedAndTheRestDropped := by
  unfold Obligations.PayloadIsCollectedAndTheRestDropped
  intro f m s ho
  refine ⟨?payload, ?discard⟩
  case payload =>
    obtain ⟨r, g, hrun, -, hstore, hcont, hpayload, hlen, hopcode, hslots, -⟩ := cfRdPayload_spec f m ho
    refine ⟨_, exec_cfRdPayload f m s, ?_⟩
    rw [hrun]
    have htaken : ∀ i, (payloadIn m s).length ≤ i → storeRead g.payload i = storeRead (frame f s).payload i :=
      fun i hi => hslots i (hlen.trans_le hi)
    cases f <;> exact ⟨⟨hcont, hstore⟩, ⟨hpayload, hlen, hopcode, htaken⟩, rfl⟩
  case discard =>
    obtain ⟨r, hrun, -, hstore, hcont⟩ := cfDiscard_spec ho
    refine ⟨_, exec_cfDiscard s, ?_⟩
    rw [hrun]
    exact ⟨⟨hcont, hstore⟩, rfl⟩

section Decoding

/-! ### The decoder on byte lists (R82, R83, R162) -/

variable {c : Config} {m : Nat} {op stamp : Byte} {l pl : List Byte} {p : FrameParts}

/-- R157, R158: the three ways in which a byte list holds no frame. -/
theorem decodeFrame_eq_error {e : DecodeError} (h : decodeFrame c m l = .error e) :
    (e = .nothingBuffered ∧ l = []) ∨ (e = .emptyFrame ∧ ∃ l', l = c.opEnd :: l')
      ∨ (e = .noStamp ∧ c.numbering = true ∧ ∃ op, op ≠ c.opEnd ∧ l = [op]) := by
  revert h
  fun_cases decodeFrame c m l with
  | case1 => exact fun h => .inl ⟨(Except.error.inj h).symm, rfl⟩
  | case2 l' => exact fun h => .inr (.inl ⟨(Except.error.inj h).symm, l', rfl⟩)
  | case3 op hop hn => exact fun h => .inr (.inr ⟨(Except.error.inj h).symm, hn, op, hop, rfl⟩)
  | case4 => exact fun h => nomatch h
  | case5 => exact fun h => nomatch h

/-- R157 to R160: what stands in front of the payload of a frame. -/
theorem decodeFrame_eq_ok (h : decodeFrame c m l = .ok p) :
    ∃ op tail, l = op :: tail ∧ op ≠ c.opEnd ∧
      ((c.numbering = false ∧ p = frameBody c m op 0x00 tail)
        ∨ (c.numbering = true ∧ ∃ stamp l', tail = stamp :: l' ∧ p = frameBody c m op stamp l')) := by
  revert h
  fun_cases decodeFrame c m l with
  | case1 => exact fun h => nomatch h
  | case2 => exact fun h => nomatch h
  | case3 => exact fun h => nomatch h
  | case4 op hop hn stamp l' =>
    exact fun h => ⟨op, _, rfl, hop, .inr ⟨hn, stamp, l', rfl, (Except.ok.inj h).symm⟩⟩
  | case5 op l' hop hn =>
    exact fun h => ⟨op, l', rfl, hop, .inl ⟨Bool.eq_false_of_not_eq_true hn, (Except.ok.inj h).symm⟩⟩

/-- R162: decoding the wire bytes of a frame value whose payload holds no terminator and fits gives it back. -/
theorem decodeFrame_frameBytes (hop : op ≠ c.opEnd) (hpl : c.opEnd ∉ pl) (hm : pl.length ≤ m) (hL : pl.length ≤ c.L) :
    decodeFrame c m (frameBytes c stamp op pl)
      = .ok { opcode := op, stamp := if c.numbering then stamp else 0x00, payload := pl, dropped := [], rest := [] } := by
  cases hn : c.numbering with
  | false =>
    have hbytes : frameBytes c stamp op pl = op :: (pl ++ [c.opEnd]) := by simp [frameBytes, frameTail, hn]
    rw [hbytes, decodeFrame_unnumbered hop hn, frameBody_terminated hpl hm hL]
    rfl
  | true =>
    have hbytes : frameBytes c stamp op pl = op :: stamp :: (pl ++ [c.opEnd]) := by simp [frameBytes, frameTail, hn]
    rw [hbytes, decodeFrame_numbered hop hn, frameBody_terminated hpl hm hL]
    rfl

end Decoding

section Refinement

/-! ### The decode from `RXQ` (R160) -/

variable {s t u v : State} {m : Nat} {op stamp : Byte} {r : Ring} {p : FrameParts} {l : List Byte}

/-- The state has a decoded frame in `HCF` and what stands behind it in `RXQ`; each dropped byte was signalled. -/
structure DecodedTo (p : FrameParts) (s t : State) : Prop where
  store : t.rxq.store = s.rxq.store
  opcode : t.hcf.opcode = p.opcode
  payload : framePayload .hcf t = p.payload
  len : t.hcf.len = p.payload.length
  left : cont .rxq t = p.rest
  conds : t.conds = s.conds ++ List.replicate p.dropped.length .payloadTruncated
  rest : t = { s with rxq := t.rxq, hcf := t.hcf, conds := t.conds }

/-- The state in which the decode has read the header: `HCF` is empty but for the opcode. -/
def headerRead (op : Byte) (r : Ring) (s : State) : State :=
  setRing .rxq r (setFrame .hcf { s.hcf with opcode := op, len := 0 } s)

/-- R159: the payload read behind a header is the list decoder's cut. -/
theorem decodedTo_cfRdPayload (stamp : Byte) (hr : RingOk s.cfg.N r) (hstore : r.store = s.rxq.store)
    (hl : cont .rxq (headerRead op r s) = l) :
    DecodedTo (frameBody s.cfg m op stamp l) s (cfRdPayload .hcf m (headerRead op r s)) := by
  subst hl
  obtain ⟨r', g, hrun, -, hstore', hcont, hpayload, hlen, hopcode, -, -⟩ :=
    cfRdPayload_spec (s := headerRead op r s) .hcf m hr
  rw [hrun]
  exact
    { store := hstore'.trans hstore
      opcode := hopcode
      payload := hpayload
      len := hlen
      left := hcont
      conds := by rw [frameBody, List.length_drop]; rfl
      rest := rfl }

/-! ### The decode, by what the reads of the header find (R157, R158) -/

theorem cfDecodeFromReceive_noOpcode (h : cfRdOpcode .hcf (cfInit .hcf s) = (.absent, u)) :
    cfDecodeFromReceive m s = { status := .absent, stamp := 0x00, state := u } := by
  simp only [cfDecodeFromReceive, h]

theorem cfDecodeFromReceive_noStamp (h : cfRdOpcode .hcf (cfInit .hcf s) = (.ok, u)) (hn : s.cfg.numbering = true)
    (hu : cont .rxq u = []) : cfDecodeFromReceive m s = { status := .absent, stamp := 0x00, state := u } := by
  simp only [cfDecodeFromReceive, h, hn, cfRdSeq_nil hu, if_true]

theorem cfDecodeFromReceive_numbered (h : cfRdOpcode .hcf (cfInit .hcf s) = (.ok, u)) (hn : s.cfg.numbering = true)
    (hu : cfRdSeq u = { status := .ok, stamp, state := v }) :
    cfDecodeFromReceive m s = { status := .ok, stamp, state := cfRdPayload .hcf m v } := by
  simp only [cfDecodeFromReceive, h, hn, hu, if_true]

theorem cfDecodeFromReceive_unnumbered (h : cfRdOpcode .hcf (cfInit .hcf s) = (.ok, u)) (hn : s.cfg.numbering = false) :
    cfDecodeFromReceive m s = { status := .ok, stamp := 0x00, state := cfRdPayload .hcf m u } := by
  simp only [cfDecodeFromReceive, h, hn, Bool.false_eq_true, if_false]

theorem cfRdOpcode_header (ho : RingOk s.cfg.N s.rxq) (hcont : cont .rxq s = op :: l) (hop : op ≠ s.cfg.opEnd) :
    cfRdOpcode .hcf (cfInit .hcf s) = (.ok, headerRead op (s.rxq.popped s.cfg.N) s) :=
  (cfRdOpcode_cons (s := cfInit .hcf s) ho hcont).trans (if_neg hop)

/-- R160: where the list decoder finds a frame in the contents of `RXQ`, the decode over the ring buffer takes it. -/
theorem cfDecodeFromReceive_ok (ho : RingOk s.cfg.N s.rxq) (hd : decodeFrame s.cfg m (cont .rxq s) = .ok p) :
    ∃ t, cfDecodeFromReceive m s = { status := .ok, stamp := p.stamp, state := t } ∧ DecodedTo p s t := by
  obtain ⟨op, tail, hcont, hop, hcase⟩ := decodeFrame_eq_ok hd
  have hread := cfRdOpcode_header ho hcont hop
  have hring := ho.popped (count_ne_zero (q := .rxq) hcont)
  have hleft : cont .rxq (headerRead op (s.rxq.popped s.cfg.N) s) = tail := contents_popped_of_cont ho hcont
  obtain ⟨hn, rfl⟩ | ⟨hn, stamp, l, rfl, rfl⟩ := hcase
  · exact ⟨_, cfDecodeFromReceive_unnumbered hread hn, decodedTo_cfRdPayload 0x00 hring rfl hleft⟩
  · exact ⟨_, cfDecodeFromReceive_numbered hread hn (cfRdSeq_cons hring hleft),
      decodedTo_cfRdPayload stamp (hring.popped (count_ne_zero (q := .rxq) hleft)) rfl
        (contents_popped_of_cont hring hleft)⟩

/-- R50, R160: the decode of the command port runs on the state in which it was acknowledged. -/
theorem exec_cfDecodeFromReceive_idle {m : Byte} {a : Stamped} (hctx : s.ctx = .idle)
    (h : cfDecodeFromReceive m.toNat (setAck true s) = a) :
    exec (.cfDecodeFromReceive m) s = .next (setRet (.stamp a.status a.stamp) a.state) := by
  subst h
  exact exec_hostOp_idle rfl hctx

end Refinement

/-- Settles O29: a frame is taken as the list decoder cuts it; without one the header reads end where it does. -/
theorem decodeFromReceiveIsTheFrameDecode : Obligations.DecodeFromReceiveIsTheFrameDecode := by
  unfold Obligations.DecodeFromReceiveIsTheFrameDecode
  intro m s ho hctx
  cases hd : decodeFrame s.cfg m.toNat (cont .rxq s) with
  | ok p =>
    obtain ⟨t, hrun, hframe⟩ := cfDecodeFromReceive_ok (s := setAck true s) ho hd
    exact ⟨_, exec_cfDecodeFromReceive_idle hctx hrun, hframe.store,
      ⟨rfl, hframe.opcode, hframe.payload, hframe.len, hframe.left, hframe.conds⟩,
      congrArg (setRet (.stamp .ok p.stamp)) hframe.rest⟩
  | error e =>
    obtain ⟨rfl, hnil⟩ | ⟨rfl, l, hcont⟩ | ⟨rfl, hn, op, hop, hcont⟩ := decodeFrame_eq_error hd
    · have hread : cfRdOpcode .hcf (cfInit .hcf (setAck true s)) = (.absent, _) := cfRdOpcode_nil hnil
      exact ⟨_, exec_cfDecodeFromReceive_idle hctx (cfDecodeFromReceive_noOpcode hread), rfl,
        ⟨rfl, rfl, rfl, rfl, hnil⟩, rfl⟩
    · have hread := (cfRdOpcode_cons (f := .hcf) (s := cfInit .hcf (setAck true s)) ho hcont).trans (if_pos rfl)
      have hleft : cont .rxq (setRing .rxq (s.rxq.popped s.cfg.N) s) = l := contents_popped_of_cont ho hcont
      exact ⟨_, exec_cfDecodeFromReceive_idle hctx (cfDecodeFromReceive_noOpcode hread), rfl,
        ⟨rfl, rfl, rfl, rfl, by rw [hcont]; exact hleft⟩, rfl⟩
    · have hread := cfRdOpcode_header (s := setAck true s) ho hcont hop
      have hempty := contents_popped_of_cont ho hcont
      exact ⟨_, exec_cfDecodeFromReceive_idle hctx (cfDecodeFromReceive_noStamp hread hn hempty), rfl,
        ⟨rfl, rfl, rfl, hcont, hempty⟩, rfl⟩

/-- Settles O30: the decode over the ring buffer is the list decoder's, which gives an encoded frame back. The condition
on `SEQ_OUT` is not used: a stamp is not compared with the terminator (R158). -/
theorem encodedFrameDecodesBack : Obligations.EncodedFrameDecodesBack := by
  unfold Obligations.EncodedFrameDecodesBack
  intro op pl s ho hctx hwf hlen hop hpl _ hcont
  obtain ⟨_, _, hL, _⟩ := hwf
  have hm : (BitVec.ofNat 8 s.cfg.L).toNat = s.cfg.L := by
    rw [BitVec.toNat_ofNat]
    omega
  have hd := decodeFrame_frameBytes (stamp := s.seqOut) hop hpl (hlen.trans_eq hm.symm) hlen
  rw [← hcont] at hd
  obtain ⟨t, hrun, hframe⟩ := cfDecodeFromReceive_ok (s := setAck true s) ho hd
  exact ⟨_, exec_cfDecodeFromReceive_idle hctx hrun, rfl, Prod.ext hframe.opcode hframe.payload, hframe.len,
    hframe.left⟩

end Sys2Proof.Proofs
end

section
/-! The rows of the opcode map as operations (R179 to R182): a control frame or a kick, and then the drop of the rest of
the frame, on the contents of both queues. -/

namespace Sys2Proof.Proofs

open Sys2Proof Sys2Proof.Machine

section Rows

variable {s t u : State} {op x y : Byte} {pl l : List Byte}

/-! ### The drop of the rest of a frame, on its own and after a send (R161, R179, R180) -/

/-- R161: the drop of the rest of a frame, from a state with the same `RXQ` as `s`. -/
theorem cfDiscard_after (ho : RingOk s.cfg.N s.rxq) (hcfg : u.cfg = s.cfg) (hrxq : u.rxq = s.rxq) :
    ∃ r, cfDiscard u = setRing .rxq r u ∧ FrameConsumed s (setRing .rxq r u) := by
  have hu : RingOk u.cfg.N u.rxq := by rwa [hcfg, hrxq]
  obtain ⟨r, hrun, -, hstore, hcont⟩ := cfDiscard_spec hu
  have hsame : cont .rxq u = cont .rxq s := by rw [cont, cont, ring_rxq, ring_rxq, hcfg, hrxq]
  rw [hsame, hcfg] at hcont
  refine ⟨r, hrun, ?_, hstore.trans (congrArg Ring.store hrxq)⟩
  rw [cont_setRing, hcfg]
  exact hcont

/-- R155, R161: a control frame is queued as far as it fits, and the rest of the received frame is dropped. -/
theorem enqueue_discard_spec (op : Byte) (pl : List Byte) (hrx : RingOk s.cfg.N s.rxq) (htx : RingOk s.cfg.N s.txq)
    (hready : IdleReady s) :
    let bs := frameBytes s.cfg s.seqOut op pl
    let k := min bs.length (s.cfg.N - s.txq.count)
    ∃ t, (cfEncodeAndEnqueue op pl s).map (fun p => cfDiscard p.2) = .ok t
      ∧ KickedWith (cont .txq s ++ bs.take k) s t ∧ SlotsKept .txq k s t ∧ FrameConsumed s t
      ∧ t = { s with txq := t.txq, rxq := t.rxq, wireOut := t.wireOut, ls := t.ls, periph := t.periph,
                     seqOut := if k = bs.length then s.seqOut + 1 else s.seqOut,
                     conds := s.conds ++ (if k < bs.length then [.txqFull] else []) } := by
  intro bs k
  obtain ⟨u, hsend, hkick, hslots, -, -, hrest⟩ := cfEncodeAndEnqueue_spec op pl htx hready
  obtain ⟨r, hdrop, hconsumed⟩ := cfDiscard_after (u := u) hrx (by rw [hrest]) (by rw [hrest])
  refine ⟨setRing .rxq r u, ?_, hkick, hslots, hconsumed, congrArg (setRing .rxq r) hrest⟩
  rw [hsend, ← hdrop]
  rfl

/-! ### `WAIT`, `RESUME`, `ACK` (R179 to R181) -/

/-- A pause is asked for unless the side is paused already (R179). -/
def pauseAsked (s : State) : State :=
  { s with ls := { s.ls with requestSelfWait := s.ls.requestSelfWait || !s.ls.selfWaiting } }

theorem pauseAsked_eq (s : State) : (if s.ls.selfWaiting then s else setRequestSelfWait true s) = pauseAsked s := by
  split
  · rename_i hpaused
    have hkept : (s.ls.requestSelfWait || !s.ls.selfWaiting) = s.ls.requestSelfWait := by simp [hpaused]
    rw [pauseAsked, hkept]
  · rename_i hrunning
    have hset : (s.ls.requestSelfWait || !s.ls.selfWaiting) = true := by simp [hrunning]
    rw [pauseAsked, hset]
    rfl

theorem handleWait_eq (s : State) :
    handleWait s
      = ((cfEncodeAndEnqueue s.cfg.opAck [] (pauseAsked s)).map (fun p => cfDiscard p.2)).map
          (fun t => (.completed, t)) := by
  have hwait : handleWait s
      = (cfEncodeAndEnqueue s.cfg.opAck [] (pauseAsked s)).map (fun p => (.completed, cfDiscard p.2)) := by
    rw [handleWait, pauseAsked_eq]
    rfl
  rw [hwait]
  cases cfEncodeAndEnqueue s.cfg.opAck [] (pauseAsked s) <;> rfl

theorem exec_wait_ok {r : FrameResult} (h : handleWait s = .ok (r, t)) :
    exec .wait s = .next (setRet (.frame r) t) := by
  have hexec : exec .wait s = finish ((handleWait s).map noteFrame) := rfl
  rw [hexec, h]
  rfl

theorem exec_resume_ok {r : FrameResult} (h : handleResume s = .ok (r, t)) :
    exec .resume s = .next (setRet (.frame r) t) := by
  have hexec : exec .resume s = finish ((handleResume s).map noteFrame) := rfl
  rw [hexec, h]
  rfl

theorem exec_ack (s : State) :
    exec .ack s = .next (setRet (.frame .completed) (cfDiscard (setWaitingAck false s))) := rfl

/-! ### `RESYNC` (R182) -/

theorem exec_resync_ok {r : FrameResult} (h : handleResync s = (r, t)) :
    exec .resync s = .next (setRet (.frame r) t) := by
  have hexec : exec .resync s = .next (noteFrame (handleResync s)) := rfl
  rw [hexec, h]
  rfl

theorem payloadOf_getElem? {id : StoreId} {f : FrameReg} {i : Nat} (hi : i < f.len) :
    (payloadOf id f)[i]? = some (storeByte id f.payload i) := by
  simp [payloadOf, hi]

/-- R182: two payload bytes are adopted, crossed. -/
theorem handleResync_adopts (ho : RingOk s.cfg.N s.rxq) (hpl : payloadIn s.cfg.L s = x :: y :: l) :
    ∃ t, handleResync s = (.completed, t) ∧ FrameConsumed s t ∧ PayloadTaken .ecf s.cfg.L s t
      ∧ t = { s with
          rxq := t.rxq
          ecf := t.ecf
          seqIn := x
          seqOut := y
          conds := s.conds ++ List.replicate (excessIn s.cfg.L s) .payloadTruncated } := by
  obtain ⟨r, g, hread, -, hstore, hcont, hpayload, hlen, hopcode, hslots, -⟩ := cfRdPayload_spec .ecf s.cfg.L ho
  have hlen2 : 2 ≤ g.len := by rw [hlen, hpl]; simp
  have hbytes : payloadOf .ecf g = x :: y :: l := hpayload.trans hpl
  have hx : storeByte .ecf g.payload 0 = x := by
    have h0 := payloadOf_getElem? (id := .ecf) (Nat.lt_of_lt_of_le Nat.zero_lt_two hlen2)
    rw [hbytes] at h0
    exact (Option.some.inj h0).symm
  have hy : storeByte .ecf g.payload 1 = y := by
    have h1 := payloadOf_getElem? (id := .ecf) (Nat.lt_of_lt_of_le Nat.one_lt_two hlen2)
    rw [hbytes] at h1
    exact (Option.some.inj h1).symm
  refine ⟨adoptCounters (cfRdPayload .ecf s.cfg.L s), ?_, ?_⟩
  · rw [handleResync, hread]
    exact if_neg (Nat.not_lt.mpr hlen2)
  · rw [hread]
    refine ⟨⟨hcont, hstore⟩, ⟨hpayload, hlen, hopcode, fun i hi => hslots i (hlen.trans_le hi)⟩, ?_⟩
    rw [← hx, ← hy]
    rfl

theorem excessIn_eq_zero_of_short (h : (payloadIn s.cfg.L s).length < s.cfg.L) : excessIn s.cfg.L s = 0 := by
  rw [payloadIn, Nat.min_self, List.length_take] at h
  rw [excessIn, Nat.min_self]
  omega

/-- R182: fewer than two payload bytes are malformed; with `2 ≤ L` none was cut off. -/
theorem handleResync_malformed (ho : RingOk s.cfg.N s.rxq) (hL : 2 ≤ s.cfg.L) (hpl : (payloadIn s.cfg.L s).length < 2) :
    ∃ t, handleResync s = (.discarded, t) ∧ FrameConsumed s t ∧ PayloadTaken .ecf s.cfg.L s t
      ∧ t = { s with rxq := t.rxq, ecf := t.ecf, conds := s.conds ++ [.resyncMalformed] } := by
  obtain ⟨r, g, hread, -, hstore, hcont, hpayload, hlen, hopcode, hslots, -⟩ := cfRdPayload_spec .ecf s.cfg.L ho
  have hnone : excessIn s.cfg.L s = 0 := excessIn_eq_zero_of_short (Nat.lt_of_lt_of_le hpl hL)
  rw [hnone, List.replicate_zero, logged_nil] at hread
  refine ⟨signal .resyncMalformed (cfRdPayload .ecf s.cfg.L s), ?_, ?_⟩
  · rw [handleResync, hread]
    exact if_pos (hlen.trans_lt hpl)
  · rw [hread]
    exact ⟨⟨hcont, hstore⟩, ⟨hpayload, hlen, hopcode, fun i hi => hslots i (hlen.trans_le hi)⟩, rfl⟩

end Rows

/-- Settles O31: the `ACK` is queued from the state in which the pause was asked for, which has the queues, the counters
and the wire of the first one. -/
theorem waitRowRequestsAPauseAndAcknowledges : Obligations.WaitRowRequestsAPauseAndAcknowledges := by
  unfold Obligations.WaitRowRequestsAPauseAndAcknowledges
  intro s hrx htx hready s' bs k
  obtain ⟨t, hrun, hkick, hslots, hconsumed, hrest⟩ :=
    enqueue_discard_spec (s := pauseAsked s) s.cfg.opAck [] hrx htx hready
  have hwait : handleWait s = .ok (.completed, t) := by
    rw [handleWait_eq, hrun]
    rfl
  exact ⟨_, exec_wait_ok hwait, hkick, hslots, hconsumed, congrArg (setRet (.frame .completed)) hrest⟩

/-- Settles O32: the kick runs from the state without the two flags, and the drop of the frame after it. -/
theorem resumeRowClearsThePauseAndKicks : Obligations.ResumeRowClearsThePauseAndKicks := by
  unfold Obligations.ResumeRowClearsThePauseAndKicks
  intro s hrx htx hready s'
  obtain ⟨u, hrun, hkick, hstore, -, -, -, hrest⟩ := tKick_spec (s := s') htx hready
  obtain ⟨r, hdrop, hconsumed⟩ := cfDiscard_after (u := u) hrx (by rw [hrest]) (by rw [hrest])
  have hresume : handleResume s = .ok (.completed, setRing .rxq r u) := by
    have htail : handleResume s = (tKick s').map (fun t => (.completed, cfDiscard t)) := rfl
    rw [htail, hrun, ← hdrop]
    rfl
  exact ⟨_, exec_resume_ok hresume, hkick, hstore, hconsumed,
    congrArg (fun v => setRet (.frame .completed) (setRing .rxq r v)) hrest⟩

/-- Settles O33: the drop of the frame, from the state without the flag. -/
theorem ackRowClearsWaitingAck : Obligations.AckRowClearsWaitingAck := by
  unfold Obligations.AckRowClearsWaitingAck
  intro s hrx
  obtain ⟨r, hdrop, hconsumed⟩ := cfDiscard_after (u := setWaitingAck false s) hrx rfl rfl
  refine ⟨_, exec_ack s, ?_⟩
  rw [hdrop]
  exact ⟨hconsumed, rfl⟩

/-- Settles O34: the payload has two bytes or more, or it is malformed. -/
theorem resyncRowAdoptsTheCounters : Obligations.ResyncRowAdoptsTheCounters := by
  unfold Obligations.ResyncRowAdoptsTheCounters
  intro s hrx hwf
  obtain ⟨-, hL, -, -⟩ := hwf
  have malformed : (payloadIn s.cfg.L s).length < 2 →
      ∃ t, exec .resync s = .next t ∧ FrameConsumed s t ∧ PayloadTaken .ecf s.cfg.L s t
        ∧ t = { s with
            rxq := t.rxq
            ecf := t.ecf
            conds := s.conds ++ [.resyncMalformed]
            ret := .frame .discarded } := by
    intro hshort
    obtain ⟨t, hrun, hconsumed, htaken, hrest⟩ := handleResync_malformed hrx hL hshort
    exact ⟨_, exec_resync_ok hrun, hconsumed, htaken, congrArg (setRet (.frame .discarded)) hrest⟩
  match hpl : payloadIn s.cfg.L s with
  | [] => exact malformed (by simp [hpl])
  | [_] => exact malformed (by simp [hpl])
  | x :: y :: _ =>
    obtain ⟨t, hrun, hconsumed, htaken, hrest⟩ := handleResync_adopts hrx hpl
    exact ⟨_, exec_resync_ok hrun, hconsumed, htaken, congrArg (setRet (.frame .completed)) hrest⟩

end Sys2Proof.Proofs
end

section
/-! Frame reception (R174 to R178, R185, R186): an accepted header hands the frame to the row its opcode decodes to, a
completed row is followed by the completion, and a refused stamp is answered with the counters of this side, which the
other side adopts. -/

namespace Sys2Proof.Proofs

open Sys2Proof Sys2Proof.Machine

section Reception

variable {s t u v : State} {op stamp x y : Byte} {body : List Byte}

/-! ### The outcome of `PE.FRAME` -/

theorem exec_peFrame (s : State) : exec .peFrame s = finish ((peFrame s).map (setRet .none)) := rfl

theorem finish_fault {e : Fault} {z : Except Fault State} (h : finish z = .fault e) : z = .error e := by
  cases z with
  | error e' => exact congrArg Except.error (Host.Outcome.fault.inj h)
  | ok u => cases h

theorem map_error {α β : Type} {e : Fault} {z : Except Fault α} {g : α → β} (h : z.map g = .error e) :
    z = .error e := by
  cases z with
  | error e' => exact congrArg Except.error (Except.error.inj h)
  | ok a => cases h

/-- Frame reception inside a handler, told by `PE.FRAME` as an operation of its own: the two differ in the result noted. -/
theorem finish_peFrame (s : State) :
    (∀ u, exec .peFrame s = .next u → finish (peFrame s) = .next { u with ret := s.ret }) ∧
      ∀ e, exec .peFrame s = .fault e → finish (peFrame s) = .fault e := by
  refine ⟨fun u h => ?next, fun e h => ?fault⟩
  case next =>
    obtain ⟨v, hv, rfl⟩ := finish_map_next h
    have hret : v.ret = s.ret := peFrame_ret hv
    rw [hv, ← hret]
    rfl
  case fault =>
    rw [map_error (finish_fault h)]
    rfl

/-! ### The row of the opcode, and the completion (R174, R178, R185) -/

theorem cfSetOpcode_ecf_self (h : s.ecf.opcode = op) : cfSetOpcode .ecf op s = s := by
  subst h
  rfl

/-- R178: behind a header that left `op` in `ECF.opcode`, the row that `op` decodes to is what the dispatch runs. -/
theorem exec_decodeOpcode_eq_dispatch (h : s.ecf.opcode = op) :
    exec (decodeOpcode s.cfg s.ls.waitingAck op) s = finish ((dispatch op s).map noteFrame) := by
  have app : ∀ {x : Byte}, x = op → cfSetOpcode .ecf x s = s := by
    rintro x rfl
    exact cfSetOpcode_ecf_self h
  unfold decodeOpcode dispatch classify
  split_ifs with hend hwait hresume hack hawaited hresync hescape
  · rfl
  · rfl
  · rfl
  · rfl
  · exact congrArg (fun v => finish (.ok (noteFrame (handleUnsolicited v)))) (app hack.symm)
  · rfl
  · exact congrArg (fun v => finish (.ok (noteFrame (handleApp v)))) (app hescape.symm)
  · exact congrArg (fun v => finish (.ok (noteFrame (handleApp v)))) (app rfl)

theorem cfRdSeq_ecf (s : State) : (cfRdSeq s).state.ecf = s.ecf := by
  rw [cfRdSeq_fields .hcf s]
  rfl

theorem opcode_of_headerAccepted (h : HeaderAccepted s op t) : t.ecf.opcode = op := by
  obtain ⟨-, rfl, hstamp⟩ := h
  split at hstamp
  · obtain ⟨-, -, rfl⟩ := hstamp
    rw [cfRdSeq_ecf]
  · rw [hstamp]

/-- R174 to R176: what `PE.FRAME` does with an accepted header. -/
theorem peFrame_accepted (h : HeaderAccepted s op t) : peFrame s = runFrame op t := by
  obtain ⟨hok, rfl, hstamp⟩ := h
  cases hn : s.cfg.numbering with
  | false =>
    rw [hn] at hstamp
    obtain rfl : t = (cfRdOpcode .ecf s).2 := hstamp
    simp only [peFrame, hok, hn, Bool.false_eq_true, if_false]
  | true =>
    rw [hn] at hstamp
    obtain ⟨hread, hright, rfl⟩ := hstamp
    simp only [peFrame, hok, hn, hread, hright, Bool.false_eq_true, if_false, if_true]

theorem runFrame_ok {r : FrameResult} (h : dispatch op s = .ok (r, t)) : runFrame op s = settleFrame (r, t) := by
  rw [runFrame, h]
  rfl

/-- The state after the completion (R185, R186): `SEQ_IN` advanced, and a peer that is held is sent a forced `RESUME`. -/
def afterCompletion (s : State) : State :=
  { s with
    seqIn := s.seqIn + 1
    seqOut := if s.ls.partnerWaiting then s.seqOut + 1 else s.seqOut
    ctx := if s.ls.partnerWaiting then
        .forcing s.cfg.opResume (frameTail s.cfg s.seqOut [s.seqOut, s.seqIn + 1]) .resumed
      else .idle }

theorem complete_idle (h : s.ctx = .idle) : complete s = .ok (afterCompletion s) := by
  by_cases hheld : s.ls.partnerWaiting = true
  · have hcomplete : complete s = sendResume (bumpSeqIn s) := if_pos hheld
    rw [hcomplete, afterCompletion, if_pos hheld, if_pos hheld]
    exact peForce_idle (s := bumpSeqOut (bumpSeqIn s)) h
  · have hcomplete : complete s = .ok (bumpSeqIn s) := if_neg hheld
    rw [hcomplete, afterCompletion, if_neg hheld, if_neg hheld, ← h]
    rfl

theorem runFrame_completed (h : dispatch op s = .ok (.completed, t)) (hctx : t.ctx = .idle) :
    runFrame op s = .ok (afterCompletion t) :=
  (runFrame_ok h).trans (complete_idle hctx)

/-! ### The header and the payload on the contents of `RXQ` (R157, R158, R176) -/

/-- The state in which a frame is dispatched: its header was read off `RXQ`, the opcode into `ECF`. -/
def headerTaken (op : Byte) (r : Ring) (s : State) : State :=
  setRing .rxq r (setFrame .ecf { s.ecf with opcode := op } s)

/-- R83, R159: the payload behind a header that was read. -/
theorem payloadIn_headerTaken {r : Ring} (hleft : contents .rxq s.cfg.N r = body) :
    payloadIn s.cfg.L (headerTaken op r s) = (beforeEnd s.cfg body).take s.cfg.L := by
  subst hleft
  exact congrArg (fun m => List.take m (beforeEnd s.cfg (contents .rxq s.cfg.N r))) (Nat.min_self _)

theorem excessIn_headerTaken {r : Ring} (hleft : contents .rxq s.cfg.N r = body) :
    excessIn s.cfg.L (headerTaken op r s) = (beforeEnd s.cfg body).length - s.cfg.L := by
  subst hleft
  exact congrArg (fun m => (beforeEnd s.cfg (contents .rxq s.cfg.N r)).length - m) (Nat.min_self _)

theorem cfRdOpcode_taken (ho : RingOk s.cfg.N s.rxq) (hcont : cont .rxq s = op :: body) (hop : op ≠ s.cfg.opEnd) :
    cfRdOpcode .ecf s = (.ok, headerTaken op (s.rxq.popped s.cfg.N) s) :=
  (cfRdOpcode_cons (f := .ecf) ho hcont).trans (if_neg hop)

/-- R158: the stamp is read behind the opcode. -/
theorem cfRdSeq_taken (ho : RingOk s.cfg.N s.rxq) (hcont : cont .rxq s = op :: stamp :: body) :
    ∃ r, cfRdSeq (headerTaken op (s.rxq.popped s.cfg.N) s) = { status := .ok, stamp, state := headerTaken op r s }
      ∧ RingOk s.cfg.N r ∧ r.store = s.rxq.store ∧ contents .rxq s.cfg.N r = body := by
  have hring := ho.popped (count_ne_zero (q := .rxq) hcont)
  have hleft : cont .rxq (headerTaken op (s.rxq.popped s.cfg.N) s) = stamp :: body := contents_popped_of_cont ho hcont
  exact ⟨_, cfRdSeq_cons hring hleft, hring.popped (count_ne_zero (q := .rxq) hleft), rfl,
    contents_popped_of_cont hring hleft⟩

/-- R174 to R176: a frame whose opcode is no terminator is accepted when its stamp, if it carries one, is the expected
one or it is a `RESYNC`. -/
theorem headerAccepted_of_cont (ho : RingOk s.cfg.N s.rxq) (hop : op ≠ s.cfg.opEnd)
    (hcont : cont .rxq s = op :: (if s.cfg.numbering then [stamp] else []) ++ body)
    (hright : stamp = s.seqIn ∨ op = s.cfg.opResync) :
    ∃ r, HeaderAccepted s op (headerTaken op r s)
      ∧ RingOk s.cfg.N r ∧ r.store = s.rxq.store ∧ contents .rxq s.cfg.N r = body := by
  have hread := cfRdOpcode_taken ho hcont hop
  cases hn : s.cfg.numbering with
  | false =>
    rw [hn] at hcont
    have hring := ho.popped (count_ne_zero (q := .rxq) hcont)
    refine ⟨_, ?_, hring, rfl, contents_popped_of_cont ho hcont⟩
    rw [HeaderAccepted, hread, hn]
    exact ⟨rfl, rfl, rfl⟩
  | true =>
    rw [hn] at hcont
    obtain ⟨r, hseq, hring, hstore, hleft⟩ := cfRdSeq_taken ho hcont
    refine ⟨r, ?_, hring, hstore, hleft⟩
    have hpass : stampRefused stamp op (headerTaken op r s) = false := by
      rcases hright with rfl | rfl <;> simp [stampRefused, headerTaken]
    rw [HeaderAccepted, hread, hn, hseq]
    exact ⟨rfl, rfl, rfl, hpass, rfl⟩

/-- R176: a frame that is no `RESYNC` is refused at a wrong stamp. -/
theorem peFrame_refused (ho : RingOk s.cfg.N s.rxq) (hn : s.cfg.numbering = true)
    (hcont : cont .rxq s = op :: stamp :: body) (hop : op ≠ s.cfg.opEnd) (hresync : op ≠ s.cfg.opResync)
    (hwrong : stamp ≠ s.seqIn) :
    ∃ r, peFrame s = rejectFrame stamp (headerTaken op r s)
      ∧ RingOk s.cfg.N r ∧ r.store = s.rxq.store ∧ contents .rxq s.cfg.N r = body := by
  have hread := cfRdOpcode_taken ho hcont hop
  obtain ⟨r, hseq, hring, hstore, hleft⟩ := cfRdSeq_taken ho hcont
  have hrefused : stampRefused stamp op (headerTaken op r s) = true := by
    simp [stampRefused, headerTaken, hresync, hwrong]
  refine ⟨r, ?_, hring, hstore, hleft⟩
  have hopcode : (headerTaken op (s.rxq.popped s.cfg.N) s).ecf.opcode = op := rfl
  simp only [peFrame, hread, hn, hseq, hopcode, hrefused, if_true]

theorem rejectFrame_eq (stamp : Byte) (s : State) :
    rejectFrame stamp s
      = (cfEncodeAndEnqueue s.cfg.opResync [s.seqOut, s.seqIn] (signal (.seqMismatch stamp s.seqIn) s)).map
          (fun p => cfDiscard p.2) := by
  have hreject : rejectFrame stamp s
      = ((cfEncodeAndEnqueue s.cfg.opResync [s.seqOut, s.seqIn] (signal (.seqMismatch stamp s.seqIn) s)).map
          Prod.snd).map cfDiscard := rfl
  rw [hreject]
  cases cfEncodeAndEnqueue s.cfg.opResync [s.seqOut, s.seqIn] (signal (.seqMismatch stamp s.seqIn) s) <;> rfl

/-! ### Both sides of the handshake (R193) -/

/-- R130: a kick moves a byte from the queue to the wire, so what both hold stays. -/
theorem wire_append_cont_of_kickedWith {c : List Byte} (h : KickedWith c s t) :
    t.wireOut ++ cont .txq t = s.wireOut ++ c := by
  unfold KickedWith at h
  split at h
  · obtain ⟨hcont, hwire, -, -⟩ := h
    rw [hcont, hwire, List.append_assoc, ← List.drop_one, List.take_append_drop]
  · obtain ⟨hcont, hwire, -, -⟩ := h
    rw [hcont, hwire]

theorem dispatch_resync (hwf : s.cfg.wf) : dispatch s.cfg.opResync s = .ok (handleResync s) := by
  rw [dispatch, classify_opResync hwf]

theorem dispatch_app (hop : op ∉ s.cfg.reserved) : dispatch op s = .ok (handleApp s) := by
  rw [dispatch, classify_app hop]

/-- R182, R185: a numbered `RESYNC` frame whose counters are no terminators is accepted with any stamp; the receiver
then expects the number after `x` and stamps `y` next, or the number after `y` if it answers with a forced `RESUME`. -/
theorem peFrame_resync (ho : RingOk s.cfg.N s.rxq) (hwf : s.cfg.wf) (hctx : s.ctx = .idle)
    (hn : s.cfg.numbering = true) (hx : x ≠ s.cfg.opEnd) (hy : y ≠ s.cfg.opEnd)
    (hcont : cont .rxq s = [s.cfg.opResync, stamp, x, y, s.cfg.opEnd]) :
    ∃ t, peFrame s = .ok t ∧ t.seqIn = x + 1 ∧ t.seqOut = if s.ls.partnerWaiting then y + 1 else y := by
  have ⟨_, hL, _, _⟩ := hwf
  obtain ⟨-, -, -, ⟨hop, -⟩, -⟩ := reserved_distinct hwf
  have hframe : cont .rxq s
      = s.cfg.opResync :: (if s.cfg.numbering then [stamp] else []) ++ ([x, y] ++ [s.cfg.opEnd]) := by
    rw [hcont, hn]
    rfl
  obtain ⟨r, haccepted, hring, -, hleft⟩ := headerAccepted_of_cont ho hop hframe (.inr rfl)
  have hpl : payloadIn s.cfg.L (headerTaken s.cfg.opResync r s) = [x, y] := by
    have hend : s.cfg.opEnd ∉ [x, y] := by simp [hx.symm, hy.symm]
    calc payloadIn s.cfg.L (headerTaken s.cfg.opResync r s)
        = (beforeEnd s.cfg ([x, y] ++ [s.cfg.opEnd])).take s.cfg.L := payloadIn_headerTaken hleft
      _ = [x, y] := by rw [beforeEnd_append hend, List.take_of_length_le (by simpa using hL)]
  obtain ⟨u, hrun, -, -, hrest⟩ := handleResync_adopts (s := headerTaken s.cfg.opResync r s) hring hpl
  have hidle : u.ctx = .idle := by rw [hrest]; exact hctx
  have hdispatch := (dispatch_resync (s := headerTaken s.cfg.opResync r s) hwf).trans (congrArg Except.ok hrun)
  refine ⟨_, (peFrame_accepted haccepted).trans (runFrame_completed hdispatch hidle), ?_, ?_⟩
  · rw [hrest]
    rfl
  · rw [hrest]
    rfl

end Reception

/-- Settles O5: the row and the dispatch are one computation, whose result decides on the completion. -/
theorem frameReceptionRunsTheDecodedRow : Obligations.FrameReceptionRunsTheDecodedRow := by
  unfold Obligations.FrameReceptionRunsTheDecodedRow
  intro s s1 op haccepted
  rw [exec_decodeOpcode_eq_dispatch (opcode_of_headerAccepted haccepted), exec_peFrame, peFrame_accepted haccepted]
  refine ⟨fun t ht => ?next, fun e he => ?fault⟩
  case next =>
    obtain ⟨⟨r, u⟩, hdispatch, rfl⟩ := finish_map_next ht
    rw [runFrame_ok hdispatch]
    cases r with
    | completed =>
      refine ⟨fun _ => ?_, (fun hret => nomatch hret), .inl rfl⟩
      have hcomplete : complete (noteFrame (.completed, u)) = (complete u).map (setRet (.frame .completed)) :=
        complete_setRet _ u
      rw [hcomplete, settleFrame]
      cases complete u <;> rfl
    | discarded => exact ⟨(fun hret => nomatch hret), fun _ => rfl, .inr rfl⟩
  case fault =>
    rw [runFrame, map_error (finish_fault he)]
    rfl

/-- Settles O37: behind the header, the `RESYNC` is queued from the state in which the mismatch was named, and the rest of
the frame dropped. -/
theorem wrongStampDrawsOneResync : Obligations.WrongStampDrawsOneResync := by
  unfold Obligations.WrongStampDrawsOneResync
  intro s op stamp body hrx htx hready hn hcont hop hresync hwrong bs k
  obtain ⟨r, hrefused, hring, hstore, hleft⟩ := peFrame_refused hrx hn hcont hop hresync hwrong
  rw [rejectFrame_eq] at hrefused
  obtain ⟨t, hrun, hkick, hslots, ⟨hafter, hkept⟩, hrest⟩ :=
    enqueue_discard_spec (s := signal (.seqMismatch stamp s.seqIn) (headerTaken op r s)) s.cfg.opResync
      [s.seqOut, s.seqIn] hring htx hready
  have hbody : cont .rxq (signal (.seqMismatch stamp s.seqIn) (headerTaken op r s)) = body := hleft
  rw [hbody] at hafter
  exact ⟨_, exec_peFrame_ok (hrefused.trans hrun), hkick, hslots, hafter, hkept.trans hstore,
    congrArg (setRet .none) hrest⟩

/-- Settles O38: the header is accepted, the application handler takes the frame, and the completion follows. -/
theorem acceptedApplicationFrameCompletes : Obligations.AcceptedApplicationFrameCompletes := by
  unfold Obligations.AcceptedApplicationFrameCompletes
  intro s op body hrx hctx hwell hcont pl
  have happ : op ∉ s.cfg.reserved := by simpa [wellFormed] using hwell
  have hop : op ≠ s.cfg.opEnd := by
    rintro rfl
    exact happ (by simp [Config.reserved])
  obtain ⟨r, haccepted, hring, hstore, hleft⟩ := headerAccepted_of_cont hrx hop hcont (.inl rfl)
  obtain ⟨u, hrun, ⟨hafter, hkept⟩, ⟨hpayload, hlen, hopcode, hslots⟩, hrest⟩ :=
    handleApp_spec (s := headerTaken op r s) hring
  have hbody : cont .rxq (headerTaken op r s) = body := hleft
  have hpl : payloadIn (headerTaken op r s).cfg.L (headerTaken op r s) = pl := payloadIn_headerTaken hleft
  have hexcess : excessIn (headerTaken op r s).cfg.L (headerTaken op r s) = (beforeEnd s.cfg body).length - s.cfg.L :=
    excessIn_headerTaken hleft
  rw [hbody] at hafter
  rw [hpl] at hpayload hlen hslots hrest
  rw [hexcess] at hrest
  have hidle : u.ctx = .idle := by rw [hrest]; exact hctx
  have hdispatch := (dispatch_app (s := headerTaken op r s) happ).trans (congrArg Except.ok hrun)
  have hframe := (peFrame_accepted haccepted).trans (runFrame_completed hdispatch hidle)
  exact ⟨_, exec_peFrame_ok hframe, hafter, hkept.trans hstore, Prod.ext hopcode hpayload, hlen, hslots,
    congrArg (fun v => setRet .none (afterCompletion v)) hrest⟩

/-- Settles O41: the reply is queued whole, so it is what the wire and `TXQ` gained, and the other side adopts it. -/
theorem resyncMakesTheTwoSidesAgree : Obligations.ResyncMakesTheTwoSidesAgree := by
  unfold Obligations.ResyncMakesTheTwoSidesAgree
  intro a b op stamp body hwfb hnb hna hL hresync hend hnodup hrx htx hready hroom hcont hop hnot hwrong hout hin
  obtain ⟨b', hrun, hkick, -, -, -, hrest⟩ :=
    wrongStampDrawsOneResync b op stamp body hrx htx hready hnb hcont hop hnot hwrong
  have hlen : (frameBytes b.cfg b.seqOut b.cfg.opResync [b.seqOut, b.seqIn]).length = 5 := by
    rw [frameBytes_length, Config.flen, Config.sb, hnb]
    rfl
  have hfits : min 5 (b.cfg.N - b.txq.count) = 5 := Nat.min_eq_left (Nat.le_sub_of_add_le' hroom)
  rw [hlen, hfits] at hrest hkick
  have hwhole : (frameBytes b.cfg b.seqOut b.cfg.opResync [b.seqOut, b.seqIn]).take 5 = _ :=
    List.take_of_length_le hlen.le
  rw [hwhole] at hkick
  have hnext : b'.seqOut = b.seqOut + 1 := by rw [hrest]; rfl
  have hkept : b'.seqIn = b.seqIn := by rw [hrest]
  refine ⟨b', hrun, hkept, _, (wire_append_cont_of_kickedWith hkick).trans (List.append_assoc _ _ _).symm, ?_⟩
  intro hra hctx hgot
  have hwfa : a.cfg.wf := by
    obtain ⟨-, hL2, hL255, -⟩ := hwfb
    obtain ⟨-, -, hhead, -⟩ := hra
    exact ⟨Nat.one_le_of_lt hhead, hL.symm ▸ hL2, hL.symm ▸ hL255, hnodup⟩
  have hreply : cont .rxq a = [a.cfg.opResync, b.seqOut, b.seqOut, b.seqIn, a.cfg.opEnd] := by
    rw [hgot, hresync, hend, frameBytes, frameTail, hnb]
    rfl
  rw [← hend] at hout hin
  obtain ⟨a', hframe, hain, haout⟩ := peFrame_resync hra hwfa hctx hna hout hin hreply
  refine ⟨_, exec_peFrame_ok hframe, hain.trans hnext.symm, fun hfree => ?_⟩
  have hcrossed : a'.seqOut = b.seqIn := by rw [haout, hfree]; rfl
  exact hcrossed.trans hkept.symm

end Sys2Proof.Proofs
end

section
/-! The receive-complete handler and the spin (R170 to R173, R187, R214, R215): one byte read or handed off, and then the
engine in the same transaction. -/

namespace Sys2Proof.Proofs

open Sys2Proof Sys2Proof.Machine

section Bytes

variable {s : State} {b d : Byte} {rest : List Byte} {k : Kont}

/-! ### The receive-complete handler (R170 to R172) -/

theorem serveIrq_enabled {src : IrqSource} {handler : State → Except Fault State} (h : irqEnabled src s = true) :
    serveIrq src handler s = handler (handlerEntry src s) := by
  rw [serveIrq, if_pos h]
  cases handler (handlerEntry src s) <;> rfl

theorem exec_peRxc_enabled (hctx : s.ctx = .idle) (hfull : s.periph.rxFull = true) :
    exec .peRxc s = finish (rxcHandler s) :=
  congrArg finish (serveIrq_enabled (irqEnabled_rxc.mpr ⟨hctx, hfull⟩))

theorem frameTail_nil (c : Config) (stamp : Byte) :
    frameTail c stamp [] = (if c.numbering then [stamp] else []) ++ [c.opEnd] := by
  rw [frameTail, List.append_nil]

theorem rxcStored_end (h : b = s.cfg.opEnd) : rxcStored b s = peFrame s := if_pos h

theorem rxcStored_other (h : b ≠ s.cfg.opEnd) : rxcStored b s = .ok s := if_neg h

/-! ### The spin and the continuations (R173, R187, R214) -/

theorem exec_spin_ready (hctx : s.ctx = .forcing b rest k) (hready : s.periph.txBusy = false) :
    exec .spin s = finish (spinAdvance rest k (handed b s)) :=
  congrArg finish (spinStep_ready hctx hready)

theorem kontOvf_end (h : d = s.cfg.opEnd) : kontOvf d s = peFrame s := if_pos h

theorem kontOvf_other (h : d ≠ s.cfg.opEnd) :
    kontOvf d s = .ok { s with seqIn := if s.cfg.ovfNontermAdvancesSeq then s.seqIn + 1 else s.seqIn } := by
  rw [kontOvf, if_neg h]
  split <;> rfl

/-- R130, R187: the kick of the continuation finds a byte in flight. -/
theorem kontResumed_transmitting (h : s.ls.transmitting = true) : kontResumed s = .ok (setPartnerWaiting false s) := by
  have hnone : kickReady s = false := by simp [kickReady, h]
  rw [kontResumed, tBeginTransmit, tKick, hnone]
  rfl

end Bytes

/-- Settles O39: the byte is pushed, and the test on its value decides on frame reception. -/
theorem receivedByteIsStored : Obligations.ReceivedByteIsStored := by
  unfold Obligations.ReceivedByteIsStored
  intro s ho hctx hfull hroom
  have hrun := (exec_peRxc_enabled hctx hfull).trans (congrArg finish (rxcHandler_room hfull hroom))
  refine ⟨setRing .rxq (s.rxq.pushed s.cfg.N s.periph.rxData) (receiveByte s), contents_pushed ho hroom,
    fun i hi => pushed_slots (q := .rxq) ho hi, rfl, fun hother => ?other, fun hend => ?terminator⟩
  case other =>
    rw [hrun, rxcStored_other (s := setRing .rxq _ (receiveByte s)) hother]
    rfl
  case terminator =>
    rw [hrun, rxcStored_end (s := setRing .rxq _ (receiveByte s)) hend]
    exact finish_peFrame _

/-- Settles O40: the byte is read and dropped, and the forced `WAIT` suspends the handler. -/
theorem overflowForcesAWait : Obligations.OverflowForcesAWait := by
  unfold Obligations.OverflowForcesAWait
  intro s hctx hfull hcount
  have hforce : rxcOverflow s.periph.rxData (receiveByte s) = .ok _ := if_pos hctx
  rw [exec_peRxc_enabled hctx hfull, rxcHandler_full hfull hcount, hforce]
  rw [← frameTail_nil s.cfg s.seqOut]
  rfl

/-- Settles O44: a busy peripheral, a byte left to force, and the end of the list with each of its continuations. -/
theorem spinHandsOffAndResumesTheHandler : Obligations.SpinHandsOffAndResumesTheHandler := by
  unfold Obligations.SpinHandsOffAndResumesTheHandler
  intro s b rest k hctx sent
  refine ⟨exec_spin_busy, ?more, ?resumed, ?overflowOther, ?overflowEnd⟩
  case more =>
    rintro b' rest' hready rfl
    rw [exec_spin_ready hctx hready]
    rfl
  case resumed =>
    rintro hready rfl rfl
    have hkont : runKont .resumed sent = .ok (setPartnerWaiting false sent) := kontResumed_transmitting rfl
    exact (exec_spin_ready hctx hready).trans (congrArg finish hkont)
  case overflowOther =>
    rintro d hready rfl rfl hother
    have hkont : runKont (.ovf d) sent = .ok _ := kontOvf_other hother
    exact (exec_spin_ready hctx hready).trans (congrArg finish hkont)
  case overflowEnd =>
    rintro d hready rfl rfl hend
    have hkont : runKont (.ovf d) sent = peFrame sent := kontOvf_end hend
    have hspin : exec .spin s = finish (peFrame sent) :=
      (exec_spin_ready hctx hready).trans (congrArg finish hkont)
    rw [hspin]
    exact finish_peFrame sent

end Sys2Proof.Proofs
end

section
/-! The transmit handlers and the pump (R210 to R212, R248, R249, R264): what one entry of each handler leaves, what one
turn of the pump does, and by induction over `TXQ` what all its turns do. -/

namespace Sys2Proof.Proofs

open Sys2Proof Sys2Proof.Machine

section Pump

variable {s t : State} {x : Byte} {l : List Byte}

/-! ### The transmit-complete handler (R210, R248) -/

theorem exec_peTxc_enabled (hctx : s.ctx = .idle) (hflag : s.periph.txcFlag = true) :
    exec .peTxc s = .next (txcHandler (handlerEntry .txc s)) :=
  congrArg finish (serveIrq_enabled (irqEnabled_txc.mpr ⟨hctx, hflag⟩))

theorem txcHandler_requested (h : s.ls.requestSelfWait = true) :
    txcHandler s = setDreIe true (if headIsEnd s then setSelfWaiting true (setRequestSelfWait false s) else s) :=
  if_pos h

theorem txcHandler_paused (hreq : s.ls.requestSelfWait = false) (hself : s.ls.selfWaiting = true) :
    txcHandler s = if isTransmitReady s then setTransmitting false s else s := by
  rw [txcHandler, hreq, hself]
  rfl

theorem txcHandler_unpaused (hreq : s.ls.requestSelfWait = false) (hself : s.ls.selfWaiting = false) :
    txcHandler s = setDreIe true s := by
  rw [txcHandler, hreq, hself]
  rfl

/-- R210: what the handler does to `DRE_IE`. -/
def txcDreIe (s : State) : Bool := if s.ls.selfWaiting && !s.ls.requestSelfWait then s.dreIe else true

/-- R210: what the handler does to `LS`, its test on the value of the oldest byte of `TXQ`. -/
def txcLinkStatus (s : State) : LinkStatus :=
  if s.ls.requestSelfWait then
    (if (cont .txq s).head? = some s.cfg.opEnd then { s.ls with requestSelfWait := false, selfWaiting := true }
    else s.ls)
  else if s.ls.selfWaiting && !s.periph.txBusy then { s.ls with transmitting := false }
  else s.ls

theorem txcHandler_eq (ho : RingOk s.cfg.N s.txq) :
    txcHandler s = { s with dreIe := txcDreIe s, ls := txcLinkStatus s } := by
  cases hreq : s.ls.requestSelfWait with
  | true =>
    rw [txcHandler_requested hreq, headIsEnd_eq ho]
    by_cases hend : (cont .txq s).head? = some s.cfg.opEnd <;>
      simp [txcDreIe, txcLinkStatus, hreq, hend, setDreIe, setSelfWaiting, setRequestSelfWait]
  | false =>
    cases hself : s.ls.selfWaiting with
    | true =>
      rw [txcHandler_paused hreq hself]
      cases hbusy : s.periph.txBusy <;>
        simp [txcDreIe, txcLinkStatus, hreq, hself, hbusy, isTransmitReady, setTransmitting]
    | false =>
      rw [txcHandler_unpaused hreq hself]
      simp [txcDreIe, txcLinkStatus, hreq, hself, setDreIe]

/-! ### The data-register-empty handler (R211, R249) -/

theorem exec_peDre_enabled (hctx : s.ctx = .idle) (hie : s.dreIe = true) (hready : s.periph.txBusy = false) :
    exec .peDre s = finish (dreHandler s) :=
  congrArg finish (serveIrq_enabled (irqEnabled_dre.mpr ⟨hctx, hie, hready⟩))

/-- The state after `PE.DRE` pulled the byte `x`. -/
def pulled (x : Byte) (s : State) : State := setDreIe false (handed x (setRing .txq (s.txq.popped s.cfg.N) s))

theorem exec_peDre_cons (ho : RingOk s.cfg.N s.txq) (hctx : s.ctx = .idle) (hie : s.dreIe = true)
    (hready : s.periph.txBusy = false) (hcont : cont .txq s = x :: l) :
    exec .peDre s = .next (pulled x s) := by
  obtain ⟨hdrive, -, -⟩ := tDriveTx_cons ho hcont hready
  rw [exec_peDre_enabled hctx hie hready, dreHandler, hdrive]
  rfl

theorem exec_peDre_nil (hctx : s.ctx = .idle) (hie : s.dreIe = true) (hready : s.periph.txBusy = false)
    (hnil : cont .txq s = []) :
    exec .peDre s = .next (setDreIe false (setTransmitting false s)) := by
  rw [exec_peDre_enabled hctx hie hready, dreHandler, tDriveTx_nil hnil]
  rfl

theorem cont_pulled (ho : RingOk s.cfg.N s.txq) (hcont : cont .txq s = x :: l) : cont .txq (pulled x s) = l := by
  obtain ⟨-, hrest, -⟩ := rbPop_cons (q := .txq) ho hcont
  rwa [cont_setRing] at hrest

theorem ringOk_pulled (ho : RingOk s.cfg.N s.txq) (hcont : cont .txq s = x :: l) :
    RingOk (pulled x s).cfg.N (pulled x s).txq :=
  ho.popped (count_ne_zero (q := .txq) hcont)

/-! ### One turn of the pump (R212) -/

theorem exec_periphTxDone_busy (h : s.periph.txBusy = true) : exec .periphTxDone s = .next (periphFinish s) := if_pos h

/-- Where the pump's turn starts: a byte in flight and nothing that pauses (R29, R31). -/
structure Pumping (s : State) : Prop where
  txq : RingOk s.cfg.N s.txq
  ctx : s.ctx = .idle
  busy : s.periph.txBusy = true
  unrequested : s.ls.requestSelfWait = false
  unpaused : s.ls.selfWaiting = false

/-- The state after the byte in flight finished and `PE.TXC` armed the data-register-empty interrupt. -/
def armed (s : State) : State := setDreIe true (handlerEntry .txc (periphFinish s))

theorem pumping_pulled_armed (h : Pumping s) (hcont : cont .txq s = x :: l) : Pumping (pulled x (armed s)) where
  txq := ringOk_pulled (s := armed s) h.txq hcont
  ctx := h.ctx
  busy := rfl
  unrequested := h.unrequested
  unpaused := h.unpaused

/-- The schedule only names the agent; its operation carries the rest of the schedule along. -/
theorem run_turn {a : Agent} {rest : List Agent} {n : Nat}
    (h : runAgent a (withSched rest s) = .next (withSched rest t)) :
    Host.Core.run Sys2Proof.core (n + 1) (withSched (a :: rest) s)
      = Host.Core.run Sys2Proof.core n (withSched rest t) :=
  run_succ (M := Sys2Proof.core) ((step_of_sched_cons (s := withSched (a :: rest) s) rfl).trans h)

/-- The first two steps of a turn: `TX_DONE`, then `PE.TXC` with no pause. -/
theorem run_txDone_txc (h : Pumping s) (rest : List Agent) (n : Nat) :
    Host.Core.run Sys2Proof.core (n + 2) (withSched (.txDone :: .txc :: rest) s)
      = Host.Core.run Sys2Proof.core n (withSched rest (armed s)) := by
  have hdone : runAgent .txDone (withSched (.txc :: rest) s) = .next (withSched (.txc :: rest) (periphFinish s)) :=
    exec_periphTxDone_busy (s := withSched _ s) h.busy
  have htxc : runAgent .txc (withSched rest (periphFinish s)) = .next (withSched rest (armed s)) :=
    (exec_peTxc_enabled (s := withSched rest (periphFinish s)) h.ctx rfl).trans
      (congrArg Host.Outcome.next (txcHandler_unpaused h.unrequested h.unpaused))
  rw [run_turn hdone, run_turn htxc]

theorem run_pumpTurn_cons (h : Pumping s) (hcont : cont .txq s = x :: l) (rest : List Agent) (n : Nat) :
    Host.Core.run Sys2Proof.core (n + 3) (withSched (pumpTurn ++ rest) s)
      = Host.Core.run Sys2Proof.core n (withSched rest (pulled x (armed s))) := by
  have hdre : runAgent .dre (withSched rest (armed s)) = .next (withSched rest (pulled x (armed s))) :=
    exec_peDre_cons (s := withSched rest (armed s)) h.txq h.ctx rfl rfl hcont
  exact (run_txDone_txc h (.dre :: rest) (n + 1)).trans (run_turn hdre)

theorem run_pumpTurn_nil (h : Pumping s) (hnil : cont .txq s = []) :
    Host.Core.run Sys2Proof.core 3 (withSched pumpTurn s)
      = .next (withSched [] (setDreIe false (setTransmitting false (armed s)))) := by
  have hdre : runAgent .dre (withSched [] (armed s))
      = .next (withSched [] (setDreIe false (setTransmitting false (armed s)))) :=
    exec_peDre_nil (s := withSched [] (armed s)) h.ctx rfl rfl hnil
  exact (run_txDone_txc h [.dre] 1).trans (run_turn hdre)

/-! ### All turns of the pump (R212) -/

/-- What the pump leaves when `TXQ` held `l`: the queue empty, its bytes on the wire, and on the link behind the byte
that was in flight; the transport idle and disarmed. -/
structure Drained (l : List Byte) (s t : State) : Prop where
  empty : cont .txq t = []
  rest : t = { s with
    txq := t.txq
    wireOut := s.wireOut ++ l
    linkOut := s.linkOut ++ s.periph.txData :: l
    ls := { s.ls with transmitting := false }
    dreIe := false
    periph := { s.periph with txBusy := false, txcFlag := false, txData := t.periph.txData }
    sched := [] }

theorem drained_nil (hnil : cont .txq s = []) :
    Drained [] s (withSched [] (setDreIe false (setTransmitting false (armed s)))) where
  empty := hnil
  rest := by rw [List.append_nil]; rfl

theorem pulled_armed_eq (x : Byte) (s : State) :
    pulled x (armed s) = { s with
      txq := s.txq.popped s.cfg.N
      wireOut := s.wireOut ++ [x]
      linkOut := s.linkOut ++ [s.periph.txData]
      ls := { s.ls with transmitting := true }
      dreIe := false
      periph := { s.periph with txBusy := true, txcFlag := false, txData := x } } := rfl

theorem Drained.cons (h : Drained l (pulled x (armed s)) t) : Drained (x :: l) s t where
  empty := h.empty
  rest := by
    have hrest := h.rest
    simp only [pulled_armed_eq, List.append_assoc, List.cons_append, List.nil_append] at hrest
    exact hrest

/-- R212: one turn for each byte of `TXQ`, and the last one finds it empty. -/
theorem run_pumpTurns (l : List Byte) (h : Pumping s) (hcont : cont .txq s = l) :
    ∃ t, Host.Core.run Sys2Proof.core (3 * (l.length + 1)) (withSched (pumpTurns (l.length + 1)) s) = .next t
      ∧ Drained l s t := by
  induction l generalizing s with
  | nil => exact ⟨_, run_pumpTurn_nil h hcont, drained_nil hcont⟩
  | cons x l ih =>
    obtain ⟨t, hrun, hdrained⟩ := ih (pumping_pulled_armed h hcont) (cont_pulled (s := armed s) h.txq hcont)
    exact ⟨t, (run_pumpTurn_cons h hcont _ _).trans hrun, hdrained.cons⟩

end Pump

/-- Settles O46: by induction on the contents of `TXQ`, one turn of the pump for each byte. -/
theorem pumpDrainsTheTransmitQueue : Obligations.PumpDrainsTheTransmitQueue := by
  unfold Obligations.PumpDrainsTheTransmitQueue
  intro s ho hctx hbusy hreq hself
  obtain ⟨t, hrun, hempty, hrest⟩ := run_pumpTurns (cont .txq s) ⟨ho, hctx, hbusy, hreq, hself⟩ rfl
  rw [cont_length] at hrun
  refine ⟨t, hrun, ?_⟩
  rw [hrest] at hempty ⊢
  exact ⟨rfl, rfl, hempty, rfl, rfl, rfl, rfl, rfl, rfl⟩

/-- Settles O42: the handler is entered, its request cleared, and its branch is the one of the two pause flags. -/
theorem transmitCompleteTakesThePauseBranch : Obligations.TransmitCompleteTakesThePauseBranch := by
  unfold Obligations.TransmitCompleteTakesThePauseBranch
  intro s ho hctx hflag
  rw [exec_peTxc_enabled hctx hflag, txcHandler_eq (s := handlerEntry .txc s) ho]
  rfl

/-- Settles O43: the handler pulls the oldest byte, or on an empty queue only clears `LS.TRANSMITTING`. -/
theorem dataEmptyPullsOneByteAndDisarms : Obligations.DataEmptyPullsOneByteAndDisarms := by
  unfold Obligations.DataEmptyPullsOneByteAndDisarms
  intro s ho hctx hie hready
  refine ⟨fun x l hcont => ?held, exec_peDre_nil hctx hie hready⟩
  case held => exact ⟨_, exec_peDre_cons ho hctx hie hready hcont, cont_pulled ho hcont, rfl, rfl⟩

end Sys2Proof.Proofs
end

section
/-! The two link streams of a node (R264, R266, R270): only the two steps of its peripheral move them, so that the
streams of a two-node system carry only the bytes of its nodes (R271, R290). -/

namespace Sys2Proof.Proofs

open Sys2Proof Sys2Proof.Machine

/-! ### The steps of the peripheral (R264, R266) -/

theorem exec_periphDeliver_enabled {s : State} {b : Byte} {l : List Byte} (hempty : s.periph.rxFull = false)
    (hin : s.linkIn = b :: l) :
    exec (.periphDeliver b) s
      = .next { s with periph := { s.periph with rxFull := true, rxData := b }, linkIn := l } := by
  have htaken : exec (.periphDeliver b) s = .next (periphReceive b s) := if_pos (by simp [hempty, hin])
  rw [htaken, periphReceive, hin, List.drop_one, List.tail_cons]

/-- Settles O45: the enabled case of each of the two steps. -/
theorem peripheralStepsFinishAndDeliver : Obligations.PeripheralStepsFinishAndDeliver := by
  unfold Obligations.PeripheralStepsFinishAndDeliver
  intro s
  exact ⟨exec_periphTxDone_busy, fun _ _ => exec_periphDeliver_enabled⟩

section Link

variable {s t : State} {a : Agent}

/-! ### What leaves the link streams as they are -/

/-- The node's own halves of the two streams (R271). -/
def link (s : State) : List Byte × List Byte := (s.linkIn, s.linkOut)

theorem link_of_sendsOnly (h : SendsOnly s t) : link t = link s := by rw [h.1]; rfl

theorem link_of_readsOnly {f : FrameId} (h : ReadsOnly f s t) : link t = link s := by
  rw [h]
  cases f <;> rfl

theorem link_of_engineOnly (h : EngineOnly s t) : link t = link s := by rw [h.rest]; rfl

theorem link_of_hostRan {i : Instr} (h : HostRan i s t) : link t = link s := by
  cases h with
  | init _ ht => rw [ht]; rfl
  | read hread => exact link_of_readsOnly hread
  | sent hsends _ _ => exact (link_of_sendsOnly hsends :)

theorem link_of_exec_request {i : Instr} {r : HostReq} (hcode : encodeRequest i = some r) (h : exec i s = .next t) :
    link t = link s := by
  rcases exec_request_next hcode h with rfl | ⟨-, hrun⟩
  · rfl
  · obtain ⟨_, u, rfl, hran⟩ := hostRun_ok hrun
    exact (link_of_hostRan hran :)

theorem link_of_serveHost (h : serveHost s = .next t) : link t = link s := by
  cases hq : s.hostQ with
  | nil =>
    rw [serveHost_nil hq] at h
    exact Host.Outcome.next.inj h ▸ rfl
  | cons r rs =>
    rw [serveHost_cons hq] at h
    split at h
    · obtain ⟨_, hcode⟩ := exists_encodeRequest_decodeRequest r
      exact link_of_exec_request (s := { s with hostQ := rs }) hcode h
    · exact Host.Outcome.next.inj h ▸ rfl

theorem link_of_exec_peRxc (h : exec .peRxc s = .next t) : link t = link s := by
  rcases exec_peRxc_next h with rfl | h
  · rfl
  · rcases rxcHandler_ok h with ⟨_, hengine⟩ | hengine <;> exact (link_of_engineOnly hengine :)

theorem link_txcHandler (s : State) : link (txcHandler s) = link s := by
  unfold txcHandler
  split
  · split <;> rfl
  · split
    · split <;> rfl
    · rfl

theorem link_of_exec_peTxc (h : exec .peTxc s = .next t) : link t = link s := by
  rcases exec_peTxc_next h with rfl | rfl
  · rfl
  · exact link_txcHandler (handlerEntry .txc s)

theorem link_of_exec_peDre (h : exec .peDre s = .next t) : link t = link s := by
  rcases exec_peDre_next h with rfl | h
  · rfl
  · obtain ⟨u, rfl, rfl | hsends⟩ := dreHandler_ok h
    · rfl
    · exact (link_of_sendsOnly hsends :)

theorem link_of_exec_spin (h : exec .spin s = .next t) : link t = link s := by
  rcases spinStep_ok (finish_next h) with hengine | ⟨u, hengine, rfl⟩ <;> exact (link_of_engineOnly hengine :)

/-! ### One turn of a node -/

/-- What a turn does to the node's halves of the two streams: nothing, or the byte in flight finishes and joins the
outbound half, or the first byte of the inbound half becomes the waiting byte. -/
inductive LinkTurn (s t : State) : Prop
  | kept (h : link t = link s)
  | finished (hbusy : s.periph.txBusy = true) (hready : t.periph.txBusy = false) (hin : t.linkIn = s.linkIn)
      (hout : t.linkOut = s.linkOut ++ [s.periph.txData])
  | took (hempty : s.periph.rxFull = false) (hfull : t.periph.rxFull = true)
      (hin : s.linkIn = t.periph.rxData :: t.linkIn) (hout : t.linkOut = s.linkOut)

theorem linkTurn_txDone (h : exec .periphTxDone s = .next t) : LinkTurn s t := by
  cases hbusy : s.periph.txBusy with
  | true =>
    obtain rfl := Host.Outcome.next.inj ((exec_periphTxDone_busy hbusy).symm.trans h)
    exact .finished hbusy rfl rfl rfl
  | false =>
    obtain rfl := Host.Outcome.next.inj ((exec_periphTxDone_ready hbusy).symm.trans h)
    exact .kept rfl

theorem linkTurn_serveDeliver (h : serveDeliver s = .next t) : LinkTurn s t := by
  cases hin : s.linkIn with
  | nil =>
    obtain rfl := Host.Outcome.next.inj ((serveDeliver_nil hin).symm.trans h)
    exact .kept rfl
  | cons b l =>
    rw [serveDeliver_cons hin] at h
    cases hfull : s.periph.rxFull with
    | true =>
      obtain rfl := Host.Outcome.next.inj ((exec_periphDeliver_disabled (.inl hfull)).symm.trans h)
      exact .kept rfl
    | false =>
      obtain rfl := Host.Outcome.next.inj ((exec_periphDeliver_enabled hfull hin).symm.trans h)
      exact .took hfull rfl hin rfl

/-- Reset and PEER are the two agents that do more to the streams. -/
theorem linkTurn_runAgent (hreset : a ≠ .reset) (hpeer : ∀ b, a ≠ .peer b) (h : runAgent a s = .next t) :
    LinkTurn s t := by
  cases a with
  | host => exact .kept (link_of_serveHost h)
  | rxc => exact .kept (link_of_exec_peRxc h)
  | txc => exact .kept (link_of_exec_peTxc h)
  | dre => exact .kept (link_of_exec_peDre h)
  | spin => exact .kept (link_of_exec_spin h)
  | txDone => exact linkTurn_txDone h
  | deliver => exact linkTurn_serveDeliver h
  | peer b => exact absurd rfl (hpeer b)
  | reset => exact absurd rfl hreset

/-! ### One step of a node of a pair (R271) -/

theorem nodeStep_of_peer {b : Byte} {rest : List Agent} (h : s.sched = .peer b :: rest) :
    nodeStep s = .next { s with sched := rest } := by
  rw [nodeStep, h]

theorem nodeStep_of_not_peer (h : ∀ b, s.sched.head? ≠ some (.peer b)) : nodeStep s = step s := by
  unfold nodeStep
  split
  · next b rest hs => exact absurd (hs ▸ List.head?_cons) (h b)
  · rfl

theorem nodeStep_linkTurn (hreset : s.sched.head? ≠ some .reset) (h : nodeStep s = .next t) : LinkTurn s t := by
  by_cases hpeer : ∃ b, s.sched.head? = some (.peer b)
  · obtain ⟨b, hb⟩ := hpeer
    obtain ⟨rest, hs⟩ := List.head?_eq_some_iff.1 hb
    obtain rfl := Host.Outcome.next.inj ((nodeStep_of_peer hs).symm.trans h)
    exact .kept rfl
  · rw [nodeStep_of_not_peer (not_exists.1 hpeer)] at h
    cases hs : s.sched with
    | nil =>
      obtain rfl := Host.Outcome.next.inj ((step_of_sched_nil hs).symm.trans h)
      exact .kept rfl
    | cons a rest =>
      rw [step_of_sched_cons hs] at h
      rw [hs, List.head?_cons] at hreset hpeer
      have hturn : LinkTurn { s with sched := rest } t :=
        linkTurn_runAgent (fun ha => hreset (ha ▸ rfl)) (fun b ha => hpeer ⟨b, ha ▸ rfl⟩) h
      cases hturn with
      | kept hlink => exact .kept hlink
      | finished hbusy hready hin hout => exact .finished hbusy hready hin hout
      | took hempty hfull hin hout => exact .took hempty hfull hin hout

/-- R290: a reset empties the node's halves. -/
theorem nodeStep_reset (h : s.sched.head? = some .reset) :
    ∃ t, nodeStep s = .next t ∧ t.linkIn = [] ∧ t.linkOut = [] := by
  obtain ⟨rest, hs⟩ := List.head?_eq_some_iff.1 h
  refine ⟨resetEvent { s with sched := rest }, ?_, rfl, rfl⟩
  rw [nodeStep_of_not_peer (fun b hb => Agent.noConfusion (Option.some.inj (h.symm.trans hb))), step_of_sched_cons hs]
  rfl

end Link

section Streams

variable {s t : State} {p q : Pair} {side : Side}

/-! ### The streams of a pair (R270, R271) -/

theorem pairStep_node_of_next (h : nodeStep (p.node side) = .next t) :
    pairStep (.node side) p = .next (p.withNode side t) := by
  rw [pairStep, h]

theorem pairStep_node_next (h : pairStep (.node side) p = .next q) :
    ∃ t, nodeStep (p.node side) = .next t ∧ q = p.withNode side t := by
  cases hn : nodeStep (p.node side) with
  | next t => exact ⟨t, rfl, (Host.Outcome.next.inj ((pairStep_node_of_next hn).symm.trans h)).symm⟩
  | fault e => rw [pairStep, hn] at h; cases h
  | refused e => rw [pairStep, hn] at h; cases h

/-- The stream that the node sends on gains at most the byte it finished. -/
theorem LinkTurn.streamMoved_sender (h : LinkTurn s t) (receiver : State) : StreamMoved s receiver t receiver := by
  cases h with
  | kept hlink => exact .inl (congrArg (receiver.linkIn ++ ·) (congrArg Prod.snd hlink))
  | finished hbusy hready _ hout =>
    exact .inr (.inl ⟨hbusy, hready, by rw [streamBytes, hout, ← List.append_assoc, streamBytes]⟩)
  | took _ _ _ hout => exact .inl (congrArg (receiver.linkIn ++ ·) hout)

/-- The stream that the node receives on loses at most the byte it took. -/
theorem LinkTurn.streamMoved_receiver (h : LinkTurn s t) (sender : State) : StreamMoved sender s sender t := by
  cases h with
  | kept hlink => exact .inl (congrArg (· ++ sender.linkOut) (congrArg Prod.fst hlink))
  | finished _ _ hin _ => exact .inl (congrArg (· ++ sender.linkOut) hin)
  | took hempty hfull hin _ =>
    exact .inr (.inr ⟨hempty, hfull, by rw [streamBytes, hin, List.cons_append, streamBytes]⟩)

/-- The link moves a byte from one half of a stream to the other, and does not touch the other stream. -/
theorem streamMoved_carry (sender receiver : State) :
    StreamMoved sender receiver (linkTaken sender) (linkGiven sender receiver)
      ∧ StreamMoved receiver sender (linkGiven sender receiver) (linkTaken sender) := by
  obtain ⟨out, inn, htaken, hgiven, horder, -⟩ := link_carries sender receiver
  rw [htaken, hgiven]
  exact ⟨.inl horder, .inl rfl⟩

theorem pairStep_streamMoved {m : PairMove} (h : pairStep m p = .next q)
    (hreset : ∀ side, m = .node side → (p.node side).sched.head? ≠ some .reset) :
    StreamMoved p.a p.b q.a q.b ∧ StreamMoved p.b p.a q.b q.a := by
  cases m with
  | node side =>
    obtain ⟨t, ht, rfl⟩ := pairStep_node_next h
    have hturn := nodeStep_linkTurn (hreset side rfl) ht
    cases side with
    | a => exact ⟨hturn.streamMoved_sender p.b, hturn.streamMoved_receiver p.b⟩
    | b => exact ⟨hturn.streamMoved_receiver p.a, hturn.streamMoved_sender p.a⟩
  | carry sender =>
    cases sender with
    | a =>
      obtain rfl := Host.Outcome.next.inj ((pairStep_carry_a p).symm.trans h)
      exact streamMoved_carry p.a p.b
    | b =>
      obtain rfl := Host.Outcome.next.inj ((pairStep_carry_b p).symm.trans h)
      exact (streamMoved_carry p.b p.a).symm

/-- R290, log entry 32: after a reset a stream is what the other node holds of it. -/
theorem streamBytes_reset (hin : t.linkIn = []) (hout : t.linkOut = []) (other : State) :
    streamBytes t other = other.linkIn ∧ streamBytes other t = other.linkOut := by
  rw [streamBytes, streamBytes, hin, hout]
  exact ⟨List.append_nil _, rfl⟩

end Streams

/-- Settles O60: a move of a pair is a turn of one node or a carry of the link; a reset is told apart. -/
theorem pairStreamsCarryOnlyTheNodesBytes : Obligations.PairStreamsCarryOnlyTheNodesBytes := by
  unfold Obligations.PairStreamsCarryOnlyTheNodesBytes
  refine ⟨fun _ _ _ => pairStep_streamMoved, fun p => ⟨fun ha => ?resetA, fun hb => ?resetB⟩⟩
  case resetA =>
    obtain ⟨t, ht, hin, hout⟩ := nodeStep_reset ha
    exact ⟨_, pairStep_node_of_next (side := .a) ht, rfl, streamBytes_reset hin hout p.b⟩
  case resetB =>
    obtain ⟨t, ht, hin, hout⟩ := nodeStep_reset hb
    exact ⟨_, pairStep_node_of_next (side := .b) ht, rfl, streamBytes_reset hin hout p.a⟩

end Sys2Proof.Proofs
end
